-- ==== Sys2Proof/Word.lean ====
section
/-! DEFINITION. The word types of the DCT engine: bytes, bus words and elements, and the plainest arithmetic on them
(00_scope.md R10, R11; 20_memory.md R49). -/

namespace Sys2Proof

/-- One byte lane of the host bus (20_memory.md R49). -/
abbrev Byte := BitVec 8

/-- One 32-bit bus word: the data of a host access, a register, a command word (R10). -/
abbrev Word := BitVec 32

/-- One element of FMT. A binary64 element is all 64 bits; a binary32 element is bits [31:0], with bits [63:32] zero
(20_memory.md R49, R50; log entry 17). -/
abbrev Elem := BitVec 64

/-- Byte lane `k` of a word, bits [8k+7:8k] (R49). -/
def Word.lane (w : Word) (k : Nat) : Byte := w.extractLsb' (8 * k) 8

/-- The word whose byte lanes 0 to 3 are `b0` to `b3` (R49). -/
def Word.ofLanes (b0 b1 b2 b3 : Byte) : Word := b3 ++ b2 ++ b1 ++ b0

/-- Word `s` of an element: s = 0 (`hi = false`) is bits [31:0], s = 1 is bits [63:32] (R49). -/
def Elem.word (e : Elem) (hi : Bool) : Word := e.extractLsb' (if hi then 32 else 0) 32

end Sys2Proof
end

