-- ==== Sys2Proof/Syntax.lean ====
section
/-! DEFINITION. The commands of the DCT engine: one constructor per row of spec/opcode_table.json (30_encoding.md R72). -/

namespace Sys2Proof

/-- A command {OP, A, B, F4} (30_encoding.md R70). The sizes A and B are unsigned integers used as they stand (R71). -/
inductive Instr where
  /-- CONFIG, OP 0x01: A = ROWS, B = COLS, F4 = 1 for the fixed 4×4 path (40_table_generator.md R81). -/
  | config (rows cols : Nat) (f4 : Bool)
  /-- FWD1D, OP 0x02: A = LEN_R, B = LEN_C (42_transform_1d.md R112). -/
  | fwd1d (lenR lenC : Nat)
  /-- INV1D, OP 0x03: A = LEN_R, B = LEN_C (42_transform_1d.md R113). -/
  | inv1d (lenR lenC : Nat)
  /-- FWD2D, OP 0x04: A = LEN_R, B = LEN_C (43_transform_2d.md R117). -/
  | fwd2d (lenR lenC : Nat)
  /-- INV2D, OP 0x05: A = LEN_R, B = LEN_C (43_transform_2d.md R118). -/
  | inv2d (lenR lenC : Nat)
deriving DecidableEq, Repr

/-- Field A of a command (R70). -/
def Instr.a : Instr → Nat
  | .config r _ _ => r
  | .fwd1d r _ => r
  | .inv1d r _ => r
  | .fwd2d r _ => r
  | .inv2d r _ => r

/-- Field B of a command (R70). -/
def Instr.b : Instr → Nat
  | .config _ c _ => c
  | .fwd1d _ c => c
  | .inv1d _ c => c
  | .fwd2d _ c => c
  | .inv2d _ c => c

/-- Field F4 of a command: only CONFIG can carry a 1 (R69). -/
def Instr.f4 : Instr → Bool
  | .config _ _ f => f
  | .fwd1d _ _ => false
  | .inv1d _ _ => false
  | .fwd2d _ _ => false
  | .inv2d _ _ => false

/-- Whether a command is CONFIG, the one command that is not a transform (R72). -/
def Instr.isConfig : Instr → Bool
  | .config _ _ _ => true
  | .fwd1d _ _ => false
  | .inv1d _ _ => false
  | .fwd2d _ _ => false
  | .inv2d _ _ => false

end Sys2Proof
end

