-- ==== Sys2Proof/WellFormed.lean ====
section
/-! DEFINITION. Which terms of `Instr` are commands: A and B are 8-bit fields (30_encoding.md R69, R71, R76). -/

namespace Sys2Proof

/-- A size that fits its 8-bit field (R71: 0 to 255). -/
def sizeFits (n : Nat) : Bool := decide (n < 256)

/-- A command whose two sizes fit their fields. Nothing else is a matter of form: a bad size or shape is a legal
encoding, refused at issue (R73). -/
def Instr.wellFormed (i : Instr) : Bool := sizeFits i.a && sizeFits i.b

end Sys2Proof
end

