-- ==== Sys2Proof/Decode.lean ====
section
/-! DEFINITION. Decoding of command words and the encoder (30_encoding.md R69 to R77). Decoding reads nothing but the
word (R75), is total, and names what makes a word illegal (R73). -/

namespace Sys2Proof

/-- Why a word is no legal encoding: the three conditions of R73. -/
inductive Illegal where
  /-- OP is not 0x01 to 0x05 (R72, R74). -/
  | opcode
  /-- RSV is not 0. -/
  | reserved
  /-- F4 = 1 on a transform command. -/
  | f4OnTransform
deriving DecidableEq, Repr

/-- The verdict of decoding: the command, or "illegal" (R73). -/
inductive Decoded where
  | cmd (i : Instr)
  | illegal (why : Illegal)
deriving DecidableEq, Repr

/-- OP = w[7:0] (R70). -/
def fieldOp (w : Word) : BitVec 8 := w.extractLsb' 0 8

/-- A = w[15:8] (R70), an unsigned integer (R71). -/
def fieldA (w : Word) : Nat := (w.extractLsb' 8 8).toNat

/-- B = w[23:16] (R70), an unsigned integer (R71). -/
def fieldB (w : Word) : Nat := (w.extractLsb' 16 8).toNat

/-- F4 = w[24] (R70). -/
def fieldF4 (w : Word) : Bool := w.getLsbD 24

/-- RSV = w[31:25] (R70). -/
def fieldRsv (w : Word) : BitVec 7 := w.extractLsb' 25 7

/-- A transform command's word: F4 must be 0 (R69, R73). -/
def decodeTransform (w : Word) (mk : Nat → Nat → Instr) : Decoded :=
  if fieldF4 w then .illegal .f4OnTransform else .cmd (mk (fieldA w) (fieldB w))

/-- The command with opcode OP(w), by the opcode map of R72. -/
def decodeOp (w : Word) : Decoded :=
  match (fieldOp w).toNat with
  | 0x01 => .cmd (.config (fieldA w) (fieldB w) (fieldF4 w))
  | 0x02 => decodeTransform w .fwd1d
  | 0x03 => decodeTransform w .inv1d
  | 0x04 => decodeTransform w .fwd2d
  | 0x05 => decodeTransform w .inv2d
  | _ => .illegal .opcode

/-- The decoder of R73. -/
def decode (w : Word) : Decoded :=
  if fieldRsv w = 0 then decodeOp w else .illegal .reserved

/-- The opcode of a command (R72). -/
def opcodeOf : Instr → BitVec 8
  | .config _ _ _ => 0x01
  | .fwd1d _ _ => 0x02
  | .inv1d _ _ => 0x03
  | .fwd2d _ _ => 0x04
  | .inv2d _ _ => 0x05

/-- The command word `RRRRRRRF BBBBBBBB AAAAAAAA OOOOOOOO` with RSV = 0 (R69). -/
def packWord (op : BitVec 8) (a b : Nat) (f4 : Bool) : Word :=
  (0 : BitVec 7) ++ BitVec.ofBool f4 ++ BitVec.ofNat 8 b ++ BitVec.ofNat 8 a ++ op

/-- The word of a command, by the table of R76. -/
def encode (i : Instr) : Word := packWord (opcodeOf i) i.a i.b i.f4

/-- What the decoder reads from a row of spec/opcode_table.json: the row's `nbits` bits are `w`, and every bit above
them is 0. A command is one 32-bit word (R69), so its bits are the word itself. -/
def decodeTableWord (nbits w : Nat) : Option Instr :=
  match decode (BitVec.ofNat 32 (w % 2 ^ nbits)) with
  | .cmd i => some i
  | .illegal _ => none

end Sys2Proof
end

