-- ==== Sys2Proof/Config.lean ====
section
/-! DEFINITION. What is fixed when a block is built (FMT, NMAX, BASE) and the free values of the model. -/

namespace Sys2Proof

/-- Parameter FMT, the element format (00_scope.md R7). -/
inductive Fmt where
  | binary64
  | binary32
deriving DecidableEq, Repr

/-- The parameters of one built block. They are an argument of the model (R7, R8, R42): State carries one `Build`, which
no step changes, so that a statement about every state is one about every build (log entry 4). -/
structure Build where
  /-- FMT (R7). -/
  fmt  : Fmt
  /-- NMAX, the largest size along either axis (R8). -/
  nmax : Nat
  /-- BASE, the system address of window offset 0 (20_memory.md R42). -/
  base : Nat
deriving DecidableEq, Repr

/-- The spec's limits on the parameters: 4 ≤ NMAX ≤ 64 (R8), BASE a multiple of 0x40000 (R42). -/
def Build.ok (b : Build) : Bool :=
  decide (4 ≤ b.nmax) && decide (b.nmax ≤ 64) && decide (b.base % 0x40000 = 0)

namespace Config

/-- The build of `State.reset`: the default FMT and NMAX (R7, R8). DESIGN CHOICE: BASE = 0, which the spec leaves to the
platform (R42; log entry 4). -/
def build : Build where
  fmt := .binary64
  nmax := 32
  base := 0

/-- FREE VALUE. The byte that a read of an unspecified byte returns (10_state.md R41, U1 to U4): a fresh draw, named by
the number of the step that reads (`seq`) and the number of the byte within that step. It has no body: nothing can be
proved about its values (log entry 5). -/
opaque freeByte : Nat → Nat → Byte

end Config

end Sys2Proof
end

