-- ==== Sys2Proof/Machine/State.lean ====
section
/-! DEFINITION. The state of the DCT engine as plain data (10_state.md R16), the reasons a step can stop, and the state
after power-on reset (10_state.md R40; 70_reset_and_hazards.md R146 to R148). -/

namespace Sys2Proof.Machine

/-- Command error codes (60_exceptions.md R123). Codes 6 to 15 are never produced (U15), so the register is held by the
name of its value; `ErrCode.bits` in Flags.lean gives the four bits (log entry 9). -/
inductive ErrCode where
  | none
  | illegalCmd
  | busy
  | notConfigured
  | invalidConfig
  | dimMismatch
deriving DecidableEq, Repr

/-- ACFG, the active configuration (10_state.md R25). -/
structure Acfg where
  rows : BitVec 8
  cols : BitVec 8
  f4   : Bool
deriving DecidableEq, Repr

/-- ACFG = 0x00000000: unconfigured (R24, R25). -/
def Acfg.unconfigured : Acfg := { rows := 0, cols := 0, f4 := false }

/-- One host bus access, at a system address (20_memory.md R42, R44). `width` is in bits; a write carries its byte
strobes. The data of a write of another width than 32 never reaches the block's state, so only 32 bits are carried. -/
inductive Access where
  | read (addr width : Nat)
  | write (addr width : Nat) (strobes : BitVec 4) (data : Word)
deriving DecidableEq, Repr

/-- One place of the total order of 20_memory.md R60: a host access, a turn of the ENGINE (60_exceptions.md R127), or
the platform's power-on reset input asserted and released (70_reset_and_hazards.md R146). -/
inductive Event where
  | access (a : Access)
  | engine
  | powerOn
deriving DecidableEq, Repr

/-- The block's response to one host access (60_exceptions.md R130): `Ok data` of a read, `Ok` of a write, `BusErr`. -/
inductive BusResp where
  | data (w : Word)
  | written
  | error
deriving DecidableEq, Repr

/-- Memory: (window offset, byte) pairs, offsets strictly rising. An unlisted byte has no value: it is unspecified
(10_state.md R41; log entries 5 and 21). -/
abbrev Memory := List Host.Cell

/-- The canonical form of a memory: offsets strictly rising. An unlisted offset reads as no value, so no entry can equal
what an unlisted offset reads as. -/
abbrev Memory.wf (m : Memory) : Prop := m.Pairwise (fun x y => x.1 < y.1)

/-- The machine's state. Fields up to `tbuf` are the spec's (R16), `build` is the block's parameters, and `order`, `resp`
and `seq` are the model's own (INVENTORY.md). -/
structure State where
  /-- FMT, NMAX and BASE (00_scope.md R7, R8; 20_memory.md R42). -/
  build  : Build
  /-- CTRL.DONE_IE (10_state.md R22). -/
  doneIE : Bool
  /-- CTRL.ERR_IE (R22). -/
  errIE  : Bool
  /-- STATUS.DONE (R23). -/
  done   : Bool
  /-- STATUS.ERR (R23). -/
  err    : Bool
  /-- STATUS.ERRCODE (R23). -/
  errcode : ErrCode
  /-- ACFG (R25). -/
  acfg   : Acfg
  /-- PEND, present exactly while STATUS.BUSY = 1 (R36). -/
  pend   : Option Instr
  /-- The IN and OUT buffers (R28, R29), as bytes at their window offsets. -/
  mem    : Memory
  /-- The row cosine table RAM, `cosr[x][u]` (R30). -/
  cosr   : List (List Elem)
  /-- The column cosine table RAM, `cosc[x][u]` (R30). -/
  cosc   : List (List Elem)
  /-- The row alpha registers (R31). -/
  alphar : List Elem
  /-- The column alpha registers (R31). -/
  alphac : List Elem
  /-- The hidden intermediate buffer T (R37): the rows the latest completion wrote. -/
  tbuf   : List (List Elem)
  /-- The accesses, ENGINE turns and power-on resets still to come, in the total order of 20_memory.md R60. -/
  order  : List Event
  /-- The response to the latest host access (60_exceptions.md R130). -/
  resp   : Option BusResp
  /-- How many steps have been taken: the argument of the free values (log entry 5). -/
  seq    : Nat
deriving DecidableEq, Repr

/-- Why the machine stops with a fault. -/
inductive Fault where
  /-- Raised by `hostAccess` for an access outside the window [BASE, BASE + 2^18), which the block does not decode: what
  the platform does with it is outside the block (20_memory.md R55). Safe: the model stops (log entry 13). -/
  | outsideWindow
deriving DecidableEq, Repr

/-- Why an instruction has no meaning. -/
inductive Refusal where
  /-- Raised only by an arm of `exec` whose instruction has no meaning yet; no arm is left so. Safe: the model stops. -/
  | notModelled (mnemonic : String)
deriving DecidableEq, Repr

/-- STATUS.BUSY: PEND is present (R36). -/
def State.busy (s : State) : Bool := s.pend.isSome

/-- STATUS.CFGD: ACFG.ROWS ≠ 0 (R24). -/
def State.configured (s : State) : Bool := decide (s.acfg.rows ≠ 0)

/-- A block with parameters `b` when its power-on reset is released (R40, R146 to R148): registers 0, no command pending,
no byte of IN or OUT specified, nothing held in the tables and T. -/
def State.resetOf (b : Build) : State where
  build := b
  doneIE := false
  errIE := false
  done := false
  err := false
  errcode := .none
  acfg := .unconfigured
  pend := none
  mem := []
  cosr := []
  cosc := []
  alphar := []
  alphac := []
  tbuf := []
  order := []
  resp := none
  seq := 0

/-- The machine right after power-on reset, with the default parameters. -/
def State.reset : State := State.resetOf Config.build

end Sys2Proof.Machine
end

