-- ==== Sys2Proof/Machine/Flags.lean ====
section
/-! DEFINITION. The registers as the host reads them, the flags and the irq output (10_state.md R19 to R27, R38, R39). -/

namespace Sys2Proof.Machine

/-- The four bits of STATUS.ERRCODE (60_exceptions.md R123). -/
def ErrCode.bits : ErrCode → BitVec 4
  | .none => 0
  | .illegalCmd => 1
  | .busy => 2
  | .notConfigured => 3
  | .invalidConfig => 4
  | .dimMismatch => 5

/-- ID reads 0x44435432 (R20). -/
def idValue : Word := 0x44435432

/-- CAP: F64 [0], NMAX [15:8], FIX4 = 1 [16], VERSION = 1 [31:24] (R21). -/
def capValue (b : Build) : Word :=
  (0x01 : BitVec 8) ++ (0 : BitVec 7) ++ (1 : BitVec 1) ++ BitVec.ofNat 8 b.nmax ++ (0 : BitVec 7) ++
    BitVec.ofBool (decide (b.fmt = .binary64))

/-- CTRL: DONE_IE [0], ERR_IE [1]; SRST and the reserved bits read 0 (R22). -/
def State.ctrlValue (s : State) : Word := (0 : BitVec 30) ++ BitVec.ofBool s.errIE ++ BitVec.ofBool s.doneIE

/-- STATUS: BUSY [0], CFGD [1], DONE [8], ERR [9], ERRCODE [15:12] (R23). -/
def State.statusValue (s : State) : Word :=
  (0 : BitVec 16) ++ s.errcode.bits ++ (0 : BitVec 2) ++ BitVec.ofBool s.err ++ BitVec.ofBool s.done ++
    (0 : BitVec 6) ++ BitVec.ofBool s.configured ++ BitVec.ofBool s.busy

/-- ACFG: ROWS [15:8], COLS [23:16], F4 [24] (R25). -/
def State.acfgValue (s : State) : Word :=
  (0 : BitVec 7) ++ BitVec.ofBool s.acfg.f4 ++ s.acfg.cols ++ s.acfg.rows ++ (0 : BitVec 8)

/-- The irq output, level-sensitive and without storage (R38; 60_exceptions.md R134). -/
def State.irq (s : State) : Bool := (s.done && s.doneIE) || (s.err && s.errIE)

/-- A write of `d` to STATUS: d[8] clears DONE; d[9] clears ERR and ERRCODE; the rest is ignored (R23). -/
def State.clearStatus (d : Word) (s : State) : State :=
  { s with
    done := s.done && !d.getLsbD 8
    err := s.err && !d.getLsbD 9
    errcode := if d.getLsbD 9 then .none else s.errcode }

/-- A write of `d` to CTRL without SRST: bits [1:0] are stored (R22). -/
def State.setEnables (d : Word) (s : State) : State :=
  { s with doneIE := d.getLsbD 0, errIE := d.getLsbD 1 }

end Sys2Proof.Machine
end

