-- ==== Sys2Proof/Machine/AlphaTable.lean ====
section
/-! DEFINITION. The alpha LUT ROM (10_state.md R33): α_N[0] and α_N[u ≥ 1] for 1 ≤ N ≤ 64, in both formats, as
40_table_generator.md R90 lists them. R89 governs (log entry 15). -/

namespace Sys2Proof.Machine

/-- ALUT[N], N = 1 to 16, binary64 (R90). -/
def alphaLut64Part0 : List (List Nat) := [
  [0x3FF0000000000000], [0x3FE6A09E667F3BCD, 0x3FF0000000000000], [0x3FE279A74590331C, 0x3FEA20BD700C2C3E],
  [0x3FE0000000000000, 0x3FE6A09E667F3BCD], [0x3FDC9F25C5BFEDD9, 0x3FE43D136248490F],
  [0x3FDA20BD700C2C3E, 0x3FE279A74590331C], [0x3FD83091E6A7F7E7, 0x3FE11ACEE560242A],
  [0x3FD6A09E667F3BCD, 0x3FE0000000000000], [0x3FD5555555555555, 0x3FDE2B7DDDFEFA66],
  [0x3FD43D136248490F, 0x3FDC9F25C5BFEDD9], [0x3FD34BF63D156826, 0x3FDB4A293C1D9550],
  [0x3FD279A74590331C, 0x3FDA20BD700C2C3E], [0x3FD1C01AA03BE896, 0x3FD91A556151761C],
  [0x3FD11ACEE560242A, 0x3FD83091E6A7F7E7], [0x3FD08654A2D4F6DB, 0x3FD75E9746A0B098],
  [0x3FD0000000000000, 0x3FD6A09E667F3BCD]]

/-- ALUT[N], N = 17 to 32, binary64 (R90). -/
def alphaLut64Part1 : List (List Nat) := [
  [0x3FCF0B6848D2AF1C, 0x3FD5F3AA673FA911], [0x3FCE2B7DDDFEFA66, 0x3FD5555555555555],
  [0x3FCD5D7EA914B937, 0x3FD4C3ABE93BCF74], [0x3FCC9F25C5BFEDD9, 0x3FD43D136248490F],
  [0x3FCBEE9056FB9C39, 0x3FD3C03650E00E03], [0x3FCB4A293C1D9550, 0x3FD34BF63D156826],
  [0x3FCAB099AE8F539A, 0x3FD2DF60C5DF2C9E], [0x3FCA20BD700C2C3E, 0x3FD279A74590331C],
  [0x3FC999999999999A, 0x3FD21A1851FF630A], [0x3FC91A556151761C, 0x3FD1C01AA03BE896],
  [0x3FC8A2345CC04426, 0x3FD16B28F55D72D4], [0x3FC83091E6A7F7E7, 0x3FD11ACEE560242A],
  [0x3FC7C4DD663EBB88, 0x3FD0CEA6317186DC], [0x3FC75E9746A0B098, 0x3FD08654A2D4F6DB],
  [0x3FC6FD4E79325467, 0x3FD0418A4806DE7D], [0x3FC6A09E667F3BCD, 0x3FD0000000000000]]

/-- ALUT[N], N = 33 to 48, binary64 (R90). -/
def alphaLut64Part2 : List (List Nat) := [
  [0x3FC6482D37A5A3D2, 0x3FCF82EC882C0F9B], [0x3FC5F3AA673FA911, 0x3FCF0B6848D2AF1C],
  [0x3FC5A2CD8C69D61A, 0x3FCE990CDAD55ED2], [0x3FC5555555555555, 0x3FCE2B7DDDFEFA66],
  [0x3FC50B06A8FC6B70, 0x3FCDC267BEA45549], [0x3FC4C3ABE93BCF74, 0x3FCD5D7EA914B937],
  [0x3FC47F144FE17F9F, 0x3FCCFC7DA32A9213], [0x3FC43D136248490F, 0x3FCC9F25C5BFEDD9],
  [0x3FC3FD8077E70577, 0x3FCC453D90F057A2], [0x3FC3C03650E00E03, 0x3FCBEE9056FB9C39],
  [0x3FC38512BA21F51E, 0x3FCB9AEDBA588347], [0x3FC34BF63D156826, 0x3FCB4A293C1D9550],
  [0x3FC314C3D92A9E91, 0x3FCAFC19D8606169], [0x3FC2DF60C5DF2C9E, 0x3FCAB099AE8F539A],
  [0x3FC2ABB43C0EB0F4, 0x3FCA6785B41BACF7], [0x3FC279A74590331C, 0x3FCA20BD700C2C3E]]

/-- ALUT[N], N = 49 to 64, binary64 (R90). -/
def alphaLut64Part3 : List (List Nat) := [
  [0x3FC2492492492492, 0x3FC9DC22BE484458], [0x3FC21A1851FF630A, 0x3FC999999999999A],
  [0x3FC1EC70124E98F9, 0x3FC95907EB87AB44], [0x3FC1C01AA03BE896, 0x3FC91A556151761C],
  [0x3FC19507ECF5B9E9, 0x3FC8DD6B4563A009], [0x3FC16B28F55D72D4, 0x3FC8A2345CC04426],
  [0x3FC1426FAC0654DB, 0x3FC8689CC7E07E7D], [0x3FC11ACEE560242A, 0x3FC83091E6A7F7E7],
  [0x3FC0F43A45CDEDAD, 0x3FC7FA023F1068D1], [0x3FC0CEA6317186DC, 0x3FC7C4DD663EBB88],
  [0x3FC0AA07BD7B7488, 0x3FC79113EBBD7729], [0x3FC08654A2D4F6DB, 0x3FC75E9746A0B098],
  [0x3FC0638331FF307A, 0x3FC72D59C45F1FC5], [0x3FC0418A4806DE7D, 0x3FC6FD4E79325467],
  [0x3FC02061446FFA9A, 0x3FC6CE6931D5858D], [0x3FC0000000000000, 0x3FC6A09E667F3BCD]]

/-- ALUT[N] for N = 1 to 64, binary64 (R90): row N − 1 holds ALUT[N][0] and, for N ≥ 2, ALUT[N][1]. -/
def alphaLut64 : List (List Nat) :=
  alphaLut64Part0 ++ alphaLut64Part1 ++ alphaLut64Part2 ++ alphaLut64Part3

/-- ALUT[N], N = 1 to 16, binary32 (R90). -/
def alphaLut32Part0 : List (List Nat) := [
  [0x3F800000], [0x3F3504F3, 0x3F800000], [0x3F13CD3A, 0x3F5105EC], [0x3F000000, 0x3F3504F3], [0x3EE4F92E, 0x3F21E89B],
  [0x3ED105EC, 0x3F13CD3A], [0x3EC1848F, 0x3F08D677], [0x3EB504F3, 0x3F000000], [0x3EAAAAAB, 0x3EF15BEF],
  [0x3EA1E89B, 0x3EE4F92E], [0x3E9A5FB2, 0x3EDA514A], [0x3E93CD3A, 0x3ED105EC], [0x3E8E00D5, 0x3EC8D2AB],
  [0x3E88D677, 0x3EC1848F], [0x3E8432A5, 0x3EBAF4BA], [0x3E800000, 0x3EB504F3]]

/-- ALUT[N], N = 17 to 32, binary32 (R90). -/
def alphaLut32Part1 : List (List Nat) := [
  [0x3E785B42, 0x3EAF9D53], [0x3E715BEF, 0x3EAAAAAB], [0x3E6AEBF5, 0x3EA61D5F], [0x3E64F92E, 0x3EA1E89B],
  [0x3E5F7483, 0x3E9E01B3], [0x3E5A514A, 0x3E9A5FB2], [0x3E5584CD, 0x3E96FB06], [0x3E5105EC, 0x3E93CD3A],
  [0x3E4CCCCD, 0x3E90D0C3], [0x3E48D2AB, 0x3E8E00D5], [0x3E4511A3, 0x3E8B5948], [0x3E41848F, 0x3E88D677],
  [0x3E3E26EB, 0x3E867532], [0x3E3AF4BA, 0x3E8432A5], [0x3E37EA74, 0x3E820C52], [0x3E3504F3, 0x3E800000]]

/-- ALUT[N], N = 33 to 48, binary32 (R90). -/
def alphaLut32Part2 : List (List Nat) := [
  [0x3E32416A, 0x3E7C1764], [0x3E2F9D53, 0x3E785B42], [0x3E2D166C, 0x3E74C867], [0x3E2AAAAB, 0x3E715BEF],
  [0x3E285835, 0x3E6E133E], [0x3E261D5F, 0x3E6AEBF5], [0x3E23F8A2, 0x3E67E3ED], [0x3E21E89B, 0x3E64F92E],
  [0x3E1FEC04, 0x3E6229ED], [0x3E1E01B3, 0x3E5F7483], [0x3E1C2896, 0x3E5CD76E], [0x3E1A5FB2, 0x3E5A514A],
  [0x3E18A61F, 0x3E57E0CF], [0x3E16FB06, 0x3E5584CD], [0x3E155DA2, 0x3E533C2E], [0x3E13CD3A, 0x3E5105EC]]

/-- ALUT[N], N = 49 to 64, binary32 (R90). -/
def alphaLut32Part3 : List (List Nat) := [
  [0x3E124925, 0x3E4EE116], [0x3E10D0C3, 0x3E4CCCCD], [0x3E0F6381, 0x3E4AC83F], [0x3E0E00D5, 0x3E48D2AB],
  [0x3E0CA83F, 0x3E46EB5A], [0x3E0B5948, 0x3E4511A3], [0x3E0A137D, 0x3E4344E6], [0x3E08D677, 0x3E41848F],
  [0x3E07A1D2, 0x3E3FD012], [0x3E067532, 0x3E3E26EB], [0x3E05503E, 0x3E3C889F], [0x3E0432A5, 0x3E3AF4BA],
  [0x3E031C1A, 0x3E396ACE], [0x3E020C52, 0x3E37EA74], [0x3E01030A, 0x3E36734A], [0x3E000000, 0x3E3504F3]]

/-- ALUT[N] for N = 1 to 64, binary32 (R90): row N − 1 holds ALUT[N][0] and, for N ≥ 2, ALUT[N][1]. -/
def alphaLut32 : List (List Nat) :=
  alphaLut32Part0 ++ alphaLut32Part1 ++ alphaLut32Part2 ++ alphaLut32Part3

end Sys2Proof.Machine
end

