-- ==== Sys2Proof/Machine/CosTable.lean ====
section
/-! DEFINITION. The cosine basis B_N[j] = RN(cos(π·j/(2N))), 1 ≤ N ≤ 64, 0 ≤ j ≤ N, in both formats: the table generator's
constants, from spec/cos_basis_table.json (40_table_generator.md R87, R88). R85 governs (log entry 14). -/

namespace Sys2Proof.Machine

/-- B_N, N = 1 to 8, binary64 (R88). -/
def cosBasis64Part0 : List (List Nat) := [
  [0x3FF0000000000000, 0x0000000000000000],
  [0x3FF0000000000000, 0x3FE6A09E667F3BCD, 0x0000000000000000],
  [0x3FF0000000000000, 0x3FEBB67AE8584CAA, 0x3FE0000000000000, 0x0000000000000000],
  [0x3FF0000000000000, 0x3FED906BCF328D46, 0x3FE6A09E667F3BCD, 0x3FD87DE2A6AEA963, 0x0000000000000000],
  [0x3FF0000000000000, 0x3FEE6F0E134454FF, 0x3FE9E3779B97F4A8, 0x3FE2CF2304755A5E, 0x3FD3C6EF372FE950,
   0x0000000000000000],
  [0x3FF0000000000000, 0x3FEEE8DD4748BF15, 0x3FEBB67AE8584CAA, 0x3FE6A09E667F3BCD, 0x3FE0000000000000,
   0x3FD0907DC1930690, 0x0000000000000000],
  [0x3FF0000000000000, 0x3FEF329C0558E969, 0x3FECD4BCA9CB5C71, 0x3FE904C37505DE4B, 0x3FE3F3A0E28BEDD1,
   0x3FDBC4C04D71ABC1, 0x3FCC7B90E3024582, 0x0000000000000000],
  [0x3FF0000000000000, 0x3FEF6297CFF75CB0, 0x3FED906BCF328D46, 0x3FEA9B66290EA1A3, 0x3FE6A09E667F3BCD,
   0x3FE1C73B39AE68C8, 0x3FD87DE2A6AEA963, 0x3FC8F8B83C69A60B, 0x0000000000000000]]

/-- B_N, N = 9 to 16, binary64 (R88). -/
def cosBasis64Part1 : List (List Nat) := [
  [0x3FF0000000000000, 0x3FEF838B8C811C17, 0x3FEE11F642522D1C, 0x3FEBB67AE8584CAA, 0x3FE8836FA2CF5039,
   0x3FE491B7523C161D, 0x3FE0000000000000, 0x3FD5E3A8748A0BF5, 0x3FC63A1A7E0B738A, 0x0000000000000000],
  [0x3FF0000000000000, 0x3FEF9B24942FE45C, 0x3FEE6F0E134454FF, 0x3FEC83201D3D2C6D, 0x3FE9E3779B97F4A8,
   0x3FE6A09E667F3BCD, 0x3FE2CF2304755A5E, 0x3FDD0E2E2B44DE01, 0x3FD3C6EF372FE950, 0x3FC4060B67A85375,
   0x0000000000000000],
  [0x3FF0000000000000, 0x3FEFAC9E043842EF, 0x3FEEB42A9BCD5057, 0x3FED1BB48EEE2C13, 0x3FEAEB8C8764F0BA,
   0x3FE82F19BB3A28A1, 0x3FE4F49E7F775887, 0x3FE14CEDF8BB580B, 0x3FDA9628D9C712B6, 0x3FD207E7FD768DBF,
   0x3FC2375F640F44DB, 0x0000000000000000],
  [0x3FF0000000000000, 0x3FEFB9EA92EC689B, 0x3FEEE8DD4748BF15, 0x3FED906BCF328D46, 0x3FEBB67AE8584CAA,
   0x3FE963268B572492, 0x3FE6A09E667F3BCD, 0x3FE37AF93F9513EA, 0x3FE0000000000000, 0x3FD87DE2A6AEA963,
   0x3FD0907DC1930690, 0x3FC0B5150F6DA2D1, 0x0000000000000000],
  [0x3FF0000000000000, 0x3FEFC44566966769, 0x3FEF11F493053D00, 0x3FEDEBA72EF20147, 0x3FEC55A7E00740E9,
   0x3FEA55E242A4C3D2, 0x3FE7F3CCD0032E0C, 0x3FE5384D024C2F84, 0x3FE22D961EA71119, 0x3FDDBE064267C47C,
   0x3FD6B1D8B2365DA1, 0x3FCEA1E54BC48DBF, 0x3FBEDB7DEBAA3ED8, 0x0000000000000000],
  [0x3FF0000000000000, 0x3FEFCC7D8C64135F, 0x3FEF329C0558E969, 0x3FEE344AD05D3F86, 0x3FECD4BCA9CB5C71,
   0x3FEB185D590D5A44, 0x3FE904C37505DE4B, 0x3FE6A09E667F3BCD, 0x3FE3F3A0E28BEDD1, 0x3FE106682221CD8A,
   0x3FDBC4C04D71ABC1, 0x3FD5234ACA69A9FE, 0x3FCC7B90E3024582, 0x3FBCA9B4332D6F61, 0x0000000000000000],
  [0x3FF0000000000000, 0x3FEFD31F94F867C6, 0x3FEF4CFC327A0080, 0x3FEE6F0E134454FF, 0x3FED3BC3AEFF7F95,
   0x3FEBB67AE8584CAA, 0x3FE9E3779B97F4A8, 0x3FE7C7D7A833BEC2, 0x3FE5698496E20BD8, 0x3FE2CF2304755A5E,
   0x3FE0000000000000, 0x3FDA07F921061AD1, 0x3FD3C6EF372FE950, 0x3FCA9CD9AC4258F6, 0x3FBAC2609B3C576C,
   0x0000000000000000],
  [0x3FF0000000000000, 0x3FEFD88DA3D12526, 0x3FEF6297CFF75CB0, 0x3FEE9F4156C62DDA, 0x3FED906BCF328D46,
   0x3FEC38B2F180BDB1, 0x3FEA9B66290EA1A3, 0x3FE8BC806B151741, 0x3FE6A09E667F3BCD, 0x3FE44CF325091DD6,
   0x3FE1C73B39AE68C8, 0x3FDE2B5D3806F63B, 0x3FD87DE2A6AEA963, 0x3FD294062ED59F06, 0x3FC8F8B83C69A60B,
   0x3FB917A6BC29B42C, 0x0000000000000000]]

/-- B_N, N = 17 to 24, binary64 (R88). -/
def cosBasis64Part2 : List (List Nat) := [
  [0x3FF0000000000000, 0x3FEFDD0DEB564B22, 0x3FEF7484007FAEF3, 0x3FEEC746923C349F, 0x3FEDD6D000370991,
   0x3FECA52D7C9E640B, 0x3FEB34FA910EA3B9, 0x3FE9895B6C9A05F6, 0x3FE7A5F6075D4884, 0x3FE58EEA2A9D6DA3,
   0x3FE348C86ED5F1BB, 0x3FE0D8884363DD80, 0x3FDC86FA2B2883CD, 0x3FD71E955D8E7CDC, 0x3FD183B1C61F0D01,
   0x3FC7851AACD6C6B4, 0x3FB79EE63259B75E, 0x0000000000000000],
  [0x3FF0000000000000, 0x3FEFE0D3B41815A2, 0x3FEF838B8C811C17, 0x3FEEE8DD4748BF15, 0x3FEE11F642522D1C,
   0x3FED0079302DD767, 0x3FEBB67AE8584CAA, 0x3FEA367E59158747, 0x3FE8836FA2CF5039, 0x3FE6A09E667F3BCD,
   0x3FE491B7523C161D, 0x3FE25ABCF87C4978, 0x3FE0000000000000, 0x3FDB0C2D77379853, 0x3FD5E3A8748A0BF5,
   0x3FD0907DC1930690, 0x3FC63A1A7E0B738A, 0x3FB64FD6B8C28103, 0x0000000000000000],
  [0x3FF0000000000000, 0x3FEFE40529A542AA, 0x3FEF90459484F2B2, 0x3FEF0553B4DE2E18, 0x3FEE442285231BE1,
   0x3FED4E03DD110B08, 0x3FEC24A622E3E9F9, 0x3FEACA115AAE3DE4, 0x3FE940A398F9CD23, 0x3FE78B0CDEE73E0F,
   0x3FE5AC4A670A1CFF, 0x3FE3A7A16B394423, 0x3FE180996C77C8CA, 0x3FDE75EC0DED7BEE, 0x3FD9B560B9F596EA,
   0x3FD4C7E04850CFAA, 0x3FCF6C118574C83E, 0x3FC5116F7F2D58C5, 0x3FB523EB8420F5F5, 0x0000000000000000],
  [0x3FF0000000000000, 0x3FEFE6BF2E2660AF, 0x3FEF9B24942FE45C, 0x3FEF1DA785F71BCE, 0x3FEE6F0E134454FF,
   0x3FED906BCF328D46, 0x3FEC83201D3D2C6D, 0x3FEB48D406A50540, 0x3FE9E3779B97F4A8, 0x3FE8553EE43DEF13,
   0x3FE6A09E667F3BCD, 0x3FE4C8474600EEEE, 0x3FE2CF2304755A5E, 0x3FE0B84EE8F52E9D, 0x3FDD0E2E2B44DE01,
   0x3FD87DE2A6AEA963, 0x3FD3C6EF372FE950, 0x3FCDE189A594FBCC, 0x3FC4060B67A85375, 0x3FB415E532398E49,
   0x0000000000000000],
  [0x3FF0000000000000, 0x3FEFE917F00AE2CD, 0x3FEFA4808B7D3C19, 0x3FEF329C0558E969, 0x3FEE940D6BB98CC5,
   0x3FEDC9B7BE64378E, 0x3FECD4BCA9CB5C71, 0x3FEBB67AE8584CAA, 0x3FEA708C4C4BFA74, 0x3FE904C37505DE4B,
   0x3FE7752932F8FB65, 0x3FE5C3F99E0B6B95, 0x3FE3F3A0E28BEDD1, 0x3FE206B7C9520CED, 0x3FE0000000000000,
   0x3FDBC4C04D71ABC1, 0x3FD761BF51E29C90, 0x3FD2DD44CE9AFBA7, 0x3FCC7B90E3024582, 0x3FC313D12579650C,
   0x3FB32182EBFB0FE9, 0x0000000000000000],
  [0x3FF0000000000000, 0x3FEFEB20B2727776, 0x3FEFAC9E043842EF, 0x3FEF44C981178554, 0x3FEEB42A9BCD5057,
   0x3FEDFB7DFD5BD86F, 0x3FED1BB48EEE2C13, 0x3FEC15F23F927C6C, 0x3FEAEB8C8764F0BA, 0x3FE99E08AA1BD200,
   0x3FE82F19BB3A28A1, 0x3FE6A09E667F3BCD, 0x3FE4F49E7F775887, 0x3FE32D485B5C7635, 0x3FE14CEDF8BB580B,
   0x3FDEAC03F126A45F, 0x3FDA9628D9C712B6, 0x3FD65D9F01A01A2D, 0x3FD207E7FD768DBF, 0x3FCB3556E37288FB,
   0x3FC2375F640F44DB, 0x3FB24348E2C39925, 0x0000000000000000],
  [0x3FF0000000000000, 0x3FEFECE70DFD3EFB, 0x3FEFB3B3035AA6CD, 0x3FEF54A827142577, 0x3FEED037EA3D2DBB,
   0x3FEE270060999288, 0x3FED59CB83EF99BC, 0x3FEC698E42F47B09, 0x3FEB57675CF309EE, 0x3FEA249E0B897CA9,
   0x3FE8D2A07C16D46F, 0x3FE763021AAA15DA, 0x3FE5D779B07CFEF7, 0x3FE431DF5838F7EF, 0x3FE2742A4A775CFB,
   0x3FE0A06E851DB7CA, 0x3FDD71B4A0C5A6C8, 0x3FD97F6748E524B2, 0x3FD56EAAE597C776, 0x3FD14459AD2BE466,
   0x3FCA0AD8BD1E2882, 0x3FC16DE8A4564F0A, 0x3FB17855B599F3B9, 0x0000000000000000],
  [0x3FF0000000000000, 0x3FEFEE75D62A9C46, 0x3FEFB9EA92EC689B, 0x3FEF6297CFF75CB0, 0x3FEEE8DD4748BF15,
   0x3FEE4D406A38E9AB, 0x3FED906BCF328D46, 0x3FECB32E76B1D0F4, 0x3FEBB67AE8584CAA, 0x3FEA9B66290EA1A3,
   0x3FE963268B572492, 0x3FE80F125B1E8028, 0x3FE6A09E667F3BCD, 0x3FE5195C65137F0C, 0x3FE37AF93F9513EA,
   0x3FE1C73B39AE68C8, 0x3FE0000000000000, 0x3FDC4E7538F866FC, 0x3FD87DE2A6AEA963, 0x3FD49276D5C7BB48,
   0x3FD0907DC1930690, 0x3FC8F8B83C69A60B, 0x3FC0B5150F6DA2D1, 0x3FB0BE426D197A8B, 0x0000000000000000]]

/-- B_N, N = 25 to 32, binary64 (R88). -/
def cosBasis64Part3 : List (List Nat) := [
  [0x3FF0000000000000, 0x3FEFEFD5BFE443FE, 0x3FEFBF675480D903, 0x3FEF6EE5AC2509FF, 0x3FEEFEA21D101EE0,
   0x3FEE6F0E134454FF, 0x3FEDC0BA9DEF5AE5, 0x3FECF457DCDC158C, 0x3FEC0AB44E81C059, 0x3FEB04BBFF642E86,
   0x3FE9E3779B97F4A8, 0x3FE8A80B635B6BEA, 0x3FE753B603D2B816, 0x3FE5E7CF55112014, 0x3FE465C6FEB501BC,
   0x3FE2CF2304755A5E, 0x3FE1257E3C182B51, 0x3FDED50D5CBFA951, 0x3FDB3FF7C925819C, 0x3FD78F5A48A8A919,
   0x3FD3C6EF372FE950, 0x3FCFD511FA1C0796, 0x3FC7FC1C65037A79, 0x3FC00AEB5DA15BE0, 0x3FB0130A1BE09379,
   0x0000000000000000],
  [0x3FF0000000000000, 0x3FEFF10DDC21C94E, 0x3FEFC44566966769, 0x3FEF79D074810A9C, 0x3FEF11F493053D00,
   0x3FEE8D12C64ED0C6, 0x3FEDEBA72EF20147, 0x3FED2E4895F86E4B, 0x3FEC55A7E00740E9, 0x3FEB628F68220C30,
   0x3FEA55E242A4C3D2, 0x3FE9309B69255AB1, 0x3FE7F3CCD0032E0C, 0x3FE6A09E667F3BCD, 0x3FE5384D024C2F84,
   0x3FE3BC2937987FA6, 0x3FE22D961EA71119, 0x3FE08E08081C11B4, 0x3FDDBE064267C47C, 0x3FDA44341251DE6E,
   0x3FD6B1D8B2365DA1, 0x3FD30A4A3FB12A93, 0x3FCEA1E54BC48DBF, 0x3FC71298DA2CCBC4, 0x3FBEDB7DEBAA3ED8,
   0x3FAEE9EE2F9EE4BE, 0x0000000000000000],
  [0x3FF0000000000000, 0x3FEFF223F3635CE3, 0x3FEFC89BCEF44CF4, 0x3FEF838B8C811C17, 0x3FEF232EFF15C9E6,
   0x3FEEA7D99F29CADE, 0x3FEE11F642522D1C, 0x3FED6206BEB6C24B, 0x3FEC98A37A9A7850, 0x3FEBB67AE8584CAA,
   0x3FEABC50EF4734A7, 0x3FE9AAFE4207DF5F, 0x3FE8836FA2CF5039, 0x3FE746A51650EADE, 0x3FE5F5B105F99707,
   0x3FE491B7523C161D, 0x3FE31BEC55BC71BC, 0x3FE19593DA358510, 0x3FE0000000000000, 0x3FDCB920325BAFA6,
   0x3FD9595EF26FB670, 0x3FD5E3A8748A0BF5, 0x3FD25AFBF23865BF, 0x3FCD84D223638000, 0x3FC63A1A7E0B738A,
   0x3FBDB843E577175E, 0x3FADC528B5343A86, 0x0000000000000000],
  [0x3FF0000000000000, 0x3FEFF31CCABE6E4C, 0x3FEFCC7D8C64135F, 0x3FEF8C4160D38565, 0x3FEF329C0558E969,
   0x3FEEBFD5AEFD405A, 0x3FEE344AD05D3F86, 0x3FED906BCF328D46, 0x3FECD4BCA9CB5C71, 0x3FEC01D48CB95263,
   0x3FEB185D590D5A44, 0x3FEA19131B8279C4, 0x3FE904C37505DE4B, 0x3FE7DC4CF5162385, 0x3FE6A09E667F3BCD,
   0x3FE552B60F035F34, 0x3FE3F3A0E28BEDD1, 0x3FE28479AA873CFE, 0x3FE106682221CD8A, 0x3FDEF5401024C4F4,
   0x3FDBC4C04D71ABC1, 0x3FD87DE2A6AEA963, 0x3FD5234ACA69A9FE, 0x3FD1B7AC4AFC3C02, 0x3FCC7B90E3024582,
   0x3FC570D80B7C3350, 0x3FBCA9B4332D6F61, 0x3FACB544024FC940, 0x0000000000000000],
  [0x3FF0000000000000, 0x3FEFF3FC588E859D, 0x3FEFCFFA67B61650, 0x3FEF941537248537, 0x3FEF4079C06C0992,
   0x3FEED566CB3DCBA1, 0x3FEE532CBE45C954, 0x3FEDBA2D62CB789F, 0x3FED0ADB9B447CCF, 0x3FEC45BB0D10918C,
   0x3FEB6B5FBD9F7255, 0x3FEA7C6DA34AF89F, 0x3FE979982A38E65A, 0x3FE863A1ADA0CFA6, 0x3FE73B5AE5DB4E10,
   0x3FE601A24BA81342, 0x3FE4B76371208A62, 0x3FE35D9650D47852, 0x3FE1F53E93956DBF, 0x3FE07F6ACD7CDCE2,
   0x3FDDFA67657E7608, 0x3FDADF7689C97B70, 0x3FD7B057F20BF2E4, 0x3FD46F6FAF5FCB72, 0x3FD11F2F2E2F1E3B,
   0x3FCB8426C12812BC, 0x3FC4B545C0234A71, 0x3FBBADB02034D9FF, 0x3FABB81853A18977, 0x0000000000000000],
  [0x3FF0000000000000, 0x3FEFF4C5ED12E61D, 0x3FEFD31F94F867C6, 0x3FEF9B24942FE45C, 0x3FEF4CFC327A0080,
   0x3FEEE8DD4748BF15, 0x3FEE6F0E134454FF, 0x3FEDDFE40EFFB805, 0x3FED3BC3AEFF7F95, 0x3FEC83201D3D2C6D,
   0x3FEBB67AE8584CAA, 0x3FEAD663A8AE2FDC, 0x3FE9E3779B97F4A8, 0x3FE8DE613515A328, 0x3FE7C7D7A833BEC2,
   0x3FE6A09E667F3BCD, 0x3FE5698496E20BD8, 0x3FE4236484487ABE, 0x3FE2CF2304755A5E, 0x3FE16DAED770771D,
   0x3FE0000000000000, 0x3FDD0E2E2B44DE01, 0x3FDA07F921061AD1, 0x3FD6EF801FCED33C, 0x3FD3C6EF372FE950,
   0x3FD0907DC1930690, 0x3FCA9CD9AC4258F6, 0x3FC4060B67A85375, 0x3FBAC2609B3C576C, 0x3FAACBC748EFC90E,
   0x0000000000000000],
  [0x3FF0000000000000, 0x3FEFF57C5208CCF9, 0x3FEFD5F830F860F9, 0x3FEFA18852C3E08A, 0x3FEF584F2CE43B84,
   0x3FEEFA7CDDB128FA, 0x3FEE884F0CC22CCC, 0x3FEE0210C26A6E6F, 0x3FED681A366A00FA, 0x3FECBAD095F50378,
   0x3FEBFAA5C136B224, 0x3FEB2818007C19DF, 0x3FEA43B1B1379AFF, 0x3FE94E08EB13C451, 0x3FE847BF1D5146CC,
   0x3FE73180A4B0D300, 0x3FE60C045A2E9729, 0x3FE4D80B1AD9CCF6, 0x3FE3965F49174D13, 0x3FE247D447A27216,
   0x3FE0ED45EEA3B09F, 0x3FDF0F2FF6705BEC, 0x3FDC2F6AF3928A8E, 0x3FD93D20572CA90B, 0x3FD63A3FCFACA412,
   0x3FD328C3F1B322CB, 0x3FD00AB0EB2D7D94, 0x3FC9C4266041CA8F, 0x3FC361FC440B478F, 0x3FB9E62ACA53C49F,
   0x3FA9EEB01776B57D, 0x0000000000000000],
  [0x3FF0000000000000, 0x3FEFF621E3796D7E, 0x3FEFD88DA3D12526, 0x3FEFA7557F08A517, 0x3FEF6297CFF75CB0,
   0x3FEF0A7EFB9230D7, 0x3FEE9F4156C62DDA, 0x3FEE212104F686E5, 0x3FED906BCF328D46, 0x3FECED7AF43CC773,
   0x3FEC38B2F180BDB1, 0x3FEB728345196E3E, 0x3FEA9B66290EA1A3, 0x3FE9B3E047F38741, 0x3FE8BC806B151741,
   0x3FE7B5DF226AAFAF, 0x3FE6A09E667F3BCD, 0x3FE57D69348CECA0, 0x3FE44CF325091DD6, 0x3FE30FF7FCE17035,
   0x3FE1C73B39AE68C8, 0x3FE073879922FFEE, 0x3FDE2B5D3806F63B, 0x3FDB5D1009E15CC0, 0x3FD87DE2A6AEA963,
   0x3FD58F9A75AB1FDD, 0x3FD294062ED59F06, 0x3FCF19F97B215F1B, 0x3FC8F8B83C69A60B, 0x3FC2C8106E8E613A,
   0x3FB917A6BC29B42C, 0x3FA91F65F10DD814, 0x0000000000000000]]

/-- B_N, N = 33 to 40, binary64 (R88). -/
def cosBasis64Part4 : List (List Nat) := [
  [0x3FF0000000000000, 0x3FEFF6B8A35AAC83, 0x3FEFDAE7EEF1345E, 0x3FEFAC9E043842EF, 0x3FEF6BF5BB37E925,
   0x3FEF191492FA5EDF, 0x3FEEB42A9BCD5057, 0x3FEE3D725B6253C5, 0x3FEDB530AADEB15C, 0x3FED1BB48EEE2C13,
   0x3FEC715709EFF2C2, 0x3FEBB67AE8584CAA, 0x3FEAEB8C8764F0BA, 0x3FEA110196454196, 0x3FE92758D1DAE026,
   0x3FE82F19BB3A28A1, 0x3FE728D4491539B5, 0x3FE61520943F1800, 0x3FE4F49E7F775887, 0x3FE3C7F55AB178F2,
   0x3FE28FD3820DAB03, 0x3FE14CEDF8BB580B, 0x3FE0000000000000, 0x3FDD5395553EA8F0, 0x3FDA9628D9C712B6,
   0x3FD7C951530D93FA, 0x3FD4EEAE7781213D, 0x3FD207E7FD768DBF, 0x3FCE2D594AE05A8A, 0x3FC8396280A0AC91,
   0x3FC2375F640F44DB, 0x3FB85597C54753EC, 0x3FA85CA828B02084, 0x0000000000000000],
  [0x3FF0000000000000, 0x3FEFF74249358283, 0x3FEFDD0DEB564B22, 0x3FEFB17137473DA5, 0x3FEF7484007FAEF3,
   0x3FEF26679005274A, 0x3FEEC746923C349F, 0x3FEE5754FF983C74, 0x3FEDD6D000370991, 0x3FED45FDCA779894,
   0x3FECA52D7C9E640B, 0x3FEBF4B6F19C24CF, 0x3FEB34FA910EA3B9, 0x3FEA66611A95D565, 0x3FE9895B6C9A05F6,
   0x3FE89E6246A2584B, 0x3FE7A5F6075D4884, 0x3FE6A09E667F3BCD, 0x3FE58EEA2A9D6DA3, 0x3FE4716EDB2DBC59,
   0x3FE348C86ED5F1BB, 0x3FE21598F63728D6, 0x3FE0D8884363DD80, 0x3FDF24871C6208B2, 0x3FDC86FA2B2883CD,
   0x3FD9D9D77C85E75A, 0x3FD71E955D8E7CDC, 0x3FD456B1D2836F84, 0x3FD183B1C61F0D01, 0x3FCD4E406A37F0F0,
   0x3FC7851AACD6C6B4, 0x3FC1AF1B81205F15, 0x3FB79EE63259B75E, 0x3FA7A55BB8FFCE31, 0x0000000000000000],
  [0x3FF0000000000000, 0x3FEFF7C04EB738EC, 0x3FEFDF057B8BB83F, 0x3FEFB5DC4658B671, 0x3FEF7C59E7932194,
   0x3FEF329C0558E969, 0x3FEED8C8A427E9D4, 0x3FEE6F0E134454FF, 0x3FEDF5A2D4D8B802, 0x3FED6CC581DBE91F,
   0x3FECD4BCA9CB5C71, 0x3FEC2DD6AE4A8262, 0x3FEB78699AB9F100, 0x3FEAB4D2F7DB2D82, 0x3FE9E3779B97F4A8,
   0x3FE904C37505DE4B, 0x3FE8192954C1293F, 0x3FE72122B1BB5F9A, 0x3FE61D2F6A9C57BF, 0x3FE50DD583D5DAE9,
   0x3FE3F3A0E28BEDD1, 0x3FE2CF2304755A5E, 0x3FE1A0F2B4D9A928, 0x3FE069ABBED33677, 0x3FDE53DD39FAEE41,
   0x3FDBC4C04D71ABC1, 0x3FD92752765DA13F, 0x3FD67CECD4844BB2, 0x3FD3C6EF372FE950, 0x3FD106BF67CF5A11,
   0x3FCC7B90E3024582, 0x3FC6DAF3CBD156A7, 0x3FC12E8E3F5C6DF0, 0x3FB6F29A0C2D213E, 0x3FA6F885E6312D71,
   0x0000000000000000],
  [0x3FF0000000000000, 0x3FEFF833F9DA45F7, 0x3FEFE0D3B41815A2, 0x3FEFB9EA92EC689B, 0x3FEF838B8C811C17,
   0x3FEF3DD11FB974B6, 0x3FEEE8DD4748BF15, 0x3FEE84D9692357E1, 0x3FEE11F642522D1C, 0x3FED906BCF328D46,
   0x3FED0079302DD767, 0x3FEC62648AF65771, 0x3FEBB67AE8584CAA, 0x3FEAFD100EAFC290, 0x3FEA367E59158747,
   0x3FE963268B572492, 0x3FE8836FA2CF5039, 0x3FE797C6A435CE85, 0x3FE6A09E667F3BCD, 0x3FE59E6F5AE6A0A7,
   0x3FE491B7523C161D, 0x3FE37AF93F9513EA, 0x3FE25ABCF87C4978, 0x3FE1318EF2C01A5B, 0x3FE0000000000000,
   0x3FDD8D4A0E345738, 0x3FDB0C2D77379853, 0x3FD87DE2A6AEA963, 0x3FD5E3A8748A0BF5, 0x3FD33EC389A5A81E,
   0x3FD0907DC1930690, 0x3FCBB44B13B62571, 0x3FC63A1A7E0B738A, 0x3FC0B5150F6DA2D1, 0x3FB64FD6B8C28103,
   0x3FA65547C4694E11, 0x0000000000000000],
  [0x3FF0000000000000, 0x3FEFF89E652A20E7, 0x3FEFE27CFC6369F9, 0x3FEFBDA5FB4A66BD, 0x3FEF8A2A60AB8AA8,
   0x3FEF4821ECAA0A77, 0x3FEEF7AB15CAEA23, 0x3FEE98EAFAE74D55, 0x3FEE2C0D520C8630, 0x3FEDB1445451C8C7,
   0x3FED28C8A6ACD0D7, 0x3FEC92D93FD02A0A, 0x3FEBEFBB4B1F28EE, 0x3FEB3FBA08C4FB19, 0x3FEA8326AAFD8707,
   0x3FE9BA5830A01F9B, 0x3FE8E5AB3CFD530E, 0x3FE80581ED225921, 0x3FE71A43AA95D7BE, 0x3FE6245CFBA2DF8F,
   0x3FE5243F514822C9, 0x3FE41A60D2E27EE9, 0x3FE3073C27AAFE0F, 0x3FE1EB503E217548, 0x3FE0C720117DDA63,
   0x3FDF3664DA86A9DE, 0x3FDCD0235E21D52D, 0x3FDA5C970D98EDFE, 0x3FD7DCE16A8AC366, 0x3FD5522992DA7358,
   0x3FD2BD9BB88A0A31, 0x3FD02068973D5997, 0x3FCAF789CF49D489, 0x3FC5A1D1A223C71D, 0x3FC0421EB2E93980,
   0x3FB5B5D750211D9A, 0x3FA5BADA7775F020, 0x0000000000000000],
  [0x3FF0000000000000, 0x3FEFF9008686BD09, 0x3FEFE40529A542AA, 0x3FEFC11716A3C9AD, 0x3FEF90459484F2B2,
   0x3FEF51A5FD57357A, 0x3FEF0553B4DE2E18, 0x3FEEAB701C97DDAB, 0x3FEE442285231BE1, 0x3FEDCF981D0D9C0E,
   0x3FED4E03DD110B08, 0x3FECBF9E71C7EA84, 0x3FEC24A622E3E9F9, 0x3FEB7D5EB7F0948C, 0x3FEACA115AAE3DE4,
   0x3FEA0B0C7712252C, 0x3FE940A398F9CD23, 0x3FE86B2F47A089A5, 0x3FE78B0CDEE73E0F, 0x3FE6A09E667F3BCD,
   0x3FE5AC4A670A1CFF, 0x3FE4AE7BBD415BE2, 0x3FE3A7A16B394423, 0x3FE2982E67D3AF57, 0x3FE180996C77C8CA,
   0x3FE0615CC124D68E, 0x3FDE75EC0DED7BEE, 0x3FDC1BCC02674F48, 0x3FD9B560B9F596EA, 0x3FD743B6EF5A0BF5,
   0x3FD4C7E04850CFAA, 0x3FD242F2DDE0E5DC, 0x3FCF6C118574C83E, 0x3FCA447F0FAF10BB, 0x3FC5116F7F2D58C5,
   0x3FBFAA51FE0EDB61, 0x3FB523EB8420F5F5, 0x3FA5288C09D03A51, 0x0000000000000000],
  [0x3FF0000000000000, 0x3FEFF95B34B56FC8, 0x3FEFE56F950F889E, 0x3FEFC44566966769, 0x3FEF95EA6EB137AD,
   0x3FEF5A71ECEE5678, 0x3FEF11F493053D00, 0x3FEEBC907A95847A, 0x3FEE5A6918A74529, 0x3FEDEBA72EF20147,
   0x3FED7078BAF038BA, 0x3FECE910E2C6ACAD, 0x3FEC55A7E00740E9, 0x3FEBB67AE8584CAA, 0x3FEB0BCC140A0C9F,
   0x3FEA55E242A4C3D2, 0x3FE99508FD7AF0DF, 0x3FE8C990584BCFB5, 0x3FE7F3CCD0032E0C, 0x3FE7141727A4610A,
   0x3FE62ACC436EED57, 0x3FE5384D024C2F84, 0x3FE43CFE159608DD, 0x3FE33947D747447C, 0x3FE22D961EA71119,
   0x3FE11A5813818D8B, 0x3FE0000000000000, 0x3FDDBE064267C47C, 0x3FDB6FB2ECD0EF09, 0x3FD915FB1E9E45DB,
   0x3FD6B1D8B2365DA1, 0x3FD44449D5444DE8, 0x3FD1CE509F2C9F52, 0x3FCEA1E54BC48DBF, 0x3FC99A7122905C75,
   0x3FC4885B5A98C648, 0x3FBEDB7DEBAA3ED8, 0x3FB49975010F46D1, 0x3FA49DBCBFD34498, 0x0000000000000000],
  [0x3FF0000000000000, 0x3FEFF9AF2BFBC297, 0x3FEFE6BF2E2660AF, 0x3FEFC7378029F05F, 0x3FEF9B24942FE45C,
   0x3FEF6297CFF75CB0, 0x3FEF1DA785F71BCE, 0x3FEECC6EEC8DD5E9, 0x3FEE6F0E134454FF, 0x3FEE05A9D625AF0F,
   0x3FED906BCF328D46, 0x3FED0F8245F5427F, 0x3FEC83201D3D2C6D, 0x3FEBEB7CBF08957D, 0x3FEB48D406A50540,
   0x3FEA9B66290EA1A3, 0x3FE9E3779B97F4A8, 0x3FE92150F8E417B1, 0x3FE8553EE43DEF13, 0x3FE77F91EB57C602,
   0x3FE6A09E667F3BCD, 0x3FE5B8BC57520F97, 0x3FE4C8474600EEEE, 0x3FE3CF9E1D2DFDB2, 0x3FE2CF2304755A5E,
   0x3FE1C73B39AE68C8, 0x3FE0B84EE8F52E9D, 0x3FDF459207170FCE, 0x3FDD0E2E2B44DE01, 0x3FDACB523638033B,
   0x3FD87DE2A6AEA963, 0x3FD626C8282F1408, 0x3FD3C6EF372FE950, 0x3FD15F47C3BED971, 0x3FCDE189A594FBCC,
   0x3FC8F8B83C69A60B, 0x3FC4060B67A85375, 0x3FBE16EE4E236BF8, 0x3FB415E532398E49, 0x3FA419DCD176E0F7,
   0x0000000000000000]]

/-- B_N, N = 41 to 48, binary64 (R88). -/
def cosBasis64Part5 : List (List Nat) := [
  [0x3FF0000000000000, 0x3FEFF9FD11F395DD, 0x3FEFE7F68A016A1D, 0x3FEFC9F32DE977B1, 0x3FEF9FFE446D3C5B,
   0x3FEF6A2791131F7F, 0x3FEF28834E3A3CC6, 0x3FEEDB2A2580CC30, 0x3FEE8239268002A1, 0x3FEE1DD1BBE0E618,
   0x3FEDAE199ECE2FCE, 0x3FED333AC8C7F3C9, 0x3FECAD6363DE6126, 0x3FEC1CC5B95987F0, 0x3FEB81981ED4A8C6,
   0x3FEADC14E1D4278F, 0x3FEA2C7A31DDCCB3, 0x3FE9730A091B8FCE, 0x3FE8B00A1391B30F, 0x3FE7E3C394F17F8D,
   0x3FE70E834D127849, 0x3FE630995B1C5B86, 0x3FE54A591F6CC7ED, 0x3FE45C191C43D4EA, 0x3FE36632D543634A,
   0x3FE26902ADCD5C41, 0x3FE164E7C64D81C2, 0x3FE05A43D87BDAB2, 0x3FDE92F6254A5181, 0x3FDC65E7E40E66A2,
   0x3FDA2E2E389E17AC, 0x3FD7EC9E708F8681, 0x3FD5A2118B90AC7D, 0x3FD34F63E9DFBCBC, 0x3FD0F574F97EB1FF,
   0x3FCD2A4DC48247F3, 0x3FC85EBC61A7DC7F, 0x3FC38A0301BD2B01, 0x3FBD5BE4997AB904, 0x3FB398BB59774ABB,
   0x3FA39C6A79179A51, 0x0000000000000000],
  [0x3FF0000000000000, 0x3FEFFA4578BDF313, 0x3FEFE917F00AE2CD, 0x3FEFCC7D8C64135F, 0x3FEFA4808B7D3C19,
   0x3FEF712F3E95DB67, 0x3FEF329C0558E969, 0x3FEEE8DD4748BF15, 0x3FEE940D6BB98CC5, 0x3FEE344AD05D3F86,
   0x3FEDC9B7BE64378E, 0x3FED547A5E36B47C, 0x3FECD4BCA9CB5C71, 0x3FEC4AAC5D9FC250, 0x3FEBB67AE8584CAA,
   0x3FEB185D590D5A44, 0x3FEA708C4C4BFA74, 0x3FE9BF43D7D10690, 0x3FE904C37505DE4B, 0x3FE8414DEA467AC6,
   0x3FE7752932F8FB65, 0x3FE6A09E667F3BCD, 0x3FE5C3F99E0B6B95, 0x3FE4DF89D9610668, 0x3FE3F3A0E28BEDD1,
   0x3FE300933097C559, 0x3FE206B7C9520CED, 0x3FE106682221CD8A, 0x3FE0000000000000, 0x3FDDE7BAAD384B13,
   0x3FDBC4C04D71ABC1, 0x3FD997D4B7989C0B, 0x3FD761BF51E29C90, 0x3FD5234ACA69A9FE, 0x3FD2DD44CE9AFBA7,
   0x3FD0907DC1930690, 0x3FCC7B90E3024582, 0x3FC7CBF3985B1301, 0x3FC313D12579650C, 0x3FBCA9B4332D6F61,
   0x3FB32182EBFB0FE9, 0x3FA324F0492680BC, 0x0000000000000000],
  [0x3FF0000000000000, 0x3FEFFA88E1B232D5, 0x3FEFEA2564B28EF2, 0x3FEFCEDB221B2024, 0x3FEFA8B36C4CB4F4,
   0x3FEF77BB4BBFBA0E, 0x3FEF3C037A908CF7, 0x3FEEF5A05EC8CB44, 0x3FEEA4AA03679219, 0x3FEE493C102B0F14,
   0x3FEDE375C01E30F0, 0x3FED7379D6EDB1C9, 0x3FECF96E95081FFF, 0x3FEC757DAA8CF3F9, 0x3FEBE7D4290F2973,
   0x3FEB50A274303980, 0x3FEAB01C3118B76A, 0x3FEA067834D435D7, 0x3FE953F071967ACA, 0x3FE898C1E2F06855,
   0x3FE7D52C78FB5CCE, 0x3FE7097302822807, 0x3FE635DB162F0B67, 0x3FE55AACFAC69050, 0x3FE478338E77537C,
   0x3FE38EBC2D473428, 0x3FE29E9696A6A34B, 0x3FE1A814D2331991, 0x3FE0AB8B13B2022C, 0x3FDF529F3C9B592B,
   0x3FDD43754E3C30D8, 0x3FDB2A4C6E0F57FF, 0x3FD907DC17F44092, 0x3FD6DCDEF3344731, 0x3FD4AA1292C0CE80,
   0x3FD270373471F7CE, 0x3FD0300F7F5C1772, 0x3FCBD4C082A4A64C, 0x3FC73FE0575A40E2, 0x3FC2A30F1ED73368,
   0x3FBBFFC0631B627F, 0x3FB2AFD2293AD5F4, 0x3FA2B303BD3B9920, 0x0000000000000000],
  [0x3FF0000000000000, 0x3FEFFAC7BFA11E23, 0x3FEFEB20B2727776, 0x3FEFD10FF3AFD1B7, 0x3FEFAC9E043842EF,
   0x3FEF7DD6C7C8067D, 0x3FEF44C981178554, 0x3FEF0188CCE0D574, 0x3FEEB42A9BCD5057, 0x3FEE5CC82B4D3B6C,
   0x3FEDFB7DFD5BD86F, 0x3FED906BCF328D46, 0x3FED1BB48EEE2C13, 0x3FEC9D7E5029BC4A, 0x3FEC15F23F927C6C,
   0x3FEB853C957929E1, 0x3FEAEB8C8764F0BA, 0x3FEA491438ACB82C, 0x3FE99E08AA1BD200, 0x3FE8EAA1A8A76307,
   0x3FE82F19BB3A28A1, 0x3FE76BAE0F9C8BBC, 0x3FE6A09E667F3BCD, 0x3FE5CE2CFEAED4B6, 0x3FE4F49E7F775887,
   0x3FE41439E23E89F8, 0x3FE32D485B5C7635, 0x3FE240154239BB9E, 0x3FE14CEDF8BB580B, 0x3FE05421D204034C,
   0x3FDEAC03F126A45F, 0x3FDCA5C2A79626B5, 0x3FDA9628D9C712B6, 0x3FD87DE2A6AEA963, 0x3FD65D9F01A01A2D,
   0x3FD4360F7939657A, 0x3FD207E7FD768DBF, 0x3FCFA7BD49FBF9D2, 0x3FCB3556E37288FB, 0x3FC6BA10299B3346,
   0x3FC2375F640F44DB, 0x3FBB5D7A8B395EDD, 0x3FB24348E2C39925, 0x3FA24643FD1CD7F7, 0x0000000000000000],
  [0x3FF0000000000000, 0x3FEFFB0278BF0567, 0x3FEFEC0B7170FFF6, 0x3FEFD31F94F867C6, 0x3FEFB046A930947A,
   0x3FEF838B8C811C17, 0x3FEF4CFC327A0080, 0x3FEF0CA99F79BA25, 0x3FEEC2A7E35E7B80, 0x3FEE6F0E134454FF,
   0x3FEE11F642522D1C, 0x3FEDAB7D7997CB58, 0x3FED3BC3AEFF7F95, 0x3FECC2EBBB5638CA, 0x3FEC411B4F6D2708,
   0x3FEBB67AE8584CAA, 0x3FEB2335C2CDA945, 0x3FEA8779CDA8EEA5, 0x3FE9E3779B97F4A8, 0x3FE9376253F463D1,
   0x3FE8836FA2CF5039, 0x3FE7C7D7A833BEC2, 0x3FE704D4E6A54D39, 0x3FE63AA430E07310, 0x3FE5698496E20BD8,
   0x3FE491B7523C161D, 0x3FE3B37FB1BDC939, 0x3FE2CF2304755A5E, 0x3FE1E4E88411FD12, 0x3FE0F5193EACDD2A,
   0x3FE0000000000000, 0x3FDE0BD274245078, 0x3FDC0E45DABE05C8, 0x3FDA07F921061AD1, 0x3FD7F98DEEE59681,
   0x3FD5E3A8748A0BF5, 0x3FD3C6EF372FE950, 0x3FD1A40ADD328E29, 0x3FCEF74BF2E4B91D, 0x3FCA9CD9AC4258F6,
   0x3FC63A1A7E0B738A, 0x3FC1D06C968D9E19, 0x3FBAC2609B3C576C, 0x3FB1DB8F6D6A5128, 0x3FA1DE58C9F7DC27,
   0x0000000000000000],
  [0x3FF0000000000000, 0x3FEFFB3968441C00, 0x3FEFECE70DFD3EFB, 0x3FEFD50D3784E939, 0x3FEFB3B3035AA6CD,
   0x3FEF88E2660412C9, 0x3FEF54A827142577, 0x3FEF1713DD5AB0AD, 0x3FEED037EA3D2DBB, 0x3FEE8029743A4072,
   0x3FEE270060999288, 0x3FEDC4D74C49E9BD, 0x3FED59CB83EF99BC, 0x3FECE5FCFB25B0B8, 0x3FEC698E42F47B09,
   0x3FEBE4A47F803684, 0x3FEB57675CF309EE, 0x3FEAC20103A58FB3, 0x3FEA249E0B897CA9, 0x3FE97F6D6EDA246D,
   0x3FE8D2A07C16D46F, 0x3FE81E6AC74B3521, 0x3FE763021AAA15DA, 0x3FE6A09E667F3BCD, 0x3FE5D779B07CFEF7,
   0x3FE507D0026AB0C8, 0x3FE431DF5838F7EF, 0x3FE355E78D817A9E, 0x3FE2742A4A775CFB, 0x3FE18CEAF04E4436,
   0x3FE0A06E851DB7CA, 0x3FDF5DF73E8DC33D, 0x3FDD71B4A0C5A6C8, 0x3FDB7CA81F7F362A, 0x3FD97F6748E524B2,
   0x3FD77A8A1E0CE8BF, 0x3FD56EAAE597C776, 0x3FD35C65FDA64B57, 0x3FD14459AD2BE466, 0x3FCE4E4BE9614088,
   0x3FCA0AD8BD1E2882, 0x3FC5BF9F9D797545, 0x3FC16DE8A4564F0A, 0x3FBA2DFBB7426225, 0x3FB17855B599F3B9,
   0x3FA17AF18F654E82, 0x0000000000000000],
  [0x3FF0000000000000, 0x3FEFFB6CDFCF8161, 0x3FEFEDB4CE16FD7F, 0x3FEFD6DBB7019F02, 0x3FEFB6E822EDA6C6,
   0x3FEF8DE3348E423E, 0x3FEF5BD8A64EDD81, 0x3FEF20D6C6F8B016, 0x3FEEDCEE759B7A08, 0x3FEE90331CBA9CA2,
   0x3FEE3ABAACBFEFF0, 0x3FEDDC9D95B5EB5A, 0x3FED75F6C04AEC7C, 0x3FED06E3861F9BA7, 0x3FEC8F83A962A13C,
   0x3FEC0FF94BBC120A, 0x3FEB8868E48B2B6C, 0x3FEAF8F93679295C, 0x3FEA61D3446431BC, 0x3FE9C32245A57FEC,
   0x3FE91D1399B62B08, 0x3FE86FD6BB360F33, 0x3FE7BB9D32588F7B, 0x3FE7009A86BB1204, 0x3FE63F0430A9430B,
   0x3FE5771189D35533, 0x3FE4A8FBBD7A9E19, 0x3FE3D4FDB8191592, 0x3FE2FB5416886404, 0x3FE21C3D14AD50F7,
   0x3FE137F87BAC866A, 0x3FE04EC78FADBF55, 0x3FDEC1D9FA653080, 0x3FDCDD598C0CAF9D, 0x3FDAF0985B984547,
   0x3FD8FC234C6253A5, 0x3FD700897590FAEB, 0x3FD4FE5BF92C8B3D, 0x3FD2F62DDAA075FA, 0x3FD0E893D4B29BA8,
   0x3FCDAC485DF9F6A6, 0x3FC97EED25EBD7AB, 0x3FC54A47C126507C, 0x3FC10F8C05282A53, 0x3FB99FDF09FEFA16,
   0x3FB11952718C8B77, 0x3FA11BC492E39C9C, 0x0000000000000000],
  [0x3FF0000000000000, 0x3FEFFB9D2897136E, 0x3FEFEE75D62A9C46, 0x3FEFD88DA3D12526, 0x3FEFB9EA92EC689B,
   0x3FEF92950983DF6B, 0x3FEF6297CFF75CB0, 0x3FEF2A000E0A5970, 0x3FEEE8DD4748BF15, 0x3FEE9F4156C62DDA,
   0x3FEE4D406A38E9AB, 0x3FEDF2F0FC71C4E5, 0x3FED906BCF328D46, 0x3FED25CBE464AB60, 0x3FECB32E76B1D0F4,
   0x3FEC38B2F180BDB1, 0x3FEBB67AE8584CAA, 0x3FEB2CAA0DAB2702, 0x3FEA9B66290EA1A3, 0x3FEA02D70CDF74DB,
   0x3FE963268B572492, 0x3FE8BC806B151741, 0x3FE80F125B1E8028, 0x3FE75B0BE65866FB, 0x3FE6A09E667F3BCD,
   0x3FE5DFFCF69F89ED, 0x3FE5195C65137F0C, 0x3FE44CF325091DD6, 0x3FE37AF93F9513EA, 0x3FE2A3A844564AA5,
   0x3FE1C73B39AE68C8, 0x3FE0E5EE8C939850, 0x3FE0000000000000, 0x3FDE2B5D3806F63B, 0x3FDC4E7538F866FC,
   0x3FDA69CABEF5B501, 0x3FD87DE2A6AEA963, 0x3FD68B43C8F5832A, 0x3FD49276D5C7BB48, 0x3FD294062ED59F06,
   0x3FD0907DC1930690, 0x3FCD10D5C1B71B7F, 0x3FC8F8B83C69A60B, 0x3FC4D9C24572B693, 0x3FC0B5150F6DA2D1,
   0x3FB917A6BC29B42C, 0x3FB0BE426D197A8B, 0x3FA0C08E3D596AEE, 0x0000000000000000]]

/-- B_N, N = 49 to 56, binary64 (R88). -/
def cosBasis64Part6 : List (List Nat) := [
  [0x3FF0000000000000, 0x3FEFFBCA846C4FCA, 0x3FEFEF2B2D21CF6C, 0x3FEFDA254C27A020, 0x3FEFBCBE693BD8ED,
   0x3FEF96FE405F1AC7, 0x3FEF68EEBFCBB5E8, 0x3FEF329C0558E969, 0x3FEEF4145B4AED00, 0x3FEEAD6834909B94,
   0x3FEE5EAA286FBBC6, 0x3FEE07EEEDA109CD, 0x3FEDA94D54DD4C08, 0x3FED42DE42DCE136, 0x3FECD4BCA9CB5C71,
   0x3FEC5F058230E7FF, 0x3FEBE1D7C3534C3F, 0x3FEB5D545B109BFB, 0x3FEAD19E2535AA96, 0x3FEA3ED9E252938C,
   0x3FE9A52E2E0FBCB2, 0x3FE904C37505DE4B, 0x3FE85DC3EA1BBCE8, 0x3FE7B05B7B6C6130, 0x3FE6FCB7C6B8B918,
   0x3FE643080D67ACC3, 0x3FE5837D2817CF2E, 0x3FE4BE4979C5EFB5, 0x3FE3F3A0E28BEDD1, 0x3FE323B8B1FB4BA4,
   0x3FE24EC799171640, 0x3FE175059BF0D427, 0x3FE096AC02EC42C6, 0x3FDF67EA975B86A3, 0x3FDD9A3A336EDB70,
   0x3FDBC4C04D71ABC1, 0x3FD9E7F8652B4752, 0x3FD8045FE64E62DE, 0x3FD61A76077AEE00, 0x3FD42ABBA8C72FBD,
   0x3FD235B331D8F741, 0x3FD03BE06F97CBEF, 0x3FCC7B90E3024582, 0x3FC877E2CD4F6FDA, 0x3FC46DC4F4CE83C8,
   0x3FC05E4761AB8D90, 0x3FB894F70BEFBB71, 0x3FB066E7EB76F5C7, 0x3FA069107AE932D9, 0x0000000000000000],
  [0x3FF0000000000000, 0x3FEFFBF52E9D1086, 0x3FEFEFD5BFE443FE, 0x3FEFDBA4C3E3935C, 0x3FEFBF675480D903,
   0x3FEF9B24942FE45C, 0x3FEF6EE5AC2509FF, 0x3FEF3AB5CA04A4F8, 0x3FEEFEA21D101EE0, 0x3FEEBAB9D2D13572,
   0x3FEE6F0E134454FF, 0x3FEE1BB1FC82FFD7, 0x3FEDC0BA9DEF5AE5, 0x3FED5E3EF2E217ED, 0x3FECF457DCDC158C,
   0x3FEC83201D3D2C6D, 0x3FEC0AB44E81C059, 0x3FEB8B32DD08CA3C, 0x3FEB04BBFF642E86, 0x3FEA7771AE355109,
   0x3FE9E3779B97F4A8, 0x3FE948F32A1D91F2, 0x3FE8A80B635B6BEA, 0x3FE800E8EE0DC5DC, 0x3FE753B603D2B816,
   0x3FE6A09E667F3BCD, 0x3FE5E7CF55112014, 0x3FE529778040B2EC, 0x3FE465C6FEB501BC, 0x3FE39CEF40DDAC0B,
   0x3FE2CF2304755A5E, 0x3FE1FC9647B000EA, 0x3FE1257E3C182B51, 0x3FE04A11391EA2E4, 0x3FDED50D5CBFA951,
   0x3FDD0E2E2B44DE01, 0x3FDB3FF7C925819C, 0x3FD96ADEFC7CE9C2, 0x3FD78F5A48A8A919, 0x3FD5ADE1D05796DC,
   0x3FD3C6EF372FE950, 0x3FD1DAFD83140E0E, 0x3FCFD511FA1C0796, 0x3FCBEC1E23D21F6A, 0x3FC7FC1C65037A79,
   0x3FC4060B67A85375, 0x3FC00AEB5DA15BE0, 0x3FB8177B7FFC17F0, 0x3FB0130A1BE09379, 0x3FA015122DF75860,
   0x0000000000000000],
  [0x3FF0000000000000, 0x3FEFFC1D5CB5C0AB, 0x3FEFF076645E89F7, 0x3FEFDD0DEB564B22, 0x3FEFC1E8A81D75AF,
   0x3FEF9F0D3234035C, 0x3FEF7484007FAEF3, 0x3FEF4257673DC363, 0x3FEF0893958100FB, 0x3FEEC746923C349F,
   0x3FEE7E8038DA38FB, 0x3FEE2E5235643558, 0x3FEDD6D000370991, 0x3FED780ED948F1CE, 0x3FED1225C3008806,
   0x3FECA52D7C9E640B, 0x3FEC31407C3AB564, 0x3FEBB67AE8584CAA, 0x3FEB34FA910EA3B9, 0x3FEAACDEE8CC8DBD,
   0x3FEA1E48FCB5511B, 0x3FE9895B6C9A05F6, 0x3FE8EE3A62912C33, 0x3FE84D0B8A2E83AB, 0x3FE7A5F6075D4884,
   0x3FE6F9226CDF0C42, 0x3FE646BAB2717A7B, 0x3FE58EEA2A9D6DA3, 0x3FE4D1DD7831CD75, 0x3FE40FC2836CC4EE,
   0x3FE348C86ED5F1BB, 0x3FE27D1F8BCC41FF, 0x3FE1ACF94ECA4810, 0x3FE0D8884363DD80, 0x3FE0000000000000,
   0x3FDE472A32A3C656, 0x3FDC86FA2B2883CD, 0x3FDABFDCBF141247, 0x3FD8F240728F07E9, 0x3FD71E955D8E7CDC,
   0x3FD5454D109BC2FD, 0x3FD366DA7940AB80, 0x3FD183B1C61F0D01, 0x3FCF38909574A176, 0x3FCB6228C5F3C1D9,
   0x3FC7851AACD6C6B4, 0x3FC3A25676977579, 0x3FBF759B65775EBC, 0x3FB79EE63259B75E, 0x3FAF84E93D1D64E1,
   0x3F9F88BD6582355A, 0x0000000000000000],
  [0x3FF0000000000000, 0x3FEFFC433F29AF0C, 0x3FEFF10DDC21C94E, 0x3FEFDE62752542A5, 0x3FEFC44566966769,
   0x3FEFA2BCC9F817E9, 0x3FEF79D074810A9C, 0x3FEF4989F5476A34, 0x3FEF11F493053D00, 0x3FEED31D49761B13,
   0x3FEE8D12C64ED0C6, 0x3FEE3FE565CFA2D9, 0x3FEDEBA72EF20147, 0x3FED906BCF328D46, 0x3FED2E4895F86E4B,
   0x3FECC5546F9B08DD, 0x3FEC55A7E00740E9, 0x3FEBDF5CFD0587C1, 0x3FEB628F68220C30, 0x3FEADF5C483878FE,
   0x3FEA55E242A4C3D2, 0x3FE9C641741AA3A0, 0x3FE9309B69255AB1, 0x3FE89513165194CA, 0x3FE7F3CCD0032E0C,
   0x3FE74CEE41F8CACC, 0x3FE6A09E667F3BCD, 0x3FE5EF057D56BD09, 0x3FE5384D024C2F84, 0x3FE47C9FA3888038,
   0x3FE3BC2937987FA6, 0x3FE2F716B32F7E20, 0x3FE22D961EA71119, 0x3FE15FD68B3E7573, 0x3FE08E08081C11B4,
   0x3FDF70B72E275330, 0x3FDDBE064267C47C, 0x3FDC0462D63B86E2, 0x3FDA44341251DE6E, 0x3FD87DE2A6AEA963,
   0x3FD6B1D8B2365DA1, 0x3FD4E081A9E453CE, 0x3FD30A4A3FB12A93, 0x3FD12FA0492F1ECA, 0x3FCEA1E54BC48DBF,
   0x3FCADD624AB55EE4, 0x3FC71298DA2CCBC4, 0x3FC3426BBC6314FC, 0x3FBEDB7DEBAA3ED8, 0x3FB72AEF300357DB,
   0x3FAEE9EE2F9EE4BE, 0x3F9EED8AE29479F0, 0x0000000000000000],
  [0x3FF0000000000000, 0x3FEFFC6701E55D97, 0x3FEFF19CD6ABAC17, 0x3FEFDFA3EB66FC58, 0x3FEFC6804A9D93CB,
   0x3FEFA6379B5F4F1F, 0x3FEF7ED12000426A, 0x3FEF5055B476E004, 0x3FEF1ACFCC5E03F3, 0x3FEEDE4B709B56AB,
   0x3FEE9AD63CAA8E54, 0x3FEE507F5B8E2A66, 0x3FEDFF57846659B7, 0x3FEDA770F6AECF49, 0x3FED48DF76245E31,
   0x3FECE3B8465348CE, 0x3FEC781225CF430F, 0x3FEC060549163B12, 0x3FEB8DAB551F0E71, 0x3FEB0F1F59956589,
   0x3FEA8A7DCAC400A7, 0x3FE9FFE47B2ED558, 0x3FE96F7294DE6C23, 0x3FE8D948925E00B4, 0x3FE83D88376DF7C3,
   0x3FE79C54896C4F24, 0x3FE6F5D1C774BCF9, 0x3FE64A25623A4352, 0x3FE59975F39C0D60, 0x3FE4E3EB35F77AC6,
   0x3FE429ADFB394CB3, 0x3FE36AE823AFF6E7, 0x3FE2A7C494A1250D, 0x3FE1E06F2EA4924C, 0x3FE11514C3C65E66,
   0x3FE045E30D731826, 0x3FDEE611445F82AE, 0x3FDD3969D6403800, 0x3FDB863032BB37CA, 0x3FD9CCC63642C3F1,
   0x3FD80D8F218762D6, 0x3FD648EF8326AF6F, 0x3FD47F4D210F13DB, 0x3FD2B10EE19D840B, 0x3FD0DE9CB47A5DA8,
   0x3FCE10BEF675423B, 0x3FCA5D81E39589E1, 0x3FC6A4572D50E1E1, 0x3FC2E61525E0F365, 0x3FBE47268919FAE0,
   0x3FB6BB53EA6E58EC, 0x3FAE54C99ECBC7BC, 0x3F9E5832F77A68F3, 0x0000000000000000],
  [0x3FF0000000000000, 0x3FEFFC88CCCE07FF, 0x3FEFF223F3635CE3, 0x3FEFE0D3B41815A2, 0x3FEFC89BCEF44CF4,
   0x3FEFA98182E02F95, 0x3FEF838B8C811C17, 0x3FEF56C224C4133F, 0x3FEF232EFF15C9E6, 0x3FEEE8DD4748BF15,
   0x3FEEA7D99F29CADE, 0x3FEE60321BC3AC28, 0x3FEE11F642522D1C, 0x3FEDBD3704E58755, 0x3FED6206BEB6C24B,
   0x3FED0079302DD767, 0x3FEC98A37A9A7850, 0x3FEC2A9C1BA06499, 0x3FEBB67AE8584CAA, 0x3FEB3C5908264FF1,
   0x3FEABC50EF4734A7, 0x3FEA367E59158747, 0x3FE9AAFE4207DF5F, 0x3FE919EEE16996EA, 0x3FE8836FA2CF5039,
   0x3FE7E7A11F48B56F, 0x3FE746A51650EADE, 0x3FE6A09E667F3BCD, 0x3FE5F5B105F99707, 0x3FE54601FAAA7DF1,
   0x3FE491B7523C161D, 0x3FE3D8F819DA19F9, 0x3FE31BEC55BC71BC, 0x3FE25ABCF87C4978, 0x3FE19593DA358510,
   0x3FE0CC9BAF767DC5, 0x3FE0000000000000, 0x3FDE5FDA3AAF1474, 0x3FDCB920325BAFA6, 0x3FDB0C2D77379853,
   0x3FD9595EF26FB670, 0x3FD7A112D20C2B39, 0x3FD5E3A8748A0BF5, 0x3FD4218054332A9B, 0x3FD25AFBF23865BF,
   0x3FD0907DC1930690, 0x3FCD84D223638000, 0x3FC9E243F1EBDAE3, 0x3FC63A1A7E0B738A, 0x3FC28D208DEFC1AC,
   0x3FBDB843E577175E, 0x3FB64FD6B8C28103, 0x3FADC528B5343A86, 0x3F9DC8626F42950E, 0x0000000000000000],
  [0x3FF0000000000000, 0x3FEFFCA8C4311684, 0x3FEFF2A3C35662F1, 0x3FEFE1F31500B6F4, 0x3FEFCA9A354FD9E9,
   0x3FEFAC9E043842EF, 0x3FEF8804C47E871E, 0x3FEF5CD61A68B231, 0x3FEF2B1B0A25CF97, 0x3FEEF2DDF5EBF933,
   0x3FEEB42A9BCD5057, 0x3FEE6F0E134454FF, 0x3FEE2396CA781E3B, 0x3FEDD1D4833905F3, 0x3FED79D84FB6691A,
   0x3FED1BB48EEE2C13, 0x3FECB77CE8D6C1ED, 0x3FEC4D464A448360, 0x3FEBDD26E08B310B, 0x3FEB673614DC8A5B,
   0x3FEAEB8C8764F0BA, 0x3FEA6A440A271C3B, 0x3FE9E3779B97F4A8, 0x3FE9574360FBAF12, 0x3FE8C5C4A0855D2F,
   0x3FE82F19BB3A28A1, 0x3FE79362269980E9, 0x3FE6F2BE660B8EFF, 0x3FE64D5004174DBE, 0x3FE5A3398B61B1F8,
   0x3FE4F49E7F775887, 0x3FE441A355623BE0, 0x3FE38A6D6C0CFD8D, 0x3FE2CF2304755A5E, 0x3FE20FEB39AF6A72,
   0x3FE14CEDF8BB580B, 0x3FE08653F82F4196, 0x3FDF788D5F6E0905, 0x3FDDDDE09ED76EAC, 0x3FDC3CF76E09436D,
   0x3FDA9628D9C712B6, 0x3FD8E9CD29FC6497, 0x3FD7383DCF4DF08E, 0x3FD581D5506CDBD2, 0x3FD3C6EF372FE950,
   0x3FD207E7FD768DBF, 0x3FD0451CF9D9E560, 0x3FCCFDD8985F26F3, 0x3FC96B6993C53AC2, 0x3FC5D3ABD44CB6E3,
   0x3FC2375F640F44DB, 0x3FBD2E8A81813AC4, 0x3FB5E83E66C5839B, 0x3FAD3ABE9F3F0954, 0x3F9D3DCC210C1FDA,
   0x0000000000000000],
  [0x3FF0000000000000, 0x3FEFFCC70925C367, 0x3FEFF31CCABE6E4C, 0x3FEFE303371EABCB, 0x3FEFCC7D8C64135F,
   0x3FEFAF9053CDF7E6, 0x3FEF8C4160D38565, 0x3FEF6297CFF75CB0, 0x3FEF329C0558E969, 0x3FEEFC57AB03BC37,
   0x3FEEBFD5AEFD405A, 0x3FEE7D22411130F5, 0x3FEE344AD05D3F86, 0x3FEDE55E089C6A31, 0x3FED906BCF328D46,
   0x3FED35853FF8C869, 0x3FECD4BCA9CB5C71, 0x3FEC6E258AD9B3A1, 0x3FEC01D48CB95263, 0x3FEB8FDF803C7AE7,
   0x3FEB185D590D5A44, 0x3FEA9B66290EA1A3, 0x3FEA19131B8279C4, 0x3FE9917E6FF8CAE3, 0x3FE904C37505DE4B,
   0x3FE872FE82C26A36, 0x3FE7DC4CF5162385, 0x3FE740CD25CDFBB2, 0x3FE6A09E667F3BCD, 0x3FE5FBE0FA38B7C6,
   0x3FE552B60F035F34, 0x3FE4A53FB7337A9B, 0x3FE3F3A0E28BEDD1, 0x3FE33DFD5734E146, 0x3FE28479AA873CFE,
   0x3FE1C73B39AE68C8, 0x3FE106682221CD8A, 0x3FE0422739F79BAC, 0x3FDEF5401024C4F4, 0x3FDD5FF578561769,
   0x3FDBC4C04D71ABC1, 0x3FDA23F36171DD2D, 0x3FD87DE2A6AEA963, 0x3FD6D2E31EF560C0, 0x3FD5234ACA69A9FE,
   0x3FD36F7096334C28, 0x3FD1B7AC4AFC3C02, 0x3FCFF8ACF684E6ED, 0x3FCC7B90E3024582, 0x3FC8F8B83C69A60B,
   0x3FC570D80B7C3350, 0x3FC1E4A65C4D04B5, 0x3FBCA9B4332D6F61, 0x3FB58455CFC8625D, 0x3FACB544024FC940,
   0x3F9CB82865EB9D38, 0x0000000000000000]]

/-- B_N, N = 57 to 64, binary64 (R88). -/
def cosBasis64Part7 : List (List Nat) := [
  [0x3FF0000000000000, 0x3FEFFCE3B9E2DE60, 0x3FEFF38F8257BB05, 0x3FEFE40529A542AA, 0x3FEFCE47B5324B8C,
   0x3FEFB25B5EEF7B75, 0x3FEF90459484F2B2, 0x3FEF680CF64424DC, 0x3FEF39B955DE13FA, 0x3FEF0553B4DE2E18,
   0x3FEECAE642EA18F9, 0x3FEE8A7C5BC6C2FE, 0x3FEE442285231BE1, 0x3FEDF7E66C28E311, 0x3FEDA5D6E2D404E9,
   0x3FED4E03DD110B08, 0x3FECF07E6DA32F34, 0x3FEC8D58C2D2AB12, 0x3FEC24A622E3E9F9, 0x3FEBB67AE8584CAA,
   0x3FEB42EC7DF9397E, 0x3FEACA115AAE3DE4, 0x3FEA4C00FD1F1075, 0x3FE9C8D3E7224CE3, 0x3FE940A398F9CD23,
   0x3FE8B38A8C5D8CE0, 0x3FE821A42F560DF4, 0x3FE78B0CDEE73E0F, 0x3FE6EFE1E18CE6E9, 0x3FE650416189BB69,
   0x3FE5AC4A670A1CFF, 0x3FE5041CD21BBD07, 0x3FE457D9547B4676, 0x3FE3A7A16B394423, 0x3FE2F39758378017,
   0x3FE23BDE1B801FCA, 0x3FE180996C77C8CA, 0x3FE0C1EDB2EC2069, 0x3FE0000000000000, 0x3FDE75EC0DED7BEE,
   0x3FDCE5EC2BBFE478, 0x3FDB504E1C4A45C0, 0x3FD9B560B9F596EA, 0x3FD81573E76C6EA5, 0x3FD670D880135879,
   0x3FD4C7E04850CFAA, 0x3FD31ADDDDA7EDF6, 0x3FD16A24A6A8E55E, 0x3FCF6C118574C83E, 0x3FCBFDBDF37E13BC,
   0x3FC889F9573437B5, 0x3FC5116F7F2D58C5, 0x3FC194CD2768DF17, 0x3FBC297FAF75F12B, 0x3FB523EB8420F5F5,
   0x3FAC34768246D2D9, 0x3F9C37349D560F5C, 0x0000000000000000],
  [0x3FF0000000000000, 0x3FEFFCFEF20A4DEC, 0x3FEFF3FC588E859D, 0x3FEFE4F9E4A1745B, 0x3FEFCFFA67B61650,
   0x3FEFB501D3162176, 0x3FEF941537248537, 0x3FEF6D3AC26A0274, 0x3FEF4079C06C0992, 0x3FEF0DDA984E165E,
   0x3FEED566CB3DCBA1, 0x3FEE9728F2AA1A33, 0x3FEE532CBE45C954, 0x3FEE097EF1D5C000, 0x3FEDBA2D62CB789F,
   0x3FED6546F5AC1257, 0x3FED0ADB9B447CCF, 0x3FECAAFC4DAB44CE, 0x3FEC45BB0D10918C, 0x3FEBDB2ADC5CEBF8,
   0x3FEB6B5FBD9F7255, 0x3FEAF66EAE4C23D1, 0x3FEA7C6DA34AF89F, 0x3FE9FD7384D883FC, 0x3FE979982A38E65A,
   0x3FE8F0F4553DDE54, 0x3FE863A1ADA0CFA6, 0x3FE7D1BABC319F8B, 0x3FE73B5AE5DB4E10, 0x3FE6A09E667F3BCD,
   0x3FE601A24BA81342, 0x3FE55E846F1554A8, 0x3FE4B76371208A62, 0x3FE40C5EB2FD336E, 0x3FE35D9650D47852,
   0x3FE2AB2B1BBDC59A, 0x3FE1F53E93956DBF, 0x3FE13BF2E0B27AA1, 0x3FE07F6ACD7CDCE2, 0x3FDF7F937FCA5AD3,
   0x3FDDFA67657E7608, 0x3FDC6F9A5E014735, 0x3FDADF7689C97B70, 0x3FD94A4709EE3818, 0x3FD7B057F20BF2E4,
   0x3FD611F639FBC0F4, 0x3FD46F6FAF5FCB72, 0x3FD2C912E707A077, 0x3FD11F2F2E2F1E3B, 0x3FCEE428F7357BBD,
   0x3FCB8426C12812BC, 0x3FC81EF9F3921CD6, 0x3FC4B545C0234A71, 0x3FC147AE323ACE89, 0x3FBBADB02034D9FF,
   0x3FB4C6D177ECE43D, 0x3FABB81853A18977, 0x3F9BBAB2BE51B768, 0x0000000000000000],
  [0x3FF0000000000000, 0x3FEFFD18CAEBAF6A, 0x3FEFF463B2891015, 0x3FEFE5E24B4EA155, 0x3FEFD1973705ABE4,
   0x3FEFB78624500036, 0x3FEF97B3CDFCECC4, 0x3FEF7225FA2D8B67, 0x3FEF46E379488D88, 0x3FEF15F424BDB7E9,
   0x3FEEDF60DD994763, 0x3FEEA3338AE780C9, 0x3FEE617717E8B6C4, 0x3FEE1A377216191F, 0x3FEDCD8186F7A98B,
   0x3FED7B6341CBBA5D, 0x3FED23EB89006447, 0x3FECC72A3B7F684C, 0x3FEC65302DCCFB98, 0x3FEBFE0F26FA02ED,
   0x3FEB91D9DD6A4B86, 0x3FEB20A3F36F574D, 0x3FEAAA81F3B85A0C, 0x3FEA2F894D980D21, 0x3FE9AFD0512106D1,
   0x3FE92B6E2B1949E1, 0x3FE8A27AE0C5C98D, 0x3FE8150F4B8EA521, 0x3FE78345147CE5BD, 0x3FE6ED36AF928F99,
   0x3FE652FF56FDDF2B, 0x3FE5B4BB06289110, 0x3FE5128674A41A37, 0x3FE46C7F10F3BC2C, 0x3FE3C2C2FB356786,
   0x3FE31570FFAA6484, 0x3FE264A89120BFCF, 0x3FE1B089C33E7EE1, 0x3FE0F93544AFA531, 0x3FE03ECC59381871,
   0x3FDF02E1A754EEB3, 0x3FDD828A1F89F6C7, 0x3FDBFCD7D7EB04ED, 0x3FDA7211860BC461, 0x3FD8E27ECB63553D,
   0x3FD74E68284D04CE, 0x3FD5B616EEE0947B, 0x3FD419D535A4725D, 0x3FD279EDCA1C4D70, 0x3FD0D6AC233675DB,
   0x3FCE60B8A734FF72, 0x3FCB0E95F7B748EF, 0x3FC7B78A7922C7D6, 0x3FC45C3150B1D5EA, 0x3FC0FD266B839397,
   0x3FBB360CC4A21EA0, 0x3FB46CDCBA069400, 0x3FAB3FEFD8BD0166, 0x3F9B4268F3E92CAF, 0x0000000000000000],
  [0x3FF0000000000000, 0x3FEFFD315BBF4275, 0x3FEFF4C5ED12E61D, 0x3FEFE6BF2E2660AF, 0x3FEFD31F94F867C6,
   0x3FEFB9EA92EC689B, 0x3FEF9B24942FE45C, 0x3FEF76D2FEF3CC4B, 0x3FEF4CFC327A0080, 0x3FEF1DA785F71BCE,
   0x3FEEE8DD4748BF15, 0x3FEEAEA6B98095C0, 0x3FEE6F0E134454FF, 0x3FEE2A1E7D02FE9F, 0x3FEDDFE40EFFB805,
   0x3FED906BCF328D46, 0x3FED3BC3AEFF7F95, 0x3FECE1FA88C445BB, 0x3FEC83201D3D2C6D, 0x3FEC1F4510C18B95,
   0x3FEBB67AE8584CAA, 0x3FEB48D406A50540, 0x3FEAD663A8AE2FDC, 0x3FEA5F3DE27D13F2, 0x3FE9E3779B97F4A8,
   0x3FE963268B572492, 0x3FE8DE613515A328, 0x3FE8553EE43DEF13, 0x3FE7C7D7A833BEC2, 0x3FE73644501B56CD,
   0x3FE6A09E667F3BCD, 0x3FE607002CD5031D, 0x3FE5698496E20BD8, 0x3FE4C8474600EEEE, 0x3FE4236484487ABE,
   0x3FE37AF93F9513EA, 0x3FE2CF2304755A5E, 0x3FE21FFFF8FAF674, 0x3FE16DAED770771D, 0x3FE0B84EE8F52E9D,
   0x3FE0000000000000, 0x3FDE89C4E59427B1, 0x3FDD0E2E2B44DE01, 0x3FDB8D7E6A56D476, 0x3FDA07F921061AD1,
   0x3FD87DE2A6AEA963, 0x3FD6EF801FCED33C, 0x3FD55D1771E5BAB9, 0x3FD3C6EF372FE950, 0x3FD22D4EB2443163,
   0x3FD0907DC1930690, 0x3FCDE189A594FBCC, 0x3FCA9CD9AC4258F6, 0x3FC7537E63143E2E, 0x3FC4060B67A85375,
   0x3FC0B5150F6DA2D1, 0x3FBAC2609B3C576C, 0x3FB415E532398E49, 0x3FAACBC748EFC90E, 0x3F9ACE214390CA91,
   0x0000000000000000],
  [0x3FF0000000000000, 0x3FEFFD48B9DA200E, 0x3FEFF5235D6D5F88, 0x3FEFE7914CB453DD, 0x3FEFD494D563329C,
   0x3FEFBC313083B815, 0x3FEF9E6A81E91BA1, 0x3FEF7B45D77C2953, 0x3FEF52C9285F9FA2, 0x3FEF24FB53ECF64C,
   0x3FEEF1E42089BA72, 0x3FEEB98C3A55B2AD, 0x3FEE7BFD31B20460, 0x3FEE394179A19A50, 0x3FEDF16466031302,
   0x3FEDA47229A48400, 0x3FED5277D4316582, 0x3FECFB834FFB0085, 0x3FEC9FA35F9BBF9C, 0x3FEC3EE79B75C929,
   0x3FEBD9606F0D4FD3, 0x3FEB6F1F163F0C4B, 0x3FEB00359A53597D, 0x3FEA8CB6CEEE7241, 0x3FEA14B64EDE55A5,
   0x3FE9984878C6DCA6, 0x3FE917826BAC91F5, 0x3FE8927A035EE204, 0x3FE80945D4C23F35, 0x3FE77BFD29FADB50,
   0x3FE6EAB7FE789CE6, 0x3FE6558EFAE4FC61, 0x3FE5BC9B70F379A4, 0x3FE51FF757156024, 0x3FE47FBD4411943E,
   0x3FE3DC086A812944, 0x3FE334F494318463, 0x3FE28A9E1D6CD509, 0x3FE1DD21F029AFB6, 0x3FE12C9D7F229C6F,
   0x3FE0792EC0D66E1F, 0x3FDF85E854E47826, 0x3FDE1419554BB538, 0x3FDC9D2F48C766F3, 0x3FDB2169D319C47E,
   0x3FD9A1096B14F85E, 0x3FD81C4F4FA9DC8E, 0x3FD6937D7CD4BE71, 0x3FD506D6A06A0BEA, 0x3FD3769E0EC4D04A,
   0x3FD1E317B758ECEB, 0x3FD04C88192AFE22, 0x3FCD66686E5FC328, 0x3FCA2EC3192BAE79, 0x3FC6F2AC01F27447,
   0x3FC3B2AFB90DA29B, 0x3FC06F5B781B78FC, 0x3FBA527A140C0CF2, 0x3FB3C1C565E33BE5, 0x3FAA5B6C605AD9B9,
   0x3F9A5DA93C5A878B, 0x0000000000000000],
  [0x3FF0000000000000, 0x3FEFFD5EF8DC991D, 0x3FEFF57C5208CCF9, 0x3FEFE8595735A95D, 0x3FEFD5F830F860F9,
   0x3FEFBE5BE46F7F69, 0x3FEFA18852C3E08A, 0x3FEF7F8238857FF7, 0x3FEF584F2CE43B84, 0x3FEF2BF5A0C4A970,
   0x3FEEFA7CDDB128FA, 0x3FEEC3ED04A759D2, 0x3FEE884F0CC22CCC, 0x3FEE47ACC1C0C607, 0x3FEE0210C26A6E6F,
   0x3FEDB7867ECFD86B, 0x3FED681A366A00FA, 0x3FED13D8F616FC75, 0x3FECBAD095F50378, 0x3FEC5D0FB71C1A40,
   0x3FEBFAA5C136B224, 0x3FEB93A2DFF9AA42, 0x3FEB2818007C19DF, 0x3FEAB816CE6F5443, 0x3FEA43B1B1379AFF,
   0x3FE9CAFBC8E5F8D2, 0x3FE94E08EB13C451, 0x3FE8CCED9FA04E8E, 0x3FE847BF1D5146CC, 0x3FE7BE934656612F,
   0x3FE73180A4B0D300, 0x3FE6A09E667F3BCD, 0x3FE60C045A2E9729, 0x3FE573CAEA90D748, 0x3FE4D80B1AD9CCF6,
   0x3FE438DE828305BD, 0x3FE3965F49174D13, 0x3FE2F0A821E68171, 0x3FE247D447A27216, 0x3FE19BFF77E57E0C,
   0x3FE0ED45EEA3B09F, 0x3FE03BC461871AF1, 0x3FDF0F2FF6705BEC, 0x3FDDA1BCAD25B630, 0x3FDC2F6AF3928A8E,
   0x3FDAB877A2E99DE6, 0x3FD93D20572CA90B, 0x3FD7BDA3650CCB42, 0x3FD63A3FCFACA412, 0x3FD4B3353E45C350,
   0x3FD328C3F1B322CB, 0x3FD19B2CB9E261AE, 0x3FD00AB0EB2D7D94, 0x3FCCEF24A73D92BF, 0x3FC9C4266041CA8F,
   0x3FC694EC4338FE01, 0x3FC361FC440B478F, 0x3FC02BDCF2B4E1A8, 0x3FB9E62ACA53C49F, 0x3FB3705A4247E6C8,
   0x3FA9EEB01776B57D, 0x3F99F0D1ADF9E918, 0x0000000000000000],
  [0x3FF0000000000000, 0x3FEFFD742ADB78D0, 0x3FEFF5D113293ED5, 0x3FEFE917F00AE2CD, 0x3FEFD74AC7D6A74B,
   0x3FEFC06C6FC503E7, 0x3FEFA4808B7D3C19, 0x3FEF838B8C811C17, 0x3FEF5D92B177F354, 0x3FEF329C0558E969,
   0x3FEF02AE5E74CF6E, 0x3FEECDD15D5F94ED, 0x3FEE940D6BB98CC5, 0x3FEE556BBAD8B36B, 0x3FEE11F642522D1C,
   0x3FEDC9B7BE64378E, 0x3FED7CBBAE40CFD0, 0x3FED2B0E523951DB, 0x3FECD4BCA9CB5C71, 0x3FEC79D4718F48AF,
   0x3FEC1A6421088998, 0x3FEBB67AE8584CAA, 0x3FEB4E28ADD2B944, 0x3FEAE17E0B773156, 0x3FEA708C4C4BFA74,
   0x3FE9FB65699DBAE6, 0x3FE9821C08233ADE, 0x3FE904C37505DE4B, 0x3FE8836FA2CF5039, 0x3FE7FE35263CDCD4,
   0x3FE7752932F8FB65, 0x3FE6E861983B8DBE, 0x3FE657F4BD515E7D, 0x3FE5C3F99E0B6B95, 0x3FE52C87C7168E5D,
   0x3FE491B7523C161D, 0x3FE3F3A0E28BEDD1, 0x3FE3525DA070E964, 0x3FE2AE0735AFDA09, 0x3FE206B7C9520CED,
   0x3FE15C89FB7BDA82, 0x3FE0AF98E12FF00D, 0x3FE0000000000000, 0x3FDE9BB693571187, 0x3FDD328E2F5AC8A7,
   0x3FDBC4C04D71ABC1, 0x3FDA5287244D9A84, 0x3FD8DC1D9EA83507, 0x3FD761BF51E29C90, 0x3FD5E3A8748A0BF5,
   0x3FD46215D4C2C9EE, 0x3FD2DD44CE9AFBA7, 0x3FD155734246E1E2, 0x3FCF95BF14901CBE, 0x3FCC7B90E3024582,
   0x3FC95CDA526F5A5F, 0x3FC63A1A7E0B738A, 0x3FC313D12579650C, 0x3FBFD4FD30ECA794, 0x3FB97D4744DCB7AA,
   0x3FB32182EBFB0FE9, 0x3FA9856661817583, 0x3F99876E66BA0A6D, 0x0000000000000000],
  [0x3FF0000000000000, 0x3FEFFD886084CD0D, 0x3FEFF621E3796D7E, 0x3FEFE9CDAD01883A, 0x3FEFD88DA3D12526,
   0x3FEFC26470E19FD3, 0x3FEFA7557F08A517, 0x3FEF8764FA714BA9, 0x3FEF6297CFF75CB0, 0x3FEF38F3AC64E589,
   0x3FEF0A7EFB9230D7, 0x3FEED740E7684963, 0x3FEE9F4156C62DDA, 0x3FEE6288EC48E112, 0x3FEE212104F686E5,
   0x3FEDDB13B6CCC23C, 0x3FED906BCF328D46, 0x3FED4134D14DC93A, 0x3FECED7AF43CC773, 0x3FEC954B213411F5,
   0x3FEC38B2F180BDB1, 0x3FEBD7C0AC6F952A, 0x3FEB728345196E3E, 0x3FEB090A58150200, 0x3FEA9B66290EA1A3,
   0x3FEA29A7A0462782, 0x3FE9B3E047F38741, 0x3FE93A22499263FB, 0x3FE8BC806B151741, 0x3FE83B0E0BFF976E,
   0x3FE7B5DF226AAFAF, 0x3FE72D0837EFFF96, 0x3FE6A09E667F3BCD, 0x3FE610B7551D2CDF, 0x3FE57D69348CECA0,
   0x3FE4E6CABBE3E5E9, 0x3FE44CF325091DD6, 0x3FE3AFFA292050B9, 0x3FE30FF7FCE17035, 0x3FE26D054CDD12DF,
   0x3FE1C73B39AE68C8, 0x3FE11EB3541B4B23, 0x3FE073879922FFEE, 0x3FDF8BA4DBF89ABA, 0x3FDE2B5D3806F63B,
   0x3FDCC66E9931C45E, 0x3FDB5D1009E15CC0, 0x3FD9EF7943A8ED8A, 0x3FD87DE2A6AEA963, 0x3FD7088530FA459F,
   0x3FD58F9A75AB1FDD, 0x3FD4135C94176601, 0x3FD294062ED59F06, 0x3FD111D262B1F677, 0x3FCF19F97B215F1B,
   0x3FCC0B826A7E4F63, 0x3FC8F8B83C69A60B, 0x3FC5E214448B3FC6, 0x3FC2C8106E8E613A, 0x3FBF564E56A9730E,
   0x3FB917A6BC29B42C, 0x3FB2D52092CE19F6, 0x3FA91F65F10DD814, 0x3F992155F7A3667E, 0x0000000000000000]]

/-- B_N for N = 1 to 64, binary64 (R88): row N − 1 holds B_N[0] to B_N[N]. -/
def cosBasis64 : List (List Nat) :=
  cosBasis64Part0 ++ cosBasis64Part1 ++ cosBasis64Part2 ++ cosBasis64Part3 ++ cosBasis64Part4 ++ cosBasis64Part5 ++ cosBasis64Part6 ++ cosBasis64Part7

/-- B_N, N = 1 to 8, binary32 (R88). -/
def cosBasis32Part0 : List (List Nat) := [
  [0x3F800000, 0x00000000],
  [0x3F800000, 0x3F3504F3, 0x00000000],
  [0x3F800000, 0x3F5DB3D7, 0x3F000000, 0x00000000],
  [0x3F800000, 0x3F6C835E, 0x3F3504F3, 0x3EC3EF15, 0x00000000],
  [0x3F800000, 0x3F737871, 0x3F4F1BBD, 0x3F167918, 0x3E9E377A, 0x00000000],
  [0x3F800000, 0x3F7746EA, 0x3F5DB3D7, 0x3F3504F3, 0x3F000000, 0x3E8483EE, 0x00000000],
  [0x3F800000, 0x3F7994E0, 0x3F66A5E5, 0x3F48261C, 0x3F1F9D07, 0x3EDE2602, 0x3E63DC87, 0x00000000],
  [0x3F800000, 0x3F7B14BE, 0x3F6C835E, 0x3F54DB31, 0x3F3504F3, 0x3F0E39DA, 0x3EC3EF15, 0x3E47C5C2, 0x00000000]]

/-- B_N, N = 9 to 16, binary32 (R88). -/
def cosBasis32Part1 : List (List Nat) := [
  [0x3F800000, 0x3F7C1C5C, 0x3F708FB2, 0x3F5DB3D7, 0x3F441B7D, 0x3F248DBB, 0x3F000000, 0x3EAF1D44, 0x3E31D0D4,
   0x00000000],
  [0x3F800000, 0x3F7CD925, 0x3F737871, 0x3F641901, 0x3F4F1BBD, 0x3F3504F3, 0x3F167918, 0x3EE87171, 0x3E9E377A,
   0x3E20305B, 0x00000000],
  [0x3F800000, 0x3F7D64F0, 0x3F75A155, 0x3F68DDA4, 0x3F575C64, 0x3F4178CE, 0x3F27A4F4, 0x3F0A6770, 0x3ED4B147,
   0x3E903F40, 0x3E11BAFB, 0x00000000],
  [0x3F800000, 0x3F7DCF55, 0x3F7746EA, 0x3F6C835E, 0x3F5DB3D7, 0x3F4B1934, 0x3F3504F3, 0x3F1BD7CA, 0x3F000000,
   0x3EC3EF15, 0x3E8483EE, 0x3E05A8A8, 0x00000000],
  [0x3F800000, 0x3F7E222B, 0x3F788FA5, 0x3F6F5D39, 0x3F62AD3F, 0x3F52AF12, 0x3F3F9E67, 0x3F29C268, 0x3F116CB1,
   0x3EEDF032, 0x3EB58EC6, 0x3E750F2A, 0x3DF6DBEF, 0x00000000],
  [0x3F800000, 0x3F7E63EC, 0x3F7994E0, 0x3F71A257, 0x3F66A5E5, 0x3F58C2EB, 0x3F48261C, 0x3F3504F3, 0x3F1F9D07,
   0x3F083341, 0x3EDE2602, 0x3EA91A56, 0x3E63DC87, 0x3DE54DA2, 0x00000000],
  [0x3F800000, 0x3F7E98FD, 0x3F7A67E2, 0x3F737871, 0x3F69DE1D, 0x3F5DB3D7, 0x3F4F1BBD, 0x3F3E3EBD, 0x3F2B4C25,
   0x3F167918, 0x3F000000, 0x3ED03FC9, 0x3E9E377A, 0x3E54E6CD, 0x3DD61305, 0x00000000],
  [0x3F800000, 0x3F7EC46D, 0x3F7B14BE, 0x3F74FA0B, 0x3F6C835E, 0x3F61C598, 0x3F54DB31, 0x3F45E403, 0x3F3504F3,
   0x3F226799, 0x3F0E39DA, 0x3EF15AEA, 0x3EC3EF15, 0x3E94A031, 0x3E47C5C2, 0x3DC8BD36, 0x00000000]]

/-- B_N, N = 17 to 24, binary32 (R88). -/
def cosBasis32Part2 : List (List Nat) := [
  [0x3F800000, 0x3F7EE86F, 0x3F7BA420, 0x3F763A35, 0x3F6EB680, 0x3F65296C, 0x3F59A7D5, 0x3F4C4ADB, 0x3F3D2FB0,
   0x3F2C7751, 0x3F1A4643, 0x3F06C442, 0x3EE437D1, 0x3EB8F4AB, 0x3E8C1D8E, 0x3E3C28D5, 0x3DBCF732, 0x00000000],
  [0x3F800000, 0x3F7F069E, 0x3F7C1C5C, 0x3F7746EA, 0x3F708FB2, 0x3F6803CA, 0x3F5DB3D7, 0x3F51B3F3, 0x3F441B7D,
   0x3F3504F3, 0x3F248DBB, 0x3F12D5E8, 0x3F000000, 0x3ED8616C, 0x3EAF1D44, 0x3E8483EE, 0x3E31D0D4, 0x3DB27EB6,
   0x00000000],
  [0x3F800000, 0x3F7F2029, 0x3F7C822D, 0x3F782A9E, 0x3F722114, 0x3F6A701F, 0x3F612531, 0x3F56508B, 0x3F4A051D,
   0x3F3C5867, 0x3F2D6253, 0x3F1D3D0B, 0x3F0C04CB, 0x3EF3AF60, 0x3ECDAB06, 0x3EA63F02, 0x3E7B608C, 0x3E288B7C,
   0x3DA91F5C, 0x00000000],
  [0x3F800000, 0x3F7F35F9, 0x3F7CD925, 0x3F78ED3C, 0x3F737871, 0x3F6C835E, 0x3F641901, 0x3F5A46A0, 0x3F4F1BBD,
   0x3F42A9F7, 0x3F3504F3, 0x3F26423A, 0x3F167918, 0x3F05C277, 0x3EE87171, 0x3EC3EF15, 0x3E9E377A, 0x3E6F0C4D,
   0x3E20305B, 0x3DA0AF2A, 0x00000000],
  [0x3F800000, 0x3F7F48C0, 0x3F7D2404, 0x3F7994E0, 0x3F74A06B, 0x3F6E4DBE, 0x3F66A5E5, 0x3F5DB3D7, 0x3F538462,
   0x3F48261C, 0x3F3BA94A, 0x3F2E1FCD, 0x3F1F9D07, 0x3F1035BE, 0x3F000000, 0x3EDE2602, 0x3EBB0DFB, 0x3E96EA26,
   0x3E63DC87, 0x3E189E89, 0x3D990C17, 0x00000000],
  [0x3F800000, 0x3F7F5906, 0x3F7D64F0, 0x3F7A264C, 0x3F75A155, 0x3F6FDBF0, 0x3F68DDA4, 0x3F60AF92, 0x3F575C64,
   0x3F4CF045, 0x3F4178CE, 0x3F3504F3, 0x3F27A4F4, 0x3F196A43, 0x3F0A6770, 0x3EF56020, 0x3ED4B147, 0x3EB2ECF8,
   0x3E903F40, 0x3E59AAB7, 0x3E11BAFB, 0x3D921A47, 0x00000000],
  [0x3F800000, 0x3F7F6738, 0x3F7D9D98, 0x3F7AA541, 0x3F7681BF, 0x3F713803, 0x3F6ACE5C, 0x3F634C72, 0x3F5ABB3B,
   0x3F5124F0, 0x3F469504, 0x3F3B1811, 0x3F2EBBCE, 0x3F218EFB, 0x3F13A152, 0x3F050374, 0x3EEB8DA5, 0x3ECBFB3A,
   0x3EAB7557, 0x3E8A22CD, 0x3E5056C6, 0x3E0B6F45, 0x3D8BC2AE, 0x00000000],
  [0x3F800000, 0x3F7F73AF, 0x3F7DCF55, 0x3F7B14BE, 0x3F7746EA, 0x3F726A03, 0x3F6C835E, 0x3F659974, 0x3F5DB3D7,
   0x3F54DB31, 0x3F4B1934, 0x3F407893, 0x3F3504F3, 0x3F28CAE3, 0x3F1BD7CA, 0x3F0E39DA, 0x3F000000, 0x3EE273AA,
   0x3EC3EF15, 0x3EA493B7, 0x3E8483EE, 0x3E47C5C2, 0x3E05A8A8, 0x3D85F213, 0x00000000]]

/-- B_N, N = 25 to 32, binary32 (R88). -/
def cosBasis32Part3 : List (List Nat) := [
  [0x3F800000, 0x3F7F7EAE, 0x3F7DFB3B, 0x3F7B772D, 0x3F77F511, 0x3F737871, 0x3F6E05D5, 0x3F67A2BF, 0x3F6055A2,
   0x3F5825E0, 0x3F4F1BBD, 0x3F45405B, 0x3F3A9DB0, 0x3F2F3E7B, 0x3F232E38, 0x3F167918, 0x3F092BF2, 0x3EF6A86B,
   0x3ED9FFBE, 0x3EBC7AD2, 0x3E9E377A, 0x3E7EA890, 0x3E3FE0E3, 0x3E00575B, 0x3D809851, 0x00000000],
  [0x3F800000, 0x3F7F886F, 0x3F7E222B, 0x3F7BCE84, 0x3F788FA5, 0x3F746896, 0x3F6F5D39, 0x3F697245, 0x3F62AD3F,
   0x3F5B147B, 0x3F52AF12, 0x3F4984DB, 0x3F3F9E67, 0x3F3504F3, 0x3F29C268, 0x3F1DE14A, 0x3F116CB1, 0x3F047040,
   0x3EEDF032, 0x3ED221A1, 0x3EB58EC6, 0x3E985252, 0x3E750F2A, 0x3E3894C7, 0x3DF6DBEF, 0x3D774F71, 0x00000000],
  [0x3F800000, 0x3F7F9120, 0x3F7E44DE, 0x3F7C1C5C, 0x3F791978, 0x3F753ECD, 0x3F708FB2, 0x3F6B1036, 0x3F64C51C,
   0x3F5DB3D7, 0x3F55E287, 0x3F4D57F2, 0x3F441B7D, 0x3F3A3529, 0x3F2FAD88, 0x3F248DBB, 0x3F18DF63, 0x3F0CAC9F,
   0x3F000000, 0x3EE5C902, 0x3ECACAF8, 0x3EAF1D44, 0x3E92D7E0, 0x3E6C2691, 0x3E31D0D4, 0x3DEDC21F, 0x3D6E2946,
   0x00000000],
  [0x3F800000, 0x3F7F98E6, 0x3F7E63EC, 0x3F7C620B, 0x3F7994E0, 0x3F75FEAD, 0x3F71A257, 0x3F6C835E, 0x3F66A5E5,
   0x3F600EA4, 0x3F58C2EB, 0x3F50C899, 0x3F48261C, 0x3F3EE268, 0x3F3504F3, 0x3F2A95B0, 0x3F1F9D07, 0x3F1423CD,
   0x3F083341, 0x3EF7AA01, 0x3EDE2602, 0x3EC3EF15, 0x3EA91A56, 0x3E8DBD62, 0x3E63DC87, 0x3E2B86C0, 0x3DE54DA2,
   0x3D65AA20, 0x00000000],
  [0x3F800000, 0x3F7F9FE3, 0x3F7E7FD3, 0x3F7CA0AA, 0x3F7A03CE, 0x3F76AB36, 0x3F729966, 0x3F6DD16B, 0x3F6856DD,
   0x3F622DD8, 0x3F5B5AFE, 0x3F53E36D, 0x3F4BCCC1, 0x3F431D0D, 0x3F39DAD7, 0x3F300D12, 0x3F25BB1C, 0x3F1AECB3,
   0x3F0FA9F5, 0x3F03FB56, 0x3EEFD33B, 0x3ED6FBB4, 0x3EBD82C0, 0x3EA37B7D, 0x3E88F979, 0x3E5C2136, 0x3E25AA2E,
   0x3DDD6D81, 0x3D5DC0C3, 0x00000000],
  [0x3F800000, 0x3F7FA62F, 0x3F7E98FD, 0x3F7CD925, 0x3F7A67E2, 0x3F7746EA, 0x3F737871, 0x3F6EFF20, 0x3F69DE1D,
   0x3F641901, 0x3F5DB3D7, 0x3F56B31D, 0x3F4F1BBD, 0x3F46F30A, 0x3F3E3EBD, 0x3F3504F3, 0x3F2B4C25, 0x3F211B24,
   0x3F167918, 0x3F0B6D77, 0x3F000000, 0x3EE87171, 0x3ED03FC9, 0x3EB77C01, 0x3E9E377A, 0x3E8483EE, 0x3E54E6CD,
   0x3E20305B, 0x3DD61305, 0x3D565E3A, 0x00000000],
  [0x3F800000, 0x3F7FABE3, 0x3F7EAFC2, 0x3F7D0C43, 0x3F7AC279, 0x3F77D3E7, 0x3F744278, 0x3F701086, 0x3F6B40D2,
   0x3F65D685, 0x3F5FD52E, 0x3F5940C0, 0x3F521D8E, 0x3F4A7047, 0x3F423DF9, 0x3F398C05, 0x3F306023, 0x3F26C059,
   0x3F1CB2FA, 0x3F123EA2, 0x3F076A2F, 0x3EF87980, 0x3EE17B58, 0x3EC9E903, 0x3EB1D1FE, 0x3E994620, 0x3E805587,
   0x3E4E2133, 0x3E1B0FE2, 0x3DCF3156, 0x3D4F7581, 0x00000000],
  [0x3F800000, 0x3F7FB10F, 0x3F7EC46D, 0x3F7D3AAC, 0x3F7B14BE, 0x3F7853F8, 0x3F74FA0B, 0x3F710908, 0x3F6C835E,
   0x3F676BD8, 0x3F61C598, 0x3F5B941A, 0x3F54DB31, 0x3F4D9F02, 0x3F45E403, 0x3F3DAEF9, 0x3F3504F3, 0x3F2BEB4A,
   0x3F226799, 0x3F187FC0, 0x3F0E39DA, 0x3F039C3D, 0x3EF15AEA, 0x3EDAE880, 0x3EC3EF15, 0x3EAC7CD4, 0x3E94A031,
   0x3E78CFCC, 0x3E47C5C2, 0x3E164083, 0x3DC8BD36, 0x3D48FB30, 0x00000000]]

/-- B_N, N = 33 to 40, binary32 (R88). -/
def cosBasis32Part4 : List (List Nat) := [
  [0x3F800000, 0x3F7FB5C5, 0x3F7ED73F, 0x3F7D64F0, 0x3F7B5FAE, 0x3F78C8A5, 0x3F75A155, 0x3F71EB93, 0x3F6DA985,
   0x3F68DDA4, 0x3F638AB8, 0x3F5DB3D7, 0x3F575C64, 0x3F50880D, 0x3F493AC7, 0x3F4178CE, 0x3F3946A2, 0x3F30A905,
   0x3F27A4F4, 0x3F1E3FAB, 0x3F147E9C, 0x3F0A6770, 0x3F000000, 0x3EEA9CAB, 0x3ED4B147, 0x3EBE4A8B, 0x3EA77574,
   0x3E903F40, 0x3E716ACA, 0x3E41CB14, 0x3E11BAFB, 0x3DC2ACBE, 0x3D42E541, 0x00000000],
  [0x3F800000, 0x3F7FBA12, 0x3F7EE86F, 0x3F7D8B8A, 0x3F7BA420, 0x3F79333D, 0x3F763A35, 0x3F72BAA8, 0x3F6EB680,
   0x3F6A2FEE, 0x3F65296C, 0x3F5FA5B8, 0x3F59A7D5, 0x3F533309, 0x3F4C4ADB, 0x3F44F312, 0x3F3D2FB0, 0x3F3504F3,
   0x3F2C7751, 0x3F238B77, 0x3F1A4643, 0x3F10ACC8, 0x3F06C442, 0x3EF92439, 0x3EE437D1, 0x3ECECEBC, 0x3EB8F4AB,
   0x3EA2B58F, 0x3E8C1D8E, 0x3E6A7203, 0x3E3C28D5, 0x3E0D78DC, 0x3DBCF732, 0x3D3D2ADE, 0x00000000],
  [0x3F800000, 0x3F7FBE02, 0x3F7EF82C, 0x3F7DAEE2, 0x3F7BE2CF, 0x3F7994E0, 0x3F76C645, 0x3F737871, 0x3F6FAD17,
   0x3F6B662C, 0x3F66A5E5, 0x3F616EB5, 0x3F5BC34D, 0x3F55A698, 0x3F4F1BBD, 0x3F48261C, 0x3F40C94B, 0x3F390916,
   0x3F30E97B, 0x3F286EAC, 0x3F1F9D07, 0x3F167918, 0x3F0D0796, 0x3F034D5E, 0x3EF29EEA, 0x3EDE2602, 0x3EC93A94,
   0x3EB3E767, 0x3E9E377A, 0x3E8835FB, 0x3E63DC87, 0x3E36D79E, 0x3E097472, 0x3DB794D0, 0x3D37C42F, 0x00000000],
  [0x3F800000, 0x3F7FC1A0, 0x3F7F069E, 0x3F7DCF55, 0x3F7C1C5C, 0x3F79EE89, 0x3F7746EA, 0x3F7426CB, 0x3F708FB2,
   0x3F6C835E, 0x3F6803CA, 0x3F631324, 0x3F5DB3D7, 0x3F57E880, 0x3F51B3F3, 0x3F4B1934, 0x3F441B7D, 0x3F3CBE35,
   0x3F3504F3, 0x3F2CF37B, 0x3F248DBB, 0x3F1BD7CA, 0x3F12D5E8, 0x3F098C78, 0x3F000000, 0x3EEC6A50, 0x3ED8616C,
   0x3EC3EF15, 0x3EAF1D44, 0x3E99F61C, 0x3E8483EE, 0x3E5DA259, 0x3E31D0D4, 0x3E05A8A8, 0x3DB27EB6, 0x3D32AA3E,
   0x00000000],
  [0x3F800000, 0x3F7FC4F3, 0x3F7F13E8, 0x3F7DED30, 0x3F7C5153, 0x3F7A410F, 0x3F77BD59, 0x3F74C758, 0x3F71606B,
   0x3F6D8A23, 0x3F694645, 0x3F6496CA, 0x3F5F7DDA, 0x3F59FDD0, 0x3F541935, 0x3F4DD2C2, 0x3F472D5A, 0x3F402C0F,
   0x3F38D21D, 0x3F3122E8, 0x3F2921FB, 0x3F20D307, 0x3F1839E1, 0x3F0F5A82, 0x3F063901, 0x3EF9B327, 0x3EE6811B,
   0x3ED2E4B8, 0x3EBEE70B, 0x3EAA914D, 0x3E95ECDE, 0x3E810345, 0x3E57BC4E, 0x3E2D0E8D, 0x3E0210F6, 0x3DADAEBB,
   0x3D2DD6D4, 0x00000000],
  [0x3F800000, 0x3F7FC804, 0x3F7F2029, 0x3F7E08B9, 0x3F7C822D, 0x3F7A8D30, 0x3F782A9E, 0x3F755B81, 0x3F722114,
   0x3F6E7CC1, 0x3F6A701F, 0x3F65FCF4, 0x3F612531, 0x3F5BEAF6, 0x3F56508B, 0x3F505864, 0x3F4A051D, 0x3F43597A,
   0x3F3C5867, 0x3F3504F3, 0x3F2D6253, 0x3F2573DE, 0x3F1D3D0B, 0x3F14C173, 0x3F0C04CB, 0x3F030AE6, 0x3EF3AF60,
   0x3EE0DE60, 0x3ECDAB06, 0x3EBA1DB7, 0x3EA63F02, 0x3E921797, 0x3E7B608C, 0x3E5223F8, 0x3E288B7C, 0x3DFD5290,
   0x3DA91F5C, 0x3D294460, 0x00000000],
  [0x3F800000, 0x3F7FCADA, 0x3F7F2B7D, 0x3F7E222B, 0x3F7CAF53, 0x3F7AD38F, 0x3F788FA5, 0x3F75E484, 0x3F72D349,
   0x3F6F5D39, 0x3F6B83C6, 0x3F674887, 0x3F62AD3F, 0x3F5DB3D7, 0x3F585E61, 0x3F52AF12, 0x3F4CA848, 0x3F464C83,
   0x3F3F9E67, 0x3F38A0B9, 0x3F315662, 0x3F29C268, 0x3F21E7F1, 0x3F19CA3F, 0x3F116CB1, 0x3F08D2C1, 0x3F000000,
   0x3EEDF032, 0x3EDB7D97, 0x3EC8AFD9, 0x3EB58EC6, 0x3EA2224F, 0x3E8E7285, 0x3E750F2A, 0x3E4CD389, 0x3E2442DB,
   0x3DF6DBEF, 0x3DA4CBA8, 0x3D24EDE6, 0x00000000],
  [0x3F800000, 0x3F7FCD79, 0x3F7F35F9, 0x3F7E39BC, 0x3F7CD925, 0x3F7B14BE, 0x3F78ED3C, 0x3F766377, 0x3F737871,
   0x3F702D4F, 0x3F6C835E, 0x3F687C12, 0x3F641901, 0x3F5F5BE6, 0x3F5A46A0, 0x3F54DB31, 0x3F4F1BBD, 0x3F490A88,
   0x3F42A9F7, 0x3F3BFC8F, 0x3F3504F3, 0x3F2DC5E3, 0x3F26423A, 0x3F1E7CF1, 0x3F167918, 0x3F0E39DA, 0x3F05C277,
   0x3EFA2C90, 0x3EE87171, 0x3ED65A92, 0x3EC3EF15, 0x3EB13641, 0x3E9E377A, 0x3E8AFA3E, 0x3E6F0C4D, 0x3E47C5C2,
   0x3E20305B, 0x3DF0B772, 0x3DA0AF2A, 0x3D20CEE7, 0x00000000]]

/-- B_N, N = 41 to 48, binary32 (R88). -/
def cosBasis32Part5 : List (List Nat) := [
  [0x3F800000, 0x3F7FCFE9, 0x3F7F3FB4, 0x3F7E4F99, 0x3F7CFFF2, 0x3F7B513D, 0x3F79441A, 0x3F76D951, 0x3F7411C9,
   0x3F70EE8E, 0x3F6D70CD, 0x3F6999D6, 0x3F656B1B, 0x3F60E62E, 0x3F5C0CC1, 0x3F56E0A7, 0x3F5163D2, 0x3F4B9850,
   0x3F458051, 0x3F3F1E1D, 0x3F38741A, 0x3F3184CB, 0x3F2A52C9, 0x3F22E0C9, 0x3F1B3197, 0x3F134815, 0x3F0B273E,
   0x3F02D21F, 0x3EF497B1, 0x3EE32F3F, 0x3ED17172, 0x3EBF64F4, 0x3EAD108C, 0x3E9A7B1F, 0x3E87ABA8, 0x3E69526E,
   0x3E42F5E3, 0x3E1C5018, 0x3DEADF25, 0x3D9CC5DB, 0x3D1CE354, 0x00000000],
  [0x3F800000, 0x3F7FD22C, 0x3F7F48C0, 0x3F7E63EC, 0x3F7D2404, 0x3F7B897A, 0x3F7994E0, 0x3F7746EA, 0x3F74A06B,
   0x3F71A257, 0x3F6E4DBE, 0x3F6AA3D3, 0x3F66A5E5, 0x3F625563, 0x3F5DB3D7, 0x3F58C2EB, 0x3F538462, 0x3F4DFA1F,
   0x3F48261C, 0x3F420A6F, 0x3F3BA94A, 0x3F3504F3, 0x3F2E1FCD, 0x3F26FC4F, 0x3F1F9D07, 0x3F18049A, 0x3F1035BE,
   0x3F083341, 0x3F000000, 0x3EEF3DD5, 0x3EDE2602, 0x3ECCBEA6, 0x3EBB0DFB, 0x3EA91A56, 0x3E96EA26, 0x3E8483EE,
   0x3E63DC87, 0x3E3E5F9D, 0x3E189E89, 0x3DE54DA2, 0x3D990C17, 0x3D192782, 0x00000000],
  [0x3F800000, 0x3F7FD447, 0x3F7F512B, 0x3F7E76D9, 0x3F7D459B, 0x3F7BBDDA, 0x3F79E01C, 0x3F77AD03, 0x3F752550,
   0x3F7249E1, 0x3F6F1BAE, 0x3F6B9BCF, 0x3F67CB75, 0x3F63ABED, 0x3F5F3EA1, 0x3F5A8514, 0x3F5580E2, 0x3F5033C2,
   0x3F4A9F84, 0x3F44C60F, 0x3F3EA964, 0x3F384B98, 0x3F31AED9, 0x3F2AD568, 0x3F23C19C, 0x3F1C75E1, 0x3F14F4B5,
   0x3F0D40A7, 0x3F055C59, 0x3EFA94FA, 0x3EEA1BAA, 0x3ED95263, 0x3EC83EE1, 0x3EB6E6F8, 0x3EA55095, 0x3E9381BA,
   0x3E81807C, 0x3E5EA604, 0x3E39FF03, 0x3E151879, 0x3DDFFE03, 0x3D957E91, 0x3D15981E, 0x00000000],
  [0x3F800000, 0x3F7FD63E, 0x3F7F5906, 0x3F7E8880, 0x3F7D64F0, 0x3F7BEEB6, 0x3F7A264C, 0x3F780C46, 0x3F75A155,
   0x3F72E641, 0x3F6FDBF0, 0x3F6C835E, 0x3F68DDA4, 0x3F64EBF3, 0x3F60AF92, 0x3F5C29E5, 0x3F575C64, 0x3F5248A2,
   0x3F4CF045, 0x3F47550D, 0x3F4178CE, 0x3F3B5D70, 0x3F3504F3, 0x3F2E7168, 0x3F27A4F4, 0x3F20A1CF, 0x3F196A43,
   0x3F1200AA, 0x3F0A6770, 0x3F02A10F, 0x3EF56020, 0x3EE52E15, 0x3ED4B147, 0x3EC3EF15, 0x3EB2ECF8, 0x3EA1B07C,
   0x3E903F40, 0x3E7D3DEA, 0x3E59AAB7, 0x3E35D081, 0x3E11BAFB, 0x3DDAEBD4, 0x3D921A47, 0x3D123220, 0x00000000],
  [0x3F800000, 0x3F7FD814, 0x3F7F605C, 0x3F7E98FD, 0x3F7D8235, 0x3F7C1C5C, 0x3F7A67E2, 0x3F78654D, 0x3F76153F,
   0x3F737871, 0x3F708FB2, 0x3F6D5BEC, 0x3F69DE1D, 0x3F66175E, 0x3F6208DA, 0x3F5DB3D7, 0x3F5919AE, 0x3F543BCE,
   0x3F4F1BBD, 0x3F49BB13, 0x3F441B7D, 0x3F3E3EBD, 0x3F3826A7, 0x3F31D522, 0x3F2B4C25, 0x3F248DBB, 0x3F1D9BFE,
   0x3F167918, 0x3F0F2744, 0x3F07A8CA, 0x3F000000, 0x3EF05E94, 0x3EE0722F, 0x3ED03FC9, 0x3EBFCC6F, 0x3EAF1D44,
   0x3E9E377A, 0x3E8D2057, 0x3E77BA60, 0x3E54E6CD, 0x3E31D0D4, 0x3E0E8365, 0x3DD61305, 0x3D8EDC7B, 0x3D0EF2C6,
   0x00000000],
  [0x3F800000, 0x3F7FD9CB, 0x3F7F6738, 0x3F7EA86A, 0x3F7D9D98, 0x3F7C4713, 0x3F7AA541, 0x3F78B89F, 0x3F7681BF,
   0x3F74014C, 0x3F713803, 0x3F6E26BA, 0x3F6ACE5C, 0x3F672FE8, 0x3F634C72, 0x3F5F2524, 0x3F5ABB3B, 0x3F561008,
   0x3F5124F0, 0x3F4BFB6B, 0x3F469504, 0x3F40F356, 0x3F3B1811, 0x3F3504F3, 0x3F2EBBCE, 0x3F283E80, 0x3F218EFB,
   0x3F1AAF3C, 0x3F13A152, 0x3F0C6758, 0x3F050374, 0x3EFAEFBA, 0x3EEB8DA5, 0x3EDBE541, 0x3ECBFB3A, 0x3EBBD451,
   0x3EAB7557, 0x3E9AE330, 0x3E8A22CD, 0x3E72725F, 0x3E5056C6, 0x3E2DFCFD, 0x3E0B6F45, 0x3DD16FDE, 0x3D8BC2AE,
   0x3D0BD78C, 0x00000000],
  [0x3F800000, 0x3F7FDB67, 0x3F7F6DA6, 0x3F7EB6DE, 0x3F7DB741, 0x3F7C6F1A, 0x3F7ADEC5, 0x3F7906B6, 0x3F76E774,
   0x3F748199, 0x3F71D5D5, 0x3F6EE4ED, 0x3F6BAFB6, 0x3F68371C, 0x3F647C1D, 0x3F607FCA, 0x3F5C4347, 0x3F57C7CA,
   0x3F530E9A, 0x3F4E1912, 0x3F48E89D, 0x3F437EB6, 0x3F3DDCEA, 0x3F3804D4, 0x3F31F822, 0x3F2BB88C, 0x3F2547DE,
   0x3F1EA7EE, 0x3F17DAA1, 0x3F10E1E9, 0x3F09BFC4, 0x3F02763C, 0x3EF60ED0, 0x3EE6EACC, 0x3ED784C3, 0x3EC7E11A,
   0x3EB8044C, 0x3EA7F2E0, 0x3E97B16F, 0x3E87449F, 0x3E6D6243, 0x3E4BF769, 0x3E2A523E, 0x3E087C60, 0x3DCCFEF8,
   0x3D88CA94, 0x3D08DE25, 0x00000000],
  [0x3F800000, 0x3F7FDCE9, 0x3F7F73AF, 0x3F7EC46D, 0x3F7DCF55, 0x3F7C94A8, 0x3F7B14BE, 0x3F795000, 0x3F7746EA,
   0x3F74FA0B, 0x3F726A03, 0x3F6F9788, 0x3F6C835E, 0x3F692E5F, 0x3F659974, 0x3F61C598, 0x3F5DB3D7, 0x3F596550,
   0x3F54DB31, 0x3F5016B8, 0x3F4B1934, 0x3F45E403, 0x3F407893, 0x3F3AD85F, 0x3F3504F3, 0x3F2EFFE8, 0x3F28CAE3,
   0x3F226799, 0x3F1BD7CA, 0x3F151D42, 0x3F0E39DA, 0x3F072F74, 0x3F000000, 0x3EF15AEA, 0x3EE273AA, 0x3ED34E56,
   0x3EC3EF15, 0x3EB45A1E, 0x3EA493B7, 0x3E94A031, 0x3E8483EE, 0x3E6886AE, 0x3E47C5C2, 0x3E26CE12, 0x3E05A8A8,
   0x3DC8BD36, 0x3D85F213, 0x3D060472, 0x00000000]]

/-- B_N, N = 49 to 56, binary32 (R88). -/
def cosBasis32Part6 : List (List Nat) := [
  [0x3F800000, 0x3F7FDE54, 0x3F7F7959, 0x3F7ED12A, 0x3F7DE5F3, 0x3F7CB7F2, 0x3F7B4776, 0x3F7994E0, 0x3F77A0A3,
   0x3F756B42, 0x3F72F551, 0x3F703F77, 0x3F6D4A6B, 0x3F6A16F2, 0x3F66A5E5, 0x3F62F82C, 0x3F5F0EBE, 0x3F5AEAA3,
   0x3F568CF1, 0x3F51F6CF, 0x3F4D2971, 0x3F48261C, 0x3F42EE1F, 0x3F3D82DC, 0x3F37E5BE, 0x3F321840, 0x3F2C1BE9,
   0x3F25F24C, 0x3F1F9D07, 0x3F191DC6, 0x3F12763D, 0x3F0BA82D, 0x3F04B560, 0x3EFB3F55, 0x3EECD1D2, 0x3EDE2602,
   0x3ECF3FC3, 0x3EC022FF, 0x3EB0D3B0, 0x3EA155DD, 0x3E91AD9A, 0x3E81DF03, 0x3E63DC87, 0x3E43BF16, 0x3E236E28,
   0x3E02F23B, 0x3DC4A7B8, 0x3D83373F, 0x3D034884, 0x00000000],
  [0x3F800000, 0x3F7FDFA9, 0x3F7F7EAE, 0x3F7EDD26, 0x3F7DFB3B, 0x3F7CD925, 0x3F7B772D, 0x3F79D5AE, 0x3F77F511,
   0x3F75D5CF, 0x3F737871, 0x3F70DD90, 0x3F6E05D5, 0x3F6AF1F8, 0x3F67A2BF, 0x3F641901, 0x3F6055A2, 0x3F5C5997,
   0x3F5825E0, 0x3F53BB8D, 0x3F4F1BBD, 0x3F4A4799, 0x3F45405B, 0x3F400747, 0x3F3A9DB0, 0x3F3504F3, 0x3F2F3E7B,
   0x3F294BBC, 0x3F232E38, 0x3F1CE77A, 0x3F167918, 0x3F0FE4B2, 0x3F092BF2, 0x3F02508A, 0x3EF6A86B, 0x3EE87171,
   0x3ED9FFBE, 0x3ECB56F8, 0x3EBC7AD2, 0x3EAD6F0F, 0x3E9E377A, 0x3E8ED7EC, 0x3E7EA890, 0x3E5F60F1, 0x3E3FE0E3,
   0x3E20305B, 0x3E00575B, 0x3DC0BBDC, 0x3D809851, 0x3D00A891, 0x00000000],
  [0x3F800000, 0x3F7FE0EB, 0x3F7F83B3, 0x3F7EE86F, 0x3F7E0F45, 0x3F7CF86A, 0x3F7BA420, 0x3F7A12BB, 0x3F78449D,
   0x3F763A35, 0x3F73F402, 0x3F717292, 0x3F6EB680, 0x3F6BC077, 0x3F68912E, 0x3F65296C, 0x3F618A04, 0x3F5DB3D7,
   0x3F59A7D5, 0x3F5566F7, 0x3F50F248, 0x3F4C4ADB, 0x3F4771D3, 0x3F42685C, 0x3F3D2FB0, 0x3F37C913, 0x3F3235D6,
   0x3F2C7751, 0x3F268EEC, 0x3F207E14, 0x3F1A4643, 0x3F13E8FC, 0x3F0D67CA, 0x3F06C442, 0x3F000000, 0x3EF23952,
   0x3EE437D1, 0x3ED5FEE6, 0x3EC79204, 0x3EB8F4AB, 0x3EAA2A69, 0x3E9B36D4, 0x3E8C1D8E, 0x3E79C485, 0x3E5B1146,
   0x3E3C28D5, 0x3E1D12B4, 0x3DFBACDB, 0x3DBCF732, 0x3D7C274A, 0x3CFC45EB, 0x00000000],
  [0x3F800000, 0x3F7FE21A, 0x3F7F886F, 0x3F7EF314, 0x3F7E222B, 0x3F7D15E6, 0x3F7BCE84, 0x3F7A4C50, 0x3F788FA5,
   0x3F7698EA, 0x3F746896, 0x3F71FF2B, 0x3F6F5D39, 0x3F6C835E, 0x3F697245, 0x3F662AA3, 0x3F62AD3F, 0x3F5EFAE8,
   0x3F5B147B, 0x3F56FAE2, 0x3F52AF12, 0x3F4E320C, 0x3F4984DB, 0x3F44A899, 0x3F3F9E67, 0x3F3A6772, 0x3F3504F3,
   0x3F2F782C, 0x3F29C268, 0x3F23E4FD, 0x3F1DE14A, 0x3F17B8B6, 0x3F116CB1, 0x3F0AFEB4, 0x3F047040, 0x3EFB85B9,
   0x3EEDF032, 0x3EE02317, 0x3ED221A1, 0x3EC3EF15, 0x3EB58EC6, 0x3EA7040D, 0x3E985252, 0x3E897D02, 0x3E750F2A,
   0x3E56EB12, 0x3E3894C7, 0x3E1A135E, 0x3DF6DBEF, 0x3DB9577A, 0x3D774F71, 0x3CF76C57, 0x00000000],
  [0x3F800000, 0x3F7FE338, 0x3F7F8CE7, 0x3F7EFD1F, 0x3F7E3402, 0x3F7D31BD, 0x3F7BF689, 0x3F7A82AE, 0x3F78D67E,
   0x3F76F25C, 0x3F74D6B2, 0x3F7283FB, 0x3F6FFABC, 0x3F6D3B88, 0x3F6A46FC, 0x3F671DC2, 0x3F63C091, 0x3F60302A,
   0x3F5C6D5B, 0x3F5878FB, 0x3F5453EE, 0x3F4FFF24, 0x3F4B7B95, 0x3F46CA45, 0x3F41EC42, 0x3F3CE2A4, 0x3F37AE8E,
   0x3F32512B, 0x3F2CCBB0, 0x3F271F5A, 0x3F214D70, 0x3F1B5741, 0x3F153E25, 0x3F0F0379, 0x3F08A8A6, 0x3F022F18,
   0x3EF7308A, 0x3EE9CB4F, 0x3EDC3182, 0x3ECE6632, 0x3EC06C79, 0x3EB2477C, 0x3EA3FA69, 0x3E958877, 0x3E86F4E6,
   0x3E7085F8, 0x3E52EC0F, 0x3E3522B9, 0x3E1730A9, 0x3DF23934, 0x3DB5DA9F, 0x3D72A64D, 0x3CF2C198, 0x00000000],
  [0x3F800000, 0x3F7FE446, 0x3F7F9120, 0x3F7F069E, 0x3F7E44DE, 0x3F7D4C0C, 0x3F7C1C5C, 0x3F7AB611, 0x3F791978,
   0x3F7746EA, 0x3F753ECD, 0x3F730191, 0x3F708FB2, 0x3F6DE9B8, 0x3F6B1036, 0x3F6803CA, 0x3F64C51C, 0x3F6154E1,
   0x3F5DB3D7, 0x3F59E2C8, 0x3F55E287, 0x3F51B3F3, 0x3F4D57F2, 0x3F48CF77, 0x3F441B7D, 0x3F3F3D09, 0x3F3A3529,
   0x3F3504F3, 0x3F2FAD88, 0x3F2A3010, 0x3F248DBB, 0x3F1EC7C1, 0x3F18DF63, 0x3F12D5E8, 0x3F0CAC9F, 0x3F0664DD,
   0x3F000000, 0x3EF2FED2, 0x3EE5C902, 0x3ED8616C, 0x3ECACAF8, 0x3EBD0897, 0x3EAF1D44, 0x3EA10C03, 0x3E92D7E0,
   0x3E8483EE, 0x3E6C2691, 0x3E4F1220, 0x3E31D0D4, 0x3E146904, 0x3DEDC21F, 0x3DB27EB6, 0x3D6E2946, 0x3CEE4313,
   0x00000000],
  [0x3F800000, 0x3F7FE546, 0x3F7F951E, 0x3F7F0F99, 0x3F7E54D2, 0x3F7D64F0, 0x3F7C4026, 0x3F7AE6B1, 0x3F7958D8,
   0x3F7796F0, 0x3F75A155, 0x3F737871, 0x3F711CB6, 0x3F6E8EA4, 0x3F6BCEC2, 0x3F68DDA4, 0x3F65BBE7, 0x3F626A32,
   0x3F5EE937, 0x3F5B39B1, 0x3F575C64, 0x3F535220, 0x3F4F1BBD, 0x3F4ABA1B, 0x3F462E25, 0x3F4178CE, 0x3F3C9B11,
   0x3F3795F3, 0x3F326A80, 0x3F2D19CC, 0x3F27A4F4, 0x3F220D1B, 0x3F1C536B, 0x3F167918, 0x3F107F5A, 0x3F0A6770,
   0x3F0432A0, 0x3EFBC46B, 0x3EEEEF05, 0x3EE1E7BB, 0x3ED4B147, 0x3EC74E69, 0x3EB9C1EE, 0x3EAC0EAB, 0x3E9E377A,
   0x3E903F40, 0x3E8228E8, 0x3E67EEC5, 0x3E4B5B4D, 0x3E2E9D5F, 0x3E11BAFB, 0x3DE97454, 0x3DAF41F3, 0x3D69D5F5,
   0x3CE9EE61, 0x00000000],
  [0x3F800000, 0x3F7FE638, 0x3F7F98E6, 0x3F7F181A, 0x3F7E63EC, 0x3F7D7C83, 0x3F7C620B, 0x3F7B14BE, 0x3F7994E0,
   0x3F77E2BD, 0x3F75FEAD, 0x3F73E912, 0x3F71A257, 0x3F6F2AF0, 0x3F6C835E, 0x3F69AC2A, 0x3F66A5E5, 0x3F63712C,
   0x3F600EA4, 0x3F5C7EFC, 0x3F58C2EB, 0x3F54DB31, 0x3F50C899, 0x3F4C8BF3, 0x3F48261C, 0x3F4397F4, 0x3F3EE268,
   0x3F3A0669, 0x3F3504F3, 0x3F2FDF08, 0x3F2A95B0, 0x3F2529FE, 0x3F1F9D07, 0x3F19EFEB, 0x3F1423CD, 0x3F0E39DA,
   0x3F083341, 0x3F02113A, 0x3EF7AA01, 0x3EEAFFAC, 0x3EDE2602, 0x3ED11F9B, 0x3EC3EF15, 0x3EB69719, 0x3EA91A56,
   0x3E9B7B85, 0x3E8DBD62, 0x3E7FC568, 0x3E63DC87, 0x3E47C5C2, 0x3E2B86C0, 0x3E0F2533, 0x3DE54DA2, 0x3DAC22AE,
   0x3D65AA20, 0x3CE5C143, 0x00000000]]

/-- B_N, N = 57 to 64, binary32 (R88). -/
def cosBasis32Part7 : List (List Nat) := [
  [0x3F800000, 0x3F7FE71E, 0x3F7F9C7C, 0x3F7F2029, 0x3F7E723E, 0x3F7D92DB, 0x3F7C822D, 0x3F7B4068, 0x3F79CDCB,
   0x3F782A9E, 0x3F765732, 0x3F7453E3, 0x3F722114, 0x3F6FBF33, 0x3F6D2EB7, 0x3F6A701F, 0x3F6783F3, 0x3F646AC6,
   0x3F612531, 0x3F5DB3D7, 0x3F5A1764, 0x3F56508B, 0x3F526008, 0x3F4E469F, 0x3F4A051D, 0x3F459C54, 0x3F410D21,
   0x3F3C5867, 0x3F377F0F, 0x3F32820B, 0x3F2D6253, 0x3F2820E7, 0x3F22BECB, 0x3F1D3D0B, 0x3F179CBB, 0x3F11DEF1,
   0x3F0C04CB, 0x3F060F6E, 0x3F000000, 0x3EF3AF60, 0x3EE72F61, 0x3EDA8271, 0x3ECDAB06, 0x3EC0AB9F, 0x3EB386C4,
   0x3EA63F02, 0x3E98D6EF, 0x3E8B5125, 0x3E7B608C, 0x3E5FEDF0, 0x3E444FCB, 0x3E288B7C, 0x3E0CA669, 0x3DE14BFD,
   0x3DA91F5C, 0x3D61A3B4, 0x3CE1B9A5, 0x00000000],
  [0x3F800000, 0x3F7FE7F8, 0x3F7F9FE3, 0x3F7F27CF, 0x3F7E7FD3, 0x3F7DA80F, 0x3F7CA0AA, 0x3F7B69D6, 0x3F7A03CE,
   0x3F786ED5, 0x3F76AB36, 0x3F74B948, 0x3F729966, 0x3F704BF8, 0x3F6DD16B, 0x3F6B2A38, 0x3F6856DD, 0x3F6557E2,
   0x3F622DD8, 0x3F5ED957, 0x3F5B5AFE, 0x3F57B375, 0x3F53E36D, 0x3F4FEB9C, 0x3F4BCCC1, 0x3F4787A3, 0x3F431D0D,
   0x3F3E8DD6, 0x3F39DAD7, 0x3F3504F3, 0x3F300D12, 0x3F2AF423, 0x3F25BB1C, 0x3F2062F6, 0x3F1AECB3, 0x3F155959,
   0x3F0FA9F5, 0x3F09DF97, 0x3F03FB56, 0x3EFBFC9C, 0x3EEFD33B, 0x3EE37CD3, 0x3ED6FBB4, 0x3ECA5238, 0x3EBD82C0,
   0x3EB08FB2, 0x3EA37B7D, 0x3E964897, 0x3E88F979, 0x3E772148, 0x3E5C2136, 0x3E40F7D0, 0x3E25AA2E, 0x3E0A3D72,
   0x3DDD6D81, 0x3DA6368C, 0x3D5DC0C3, 0x3CDDD596, 0x00000000],
  [0x3F800000, 0x3F7FE8C6, 0x3F7FA31E, 0x3F7F2F12, 0x3F7E8CBA, 0x3F7DBC31, 0x3F7CBD9E, 0x3F7B9130, 0x3F7A371C,
   0x3F78AFA1, 0x3F76FB07, 0x3F75199C, 0x3F730BB9, 0x3F70D1BC, 0x3F6E6C0C, 0x3F6BDB1A, 0x3F691F5C, 0x3F663952,
   0x3F632981, 0x3F5FF079, 0x3F5C8ECF, 0x3F590520, 0x3F555410, 0x3F517C4A, 0x3F4D7E83, 0x3F495B71, 0x3F4513D7,
   0x3F40A87A, 0x3F3C1A29, 0x3F3769B5, 0x3F3297FB, 0x3F2DA5D8, 0x3F289434, 0x3F2363F9, 0x3F1E1618, 0x3F18AB88,
   0x3F132545, 0x3F0D844E, 0x3F07C9AA, 0x3F01F663, 0x3EF8170D, 0x3EEC1451, 0x3EDFE6BF, 0x3ED3908C, 0x3EC713F6,
   0x3EBA7341, 0x3EADB0B7, 0x3EA0CEAA, 0x3E93CF6E, 0x3E86B561, 0x3E7305C5, 0x3E5874B0, 0x3E3DBC54, 0x3E22E18B,
   0x3E07E933, 0x3DD9B066, 0x3DA366E6, 0x3D59FF7F, 0x3CDA1348, 0x00000000],
  [0x3F800000, 0x3F7FE98B, 0x3F7FA62F, 0x3F7F35F9, 0x3F7E98FD, 0x3F7DCF55, 0x3F7CD925, 0x3F7BB698, 0x3F7A67E2,
   0x3F78ED3C, 0x3F7746EA, 0x3F757536, 0x3F737871, 0x3F7150F4, 0x3F6EFF20, 0x3F6C835E, 0x3F69DE1D, 0x3F670FD4,
   0x3F641901, 0x3F60FA29, 0x3F5DB3D7, 0x3F5A46A0, 0x3F56B31D, 0x3F52F9EF, 0x3F4F1BBD, 0x3F4B1934, 0x3F46F30A,
   0x3F42A9F7, 0x3F3E3EBD, 0x3F39B223, 0x3F3504F3, 0x3F303801, 0x3F2B4C25, 0x3F26423A, 0x3F211B24, 0x3F1BD7CA,
   0x3F167918, 0x3F110000, 0x3F0B6D77, 0x3F05C277, 0x3F000000, 0x3EF44E27, 0x3EE87171, 0x3EDC6BF3, 0x3ED03FC9,
   0x3EC3EF15, 0x3EB77C01, 0x3EAAE8BC, 0x3E9E377A, 0x3E916A76, 0x3E8483EE, 0x3E6F0C4D, 0x3E54E6CD, 0x3E3A9BF3,
   0x3E20305B, 0x3E05A8A8, 0x3DD61305, 0x3DA0AF2A, 0x3D565E3A, 0x3CD6710A, 0x00000000],
  [0x3F800000, 0x3F7FEA46, 0x3F7FA91B, 0x3F7F3C8A, 0x3F7EA4A7, 0x3F7DE18A, 0x3F7CF354, 0x3F7BDA2F, 0x3F7A9649,
   0x3F7927DB, 0x3F778F21, 0x3F75CC62, 0x3F73DFEA, 0x3F71CA0C, 0x3F6F8B23, 0x3F6D2391, 0x3F6A93BF, 0x3F67DC1A,
   0x3F64FD1B, 0x3F61F73D, 0x3F5ECB03, 0x3F5B78F9, 0x3F5801AD, 0x3F5465B6, 0x3F50A5B2, 0x3F4CC244, 0x3F48BC13,
   0x3F4493D0, 0x3F404A2F, 0x3F3BDFE9, 0x3F3755C0, 0x3F32AC78, 0x3F2DE4DC, 0x3F28FFBB, 0x3F23FDEA, 0x3F1EE043,
   0x3F19A7A5, 0x3F1454F1, 0x3F0EE910, 0x3F0964EC, 0x3F03C976, 0x3EFC2F43, 0x3EF0A0CB, 0x3EE4E97A, 0x3ED90B4F,
   0x3ECD084B, 0x3EC0E27A, 0x3EB49BEC, 0x3EA836B5, 0x3E9BB4F0, 0x3E8F18BE, 0x3E826441, 0x3E6B3343, 0x3E517619,
   0x3E379560, 0x3E1D957E, 0x3E037ADC, 0x3DD293D1, 0x3D9E0E2B, 0x3D52DB63, 0x3CD2ED4A, 0x00000000],
  [0x3F800000, 0x3F7FEAF8, 0x3F7FABE3, 0x3F7F42CB, 0x3F7EAFC2, 0x3F7DF2DF, 0x3F7D0C43, 0x3F7BFC12, 0x3F7AC279,
   0x3F795FAD, 0x3F77D3E7, 0x3F761F68, 0x3F744278, 0x3F723D66, 0x3F701086, 0x3F6DBC34, 0x3F6B40D2, 0x3F689EC8,
   0x3F65D685, 0x3F62E87E, 0x3F5FD52E, 0x3F5C9D17, 0x3F5940C0, 0x3F55C0B6, 0x3F521D8E, 0x3F4E57DE, 0x3F4A7047,
   0x3F46676D, 0x3F423DF9, 0x3F3DF49A, 0x3F398C05, 0x3F3504F3, 0x3F306023, 0x3F2B9E57, 0x3F26C059, 0x3F21C6F4,
   0x3F1CB2FA, 0x3F178541, 0x3F123EA2, 0x3F0CDFFC, 0x3F076A2F, 0x3F01DE23, 0x3EF87980, 0x3EED0DE5, 0x3EE17B58,
   0x3ED5C3BD, 0x3EC9E903, 0x3EBDED1B, 0x3EB1D1FE, 0x3EA599AA, 0x3E994620, 0x3E8CD966, 0x3E805587, 0x3E677925,
   0x3E4E2133, 0x3E34A762, 0x3E1B0FE2, 0x3E015EE8, 0x3DCF3156, 0x3D9B82D2, 0x3D4F7581, 0x3CCF868D, 0x00000000],
  [0x3F800000, 0x3F7FEBA1, 0x3F7FAE89, 0x3F7F48C0, 0x3F7EBA56, 0x3F7E0363, 0x3F7D2404, 0x3F7C1C5C, 0x3F7AEC96,
   0x3F7994E0, 0x3F781573, 0x3F766E8B, 0x3F74A06B, 0x3F72AB5E, 0x3F708FB2, 0x3F6E4DBE, 0x3F6BE5DD, 0x3F695873,
   0x3F66A5E5, 0x3F63CEA4, 0x3F60D321, 0x3F5DB3D7, 0x3F5A7145, 0x3F570BF0, 0x3F538462, 0x3F4FDB2B, 0x3F4C10E0,
   0x3F48261C, 0x3F441B7D, 0x3F3FF1A9, 0x3F3BA94A, 0x3F37430D, 0x3F32BFA6, 0x3F2E1FCD, 0x3F29643E, 0x3F248DBB,
   0x3F1F9D07, 0x3F1A92ED, 0x3F15703A, 0x3F1035BE, 0x3F0AE450, 0x3F057CC7, 0x3F000000, 0x3EF4DDB5, 0x3EE99471,
   0x3EDE2602, 0x3ED29439, 0x3EC6E0ED, 0x3EBB0DFB, 0x3EAF1D44, 0x3EA310AF, 0x3E96EA26, 0x3E8AAB9A, 0x3E7CADF9,
   0x3E63DC87, 0x3E4AE6D3, 0x3E31D0D4, 0x3E189E89, 0x3DFEA7EA, 0x3DCBEA3A, 0x3D990C17, 0x3D4C2B33, 0x3CCC3B73,
   0x00000000],
  [0x3F800000, 0x3F7FEC43, 0x3F7FB10F, 0x3F7F4E6D, 0x3F7EC46D, 0x3F7E1324, 0x3F7D3AAC, 0x3F7C3B28, 0x3F7B14BE,
   0x3F79C79D, 0x3F7853F8, 0x3F76BA07, 0x3F74FA0B, 0x3F731447, 0x3F710908, 0x3F6ED89E, 0x3F6C835E, 0x3F6A09A7,
   0x3F676BD8, 0x3F64AA59, 0x3F61C598, 0x3F5EBE05, 0x3F5B941A, 0x3F584853, 0x3F54DB31, 0x3F514D3D, 0x3F4D9F02,
   0x3F49D112, 0x3F45E403, 0x3F41D870, 0x3F3DAEF9, 0x3F396842, 0x3F3504F3, 0x3F3085BB, 0x3F2BEB4A, 0x3F273656,
   0x3F226799, 0x3F1D7FD1, 0x3F187FC0, 0x3F13682A, 0x3F0E39DA, 0x3F08F59B, 0x3F039C3D, 0x3EFC5D27, 0x3EF15AEA,
   0x3EE63375, 0x3EDAE880, 0x3ECF7BCA, 0x3EC3EF15, 0x3EB8442A, 0x3EAC7CD4, 0x3EA09AE5, 0x3E94A031, 0x3E888E93,
   0x3E78CFCC, 0x3E605C13, 0x3E47C5C2, 0x3E2F10A2, 0x3E164083, 0x3DFAB273, 0x3DC8BD36, 0x3D96A905, 0x3D48FB30,
   0x3CC90AB0, 0x00000000]]

/-- B_N for N = 1 to 64, binary32 (R88): row N − 1 holds B_N[0] to B_N[N]. -/
def cosBasis32 : List (List Nat) :=
  cosBasis32Part0 ++ cosBasis32Part1 ++ cosBasis32Part2 ++ cosBasis32Part3 ++ cosBasis32Part4 ++ cosBasis32Part5 ++ cosBasis32Part6 ++ cosBasis32Part7

end Sys2Proof.Machine
end

