-- ==== Sys2Proof/Machine/Float.lean ====
section
/-! DEFINITION. The datapath's arithmetic (41_datapath.md R96 to R108): the formats, RN, FMUL, FADD and DOT, bit exact.

Every finite element is an integer multiple of 2^(−Q), the smallest subnormal, so exact sums are integers and exact products
are integers over 2^Q: RN is computed on those (log entry 19). -/

namespace Sys2Proof

/-- W, the element width in bits (00_scope.md R7). -/
def Fmt.width : Fmt → Nat
  | .binary64 => 64
  | .binary32 => 32

/-- The number of fraction bits (R96). -/
def Fmt.fracBits : Fmt → Nat
  | .binary64 => 52
  | .binary32 => 23

/-- The number of exponent bits (R96). -/
def Fmt.expBits : Fmt → Nat
  | .binary64 => 11
  | .binary32 => 8

/-- Q: the smallest subnormal is 2^(−Q), that is 2^(emin − p + 1) of R97. -/
def Fmt.quantum : Fmt → Nat
  | .binary64 => 1074
  | .binary32 => 149

/-- The precision p = fraction bits + 1 (R97). -/
def Fmt.prec (f : Fmt) : Nat := f.fracBits + 1

/-- The all-ones exponent, of infinities and NaNs (R96). -/
def Fmt.expOnes (f : Fmt) : Nat := 2 ^ f.expBits - 1

end Sys2Proof

namespace Sys2Proof.Machine

/-- An element from its sign and the bits below the sign. -/
def packElem (f : Fmt) (neg : Bool) (low : Nat) : Elem :=
  BitVec.ofNat 64 ((if neg then 2 ^ (f.width - 1) else 0) + low)

/-- The sign bit (R96). -/
def isNeg (f : Fmt) (e : Elem) : Bool := e.getLsbD (f.width - 1)

/-- The biased exponent field (R96). -/
def expField (f : Fmt) (e : Elem) : Nat := e.toNat / 2 ^ f.fracBits % 2 ^ f.expBits

/-- The fraction field (R96). -/
def fracField (f : Fmt) (e : Elem) : Nat := e.toNat % 2 ^ f.fracBits

/-- NaN: exponent all ones, fraction not 0 (R96). -/
def isNaN (f : Fmt) (e : Elem) : Bool := decide (expField f e = f.expOnes) && decide (fracField f e ≠ 0)

/-- ±infinity: exponent all ones, fraction 0 (R96). -/
def isInf (f : Fmt) (e : Elem) : Bool := decide (expField f e = f.expOnes) && decide (fracField f e = 0)

/-- ±0 (R96). -/
def isZero (f : Fmt) (e : Elem) : Bool := decide (expField f e = 0) && decide (fracField f e = 0)

/-- A finite element: zero, subnormal or normal (R96). -/
def isFinite (f : Fmt) (e : Elem) : Bool := decide (expField f e ≠ f.expOnes)

/-- The magnitude of a finite element, in units of 2^(−Q): a subnormal is its fraction, a normal number
(2^(p−1) + fraction) · 2^(exponent − 1) (R96). -/
def magnitude (f : Fmt) (e : Elem) : Nat :=
  if expField f e = 0 then fracField f e
  else (2 ^ f.fracBits + fracField f e) * 2 ^ (expField f e - 1)

/-- The exact value of a finite element, in units of 2^(−Q). -/
def exactValue (f : Fmt) (e : Elem) : Int :=
  if isNeg f e then - (magnitude f e : Int) else (magnitude f e : Int)

/-- CANON_NAN, the one NaN the datapath produces (R101). -/
def canonNaN : Fmt → Elem
  | .binary64 => 0x7FF8000000000000
  | .binary32 => 0x7FC00000

/-- ±infinity (R96). -/
def infElem (f : Fmt) (neg : Bool) : Elem := packElem f neg (f.expOnes * 2 ^ f.fracBits)

/-- ±0 (R96). -/
def zeroElem (f : Fmt) (neg : Bool) : Elem := packElem f neg 0

/-- `n / 2^k` rounded to the nearest integer, a tie to the even one (R97). -/
def roundNearestEven (n k : Nat) : Nat :=
  let q := n >>> k
  let twice := 2 * (n % 2 ^ k)
  if 2 ^ k < twice ∨ (twice = 2 ^ k ∧ q % 2 = 1) then q + 1 else q

/-- The low bits of RN of the magnitude `n / 2^d` units of 2^(−Q): the last `max d (bits n − p)` bits are rounded away, and
what is kept is laid out with its exponent; a carry out of the fraction moves into the exponent (R96, R97). -/
def roundedLow (f : Fmt) (n d : Nat) : Nat :=
  let k := max d (Nat.log2 n + 1 - f.prec)
  (k - d) * 2 ^ f.fracBits + roundNearestEven n k

/-- RN of the real number ± n · 2^(−Q) / 2^d (R97): round to nearest, ties to even, with gradual underflow; from the
overflow threshold on, ±infinity. The zero an underflow gives keeps the sign. -/
def rn (f : Fmt) (neg : Bool) (n d : Nat) : Elem :=
  if roundedLow f n d < f.expOnes * 2 ^ f.fracBits then packElem f neg (roundedLow f n d) else infElem f neg

/-- FMUL, the rounded product (R98). The exact product of two finite elements is a multiple of 2^(−2Q). -/
def fmul (f : Fmt) (a b : Elem) : Elem :=
  if isNaN f a || isNaN f b then canonNaN f
  else if (isInf f a && isZero f b) || (isZero f a && isInf f b) then canonNaN f
  else if isInf f a || isInf f b then infElem f (isNeg f a ^^ isNeg f b)
  else if isZero f a || isZero f b then zeroElem f (isNeg f a ^^ isNeg f b)
  else rn f (isNeg f a ^^ isNeg f b) (magnitude f a * magnitude f b) f.quantum

/-- FADD, the rounded sum (R99). The exact sum of two finite elements is a multiple of 2^(−Q). -/
def fadd (f : Fmt) (a b : Elem) : Elem :=
  if isNaN f a || isNaN f b then canonNaN f
  else if isInf f a && isInf f b && (isNeg f a != isNeg f b) then canonNaN f
  else if isInf f a then a
  else if isInf f b then b
  else if exactValue f a + exactValue f b = 0 then
    zeroElem f (isZero f a && isZero f b && isNeg f a && isNeg f b)
  else rn f (decide (exactValue f a + exactValue f b < 0)) (exactValue f a + exactValue f b).natAbs 0

/-- The running sum of DOT: `acc + a[k]·b[k]` in increasing k, each product rounded before it is added (R100, R107). -/
def dotFrom (f : Fmt) : Elem → List Elem → List Elem → Elem
  | acc, a :: as, b :: bs => dotFrom f (fadd f acc (fmul f a b)) as bs
  | acc, _, _ => acc

/-- DOT_N of two vectors of N ≥ 1 elements, seeded with the first product (R107). -/
def dot (f : Fmt) : List Elem → List Elem → Elem
  | a :: as, b :: bs => dotFrom f (fmul f a b) as bs
  | _, _ => zeroElem f false

end Sys2Proof.Machine
end

