-- ==== Sys2Proof/Machine/Tables.lean ====
section
/-! DEFINITION. The table generator, the alpha LUT and the fixed 4×4 ROM (40_table_generator.md R85 to R94). -/

namespace Sys2Proof.Machine

/-- B_N[j] = RN(cos(π·j/(2N))) (R87, R88). -/
def cosBasis (f : Fmt) (n j : Nat) : Elem :=
  BitVec.ofNat 64 (((match f with | .binary64 => cosBasis64 | .binary32 => cosBasis32).getD (n - 1) []).getD j 0)

/-- −v, except that +0.0 stays +0.0 (R86, R87). -/
def negEntry (f : Fmt) (e : Elem) : Elem :=
  if isZero f e then zeroElem f false else e ^^^ packElem f true 0

/-- C_N[x][u] = RN(cos(π·(2x+1)·u/(2N))) (R85), by the reduction of R87. -/
def cosEntry (f : Fmt) (n x u : Nat) : Elem :=
  let k := (2 * x + 1) * u % (4 * n)
  let k := if 2 * n < k then 4 * n - k else k
  if k ≤ n then cosBasis f n k else negEntry f (cosBasis f n (2 * n - k))

/-- The cosine table C_N, `table[x][u]` (R85). -/
def cosTable (f : Fmt) (n : Nat) : List (List Elem) :=
  (List.range n).map fun x => (List.range n).map fun u => cosEntry f n x u

/-- ALUT[N][0] and ALUT[N][1] (10_state.md R33). -/
def alphaLut (f : Fmt) (n i : Nat) : Elem :=
  BitVec.ofNat 64 (((match f with | .binary64 => alphaLut64 | .binary32 => alphaLut32).getD (n - 1) []).getD i 0)

/-- The alpha table α_N from the LUT (R89, R81). -/
def alphaTable (f : Fmt) (n : Nat) : List Elem :=
  (List.range n).map fun u => alphaLut f n (if u = 0 then 0 else 1)

/-- COS4 of the fixed 4×4 ROM (R92). -/
def cos4 : Fmt → List (List Elem)
  | .binary64 =>
    [[0x3FF0000000000000, 0x3FED906BCF328D46, 0x3FE6A09E667F3BCD, 0x3FD87DE2A6AEA963],
     [0x3FF0000000000000, 0x3FD87DE2A6AEA963, 0xBFE6A09E667F3BCD, 0xBFED906BCF328D46],
     [0x3FF0000000000000, 0xBFD87DE2A6AEA963, 0xBFE6A09E667F3BCD, 0x3FED906BCF328D46],
     [0x3FF0000000000000, 0xBFED906BCF328D46, 0x3FE6A09E667F3BCD, 0xBFD87DE2A6AEA963]]
  | .binary32 =>
    [[0x3F800000, 0x3F6C835E, 0x3F3504F3, 0x3EC3EF15],
     [0x3F800000, 0x3EC3EF15, 0xBF3504F3, 0xBF6C835E],
     [0x3F800000, 0xBEC3EF15, 0xBF3504F3, 0x3F6C835E],
     [0x3F800000, 0xBF6C835E, 0x3F3504F3, 0xBEC3EF15]]

/-- ALPHA4 of the fixed 4×4 ROM (R92). -/
def alpha4 : Fmt → List Elem
  | .binary64 => [0x3FE0000000000000, 0x3FE6A09E667F3BCD, 0x3FE6A09E667F3BCD, 0x3FE6A09E667F3BCD]
  | .binary32 => [0x3F000000, 0x3F3504F3, 0x3F3504F3, 0x3F3504F3]

/-- Entry [x][u] of a table RAM. -/
def tableEntry (t : List (List Elem)) (x u : Nat) : Elem := (t.getD x []).getD u 0

/-- Column u of a table RAM, rows 0 to n − 1: the vector a forward DOT runs along (R112). -/
def tableColumn (t : List (List Elem)) (n u : Nat) : List Elem := (List.range n).map fun x => tableEntry t x u

/-- Row x of a table RAM, columns 0 to n − 1: the vector an inverse DOT runs along (R113). -/
def tableRow (t : List (List Elem)) (n x : Nat) : List Elem := (List.range n).map fun u => tableEntry t x u

/-- Entry u of an alpha register file. -/
def alphaEntry (t : List Elem) (u : Nat) : Elem := t.getD u 0

end Sys2Proof.Machine
end

