-- ==== Sys2Proof/Machine/Operands.lean ====
section
/-! DEFINITION. Where operands and results live: the address map, the slots, the bytes of IN and OUT with their free
values, and the result shapes of the transforms (20_memory.md R42 to R55; 41_datapath.md R110). -/

namespace Sys2Proof.Machine

/-! ### The address map -/

/-- What a window offset stands for (R43). A slot target carries its indices and the word select s (`hi` = 1). -/
inductive Target where
  | id
  | cap
  | ctrl
  | status
  | acfg
  | cmd
  | inSlot (r c : Nat) (hi : Bool)
  | outSlot (r c : Nat) (hi : Bool)
  | cosrSlot (x u : Nat) (hi : Bool)
  | coscSlot (x u : Nat) (hi : Bool)
  | alpharSlot (u : Nat) (hi : Bool)
  | alphacSlot (u : Nat) (hi : Bool)
  | reserved
deriving DecidableEq, Repr

/-- The first offset of the IN window (R43). -/
def inBase : Nat := 0x08000

/-- The first offset of the OUT window (R43). -/
def outBase : Nat := 0x10000

/-- The first offset of the COSR window (R43). -/
def cosrBase : Nat := 0x18000

/-- The first offset of the COSC window (R43). -/
def coscBase : Nat := 0x20000

/-- The first offset of the ALPHAR window (R43). -/
def alpharBase : Nat := 0x28000

/-- The first offset of the ALPHAC window (R43). -/
def alphacBase : Nat := 0x28200

/-- The first offset of matrix slot (r, c) (R47). -/
def matrixSlot (base r c : Nat) : Nat := base + 512 * r + 8 * c

/-- The first offset of vector slot u (R47). -/
def vectorSlot (base u : Nat) : Nat := base + 8 * u

/-- off[14:9], the row index of a matrix slot (R47). -/
def slotRow (off : Nat) : Nat := off / 512 % 64

/-- off[8:3], the column index of a matrix slot or the index of a vector slot (R47). -/
def slotCol (off : Nat) : Nat := off / 8 % 64

/-- off[2], the word select s (R47). -/
def slotHi (off : Nat) : Bool := decide (off / 4 % 2 = 1)

/-- A register offset (R46); 0x018 to 0x0FF are reserved (R55). -/
def registerTarget : Nat → Target
  | 0x000 => .id
  | 0x004 => .cap
  | 0x008 => .ctrl
  | 0x00C => .status
  | 0x010 => .acfg
  | 0x014 => .cmd
  | _ => .reserved

/-- A matrix slot, reserved unless both indices are below NMAX (R48). -/
def matrixTarget (nmax off : Nat) (mk : Nat → Nat → Bool → Target) : Target :=
  if slotRow off < nmax ∧ slotCol off < nmax then mk (slotRow off) (slotCol off) (slotHi off) else .reserved

/-- A vector slot, reserved unless its index is below NMAX (R48). -/
def vectorTarget (nmax off : Nat) (mk : Nat → Bool → Target) : Target :=
  if slotCol off < nmax then mk (slotCol off) (slotHi off) else .reserved

/-- The address map R43 on an aligned offset. -/
def target (nmax off : Nat) : Target :=
  if off < 0x00100 then registerTarget off
  else if off < 0x08000 then .reserved
  else if off < 0x10000 then matrixTarget nmax off .inSlot
  else if off < 0x18000 then matrixTarget nmax off .outSlot
  else if off < 0x20000 then matrixTarget nmax off .cosrSlot
  else if off < 0x28000 then matrixTarget nmax off .coscSlot
  else if off < 0x28200 then vectorTarget nmax off .alpharSlot
  else if off < 0x28400 then vectorTarget nmax off .alphacSlot
  else .reserved

/-- The number of bytes an element takes in its slot: 8 in binary64, 4 in binary32 (R49, R50). -/
def elemBytes : Fmt → Nat
  | .binary64 => 8
  | .binary32 => 4

/-! ### Bytes of IN and OUT -/

/-- The byte listed at an offset, if there is one. -/
def Memory.load : Memory → Nat → Option Byte
  | [], _ => none
  | (k, b) :: m, off => if k = off then some b else Memory.load m off

/-- The byte a read of the buffers returns: the stored one, or for an unspecified byte the `n`-th fresh draw of this step
(10_state.md R41). -/
def State.byteAt (s : State) (n off : Nat) : Byte := (s.mem.load off).getD (Config.freeByte s.seq n)

/-- The 32-bit word at an offset of the buffers, little-endian (R49); `n` numbers the word reads of one step. -/
def State.wordAt (s : State) (n off : Nat) : Word :=
  Word.ofLanes (s.byteAt (4 * n) off) (s.byteAt (4 * n + 1) (off + 1)) (s.byteAt (4 * n + 2) (off + 2))
    (s.byteAt (4 * n + 3) (off + 3))

/-- The element in the slot at an offset of the buffers: binary64 is (high word, low word), binary32 the low word
(R49, R50; 41_datapath.md R110); `n` numbers the element reads of one step. -/
def State.elemAt (s : State) (n off : Nat) : Elem :=
  match s.build.fmt with
  | .binary64 => s.wordAt (2 * n + 1) (off + 4) ++ s.wordAt (2 * n) off
  | .binary32 => (0 : Word) ++ s.wordAt (2 * n) off

/-- IN[r][c] as the `n`-th element read of a completion step (R110). -/
def State.readIn (s : State) (n r c : Nat) : Elem := s.elemAt n (matrixSlot inBase r c)

/-- Word `hi` of the IN or OUT slot at an offset, as a host read returns it; word 1 reads 0 in binary32 (R50). -/
def State.slotWord (s : State) (off : Nat) (hi : Bool) : Word :=
  match s.build.fmt, hi with
  | .binary64, true => s.wordAt 0 (off + 4)
  | .binary32, true => 0
  | _, false => s.wordAt 0 off

/-- The `n` bytes of an element, lowest address first (R49). -/
def elemByteList (n : Nat) (e : Elem) : List Byte := (List.range n).map fun k => e.extractLsb' (8 * k) 8

/-- The element wholly specified at an offset of the buffers, if every byte of it is. -/
def State.elem? (s : State) (off : Nat) : Option Elem :=
  if (List.range (elemBytes s.build.fmt)).all (fun k => (s.mem.load (off + k)).isSome) then some (s.elemAt 0 off) else none

/-- IN[r][c] where it is specified (R28). -/
def State.in? (s : State) (r c : Nat) : Option Elem := s.elem? (matrixSlot inBase r c)

/-- OUT[r][c] where it is specified (R29). -/
def State.out? (s : State) (r c : Nat) : Option Elem := s.elem? (matrixSlot outBase r c)

/-! ### Configured sizes and shapes -/

/-- R = ACFG.ROWS (00_scope.md R14). -/
def State.sizeR (s : State) : Nat := s.acfg.rows.toNat

/-- C = ACFG.COLS, the size N of a 1D transform (R14; 42_transform_1d.md R111). -/
def State.sizeC (s : State) : Nat := s.acfg.cols.toNat

/-- The shape a 1D command must carry: A = 1 and B = ACFG.COLS (42_transform_1d.md R114). -/
def State.shape1d (s : State) (a b : Nat) : Bool := decide (a = 1) && decide (b = s.sizeC)

/-- The shape a 2D command must carry: A = ACFG.ROWS and B = ACFG.COLS (43_transform_2d.md R119). -/
def State.shape2d (s : State) (a b : Nat) : Bool := decide (a = s.sizeR) && decide (b = s.sizeC)

/-- A size or shape CONFIG refuses (40_table_generator.md R82). -/
def badConfig (nmax a b : Nat) (f4 : Bool) : Bool :=
  decide (a = 0) || decide (b = 0) || decide (nmax < a) || decide (nmax < b) ||
    (f4 && (decide (a ≠ 4) || decide (b ≠ 4)))

/-- The (row, column) places of an r × c block, row by row. -/
def blockPlaces (r c : Nat) : List (Nat × Nat) :=
  (List.range r).flatMap fun i => (List.range c).map fun j => (i, j)

/-- The result shape of a command: the OUT places its completion writes (R115, R121); CONFIG writes none (R81). -/
def State.resultPlaces (s : State) : Instr → List (Nat × Nat)
  | .config _ _ _ => []
  | .fwd1d _ _ => blockPlaces 1 s.sizeC
  | .inv1d _ _ => blockPlaces 1 s.sizeC
  | .fwd2d _ _ => blockPlaces s.sizeR s.sizeC
  | .inv2d _ _ => blockPlaces s.sizeR s.sizeC

end Sys2Proof.Machine
end

