-- ==== Sys2Proof/Machine/Ops.lean ====
section
/-! DEFINITION. The shared operations on memory and registers: stores, rejecting and accepting a command, completing one,
the bus response, and the resets (60_exceptions.md R124 to R130; 70_reset_and_hazards.md R146 to R150). -/

namespace Sys2Proof.Machine

/-! ### Memory -/

/-- Bytes at consecutive offsets from `off`. -/
def cellsFrom : Nat → List Byte → Memory
  | _, [] => []
  | off, b :: bs => (off, b) :: cellsFrom (off + 1) bs

/-- The bytes `bs` stored at `off`, the canonical form kept. -/
def Memory.store (m : Memory) (off : Nat) (bs : List Byte) : Memory :=
  m.filter (fun c => decide (c.1 < off)) ++ cellsFrom off bs ++ m.filter (fun c => decide (off + bs.length ≤ c.1))

/-- The `n` bytes from `off` made unspecified. -/
def Memory.forget (m : Memory) (off n : Nat) : Memory :=
  m.filter fun c => decide (c.1 < off) || decide (off + n ≤ c.1)

/-- A bus word stored at `off`, little-endian (20_memory.md R49). -/
def Memory.storeWord (m : Memory) (off : Nat) (w : Word) : Memory :=
  m.store off [w.lane 0, w.lane 1, w.lane 2, w.lane 3]

/-- An element written to the OUT slot of a place: its W bits (20_memory.md R49, R50). -/
def Memory.storeOut (f : Fmt) (m : Memory) (p : Nat × Nat) (e : Elem) : Memory :=
  m.store (matrixSlot outBase p.1 p.2) (elemByteList (elemBytes f) e)

/-- `OUT[r][c] <- value (r, c)` for every place listed. -/
def Memory.storeOuts (f : Fmt) (value : Nat × Nat → Elem) : Memory → List (Nat × Nat) → Memory
  | m, [] => m
  | m, p :: ps => Memory.storeOuts f value (m.storeOut f p (value p)) ps

/-- The OUT slots of every place listed made unspecified (10_state.md R41; 70_reset_and_hazards.md R150). -/
def Memory.forgetOuts : Memory → List (Nat × Nat) → Memory
  | m, [] => m
  | m, p :: ps => Memory.forgetOuts (m.forget (matrixSlot outBase p.1 p.2) 8) ps

/-! ### The order of steps and the bus -/

/-- One step taken: the head of the total order is behind, and the free values of the next step are fresh. -/
def State.advance (s : State) : State := { s with order := s.order.tail, seq := s.seq + 1 }

/-- The host access at the head of the order answered with `r` (60_exceptions.md R130). -/
def State.respond (r : BusResp) (s : State) : State := { s.advance with resp := some r }

/-- A bus error: the error response, and no state of the block changes (R130). -/
def State.busError (s : State) : State := s.respond .error

/-! ### Command errors, acceptance, completion -/

/-- reject(code): ERR and ERRCODE, and nothing else; the CMD write itself completes normally (R122, R125). This is the one
operation by which a command is turned away. -/
def State.reject (code : ErrCode) (s : State) : State :=
  { s.respond .written with err := true, errcode := code }

/-- accept(cmd): PEND and BUSY, and for CONFIG the active configuration is destroyed (R126; 40_table_generator.md R83). -/
def State.accept (i : Instr) (s : State) : State :=
  { s.respond .written with pend := some i, acfg := if i.isConfig then .unconfigured else s.acfg }

/-- The end of every completion: BUSY <- 0, DONE <- 1, PEND <- empty (R127). -/
def State.finish (s : State) : State := { s.advance with pend := none, done := true }

/-- Whether the ENGINE moves next: at its turn in the order, or when no access is left (60_exceptions.md R127, R128). -/
def State.engineTurn (s : State) : Bool :=
  match s.order with
  | [] => true
  | .engine :: _ => true
  | .access _ :: _ => false
  | .powerOn :: _ => false

/-- Whether this step is the completion of command `i`: the ENGINE moves and `i` is pending. Otherwise a run of `i` is its
issue by the host's CMD write (log entry 23). -/
def State.completes (i : Instr) (s : State) : Bool := s.engineTurn && decide (s.pend = some i)

/-- The issue of a transform command: BUSY, NOT_CONFIGURED, DIM_MISMATCH, in this order, else accept (R124). -/
def State.issueTransform (i : Instr) (shapeOk : Bool) (s : State) : State :=
  if s.busy then s.reject .busy
  else if !s.configured then s.reject .notConfigured
  else if !shapeOk then s.reject .dimMismatch
  else s.accept i

/-- `OUT[r][c] <- value (r, c)` over the result shape of `i`, then the end of the completion. -/
def State.writeResult (i : Instr) (value : Nat × Nat → Elem) (s : State) : State :=
  { s with mem := s.mem.storeOuts s.build.fmt value (s.resultPlaces i) }.finish

/-! ### Resets -/

/-- The OUT slots a soft reset leaves unspecified: the result shape of the aborted command (70_reset_and_hazards.md R150). -/
def State.abortedPlaces (s : State) : List (Nat × Nat) :=
  match s.pend with
  | none => []
  | some i => s.resultPlaces i

/-- Soft reset, by a CTRL write with SRST = 1 (70_reset_and_hazards.md R149, R150). IN and the other OUT slots are kept;
T is unspecified (10_state.md R40). -/
def State.softReset (s : State) : State :=
  { s.respond .written with
    doneIE := false
    errIE := false
    done := false
    err := false
    errcode := .none
    acfg := .unconfigured
    pend := none
    mem := s.mem.forgetOuts s.abortedPlaces
    tbuf := [] }

/-- Power-on reset asserted and released: every piece of the block's state has its power-on value (R146). The rest of
the order and the count of free values stay. -/
def State.powerOn (s : State) : State :=
  { State.resetOf s.build with order := s.order.tail, seq := s.seq + 1 }

end Sys2Proof.Machine
end

