-- ==== Sys2Proof/Machine/Construct.lean ====
section
/-! DEFINITION. The construction family: CONFIG (40_table_generator.md R81 to R84). -/

namespace Sys2Proof.Machine

/-- CONFIG's issue: BUSY, then INVALID_CONFIG, else accept (R82, R124). -/
def issueConfig (rows cols : Nat) (f4 : Bool) (s : State) : State :=
  if s.busy then s.reject .busy
  else if badConfig s.build.nmax rows cols f4 then s.reject .invalidConfig
  else s.accept (.config rows cols f4)

/-- The tables installed from the fixed 4×4 ROM (R81, R92). -/
def State.installFixed (s : State) : State :=
  { s with
    cosr := cos4 s.build.fmt
    cosc := cos4 s.build.fmt
    alphar := alpha4 s.build.fmt
    alphac := alpha4 s.build.fmt }

/-- The tables installed by the table generator and the alpha LUT: row tables of size ROWS, column tables of size COLS
(R81, R91). -/
def State.installGenerated (rows cols : Nat) (s : State) : State :=
  { s with
    cosr := cosTable s.build.fmt rows
    cosc := cosTable s.build.fmt cols
    alphar := alphaTable s.build.fmt rows
    alphac := alphaTable s.build.fmt cols }

/-- CONFIG's completion: the tables, then ACFG, in one step (R81, R84). -/
def completeConfig (rows cols : Nat) (f4 : Bool) (s : State) : State :=
  { (if f4 then s.installFixed else s.installGenerated rows cols) with
    acfg := { rows := BitVec.ofNat 8 rows, cols := BitVec.ofNat 8 cols, f4 := f4 } }.finish

/-- CONFIG (R81): its completion when the ENGINE moves with it pending, else its issue. -/
def execConfig (rows cols : Nat) (f4 : Bool) (s : State) : Host.Outcome State Fault Refusal :=
  if s.completes (.config rows cols f4) then .next (completeConfig rows cols f4 s)
  else .next (issueConfig rows cols f4 s)

end Sys2Proof.Machine
end

