-- ==== Sys2Proof/Machine/Transform1d.lean ====
section
/-! DEFINITION. The one-dimensional transforms FWD1D and INV1D (42_transform_1d.md R111 to R115): row 0 of IN to row 0
of OUT with the tables of size N = ACFG.COLS. Each mention of IN in the rules' pseudocode is one element read of the
completion step, numbered in the order of the loops (log entry 6). -/

namespace Sys2Proof.Machine

/-- F[u] = FMUL(ALPHAC[u], DOT_N(f, column u of COSC)), the operand read afresh for each u (R112). -/
def fwd1dValue (s : State) (u : Nat) : Elem :=
  fmul s.build.fmt (alphaEntry s.alphac u)
    (dot s.build.fmt ((List.range s.sizeC).map fun x => s.readIn (u * s.sizeC + x) 0 x)
      (tableColumn s.cosc s.sizeC u))

/-- FWD1D's completion (R112). -/
def completeFwd1d (lenR lenC : Nat) (s : State) : State :=
  s.writeResult (.fwd1d lenR lenC) fun p => fwd1dValue s p.2

/-- FWD1D (R112): its completion when the ENGINE moves with it pending, else its issue. -/
def execFwd1d (lenR lenC : Nat) (s : State) : Host.Outcome State Fault Refusal :=
  if s.completes (.fwd1d lenR lenC) then .next (completeFwd1d lenR lenC s)
  else .next (s.issueTransform (.fwd1d lenR lenC) (s.shape1d lenR lenC))

/-- g[u] = FMUL(ALPHAC[u], IN[0][u]) for 0 ≤ u < N, held in T (R113). -/
def inv1dScaled (s : State) : List Elem :=
  (List.range s.sizeC).map fun u => fmul s.build.fmt (alphaEntry s.alphac u) (s.readIn u 0 u)

/-- f[x] = DOT_N(g, row x of COSC), with g read from T (R113). -/
def inv1dValue (s : State) (x : Nat) : Elem :=
  dot s.build.fmt ((List.range s.sizeC).map fun u => tableEntry s.tbuf 0 u) (tableRow s.cosc s.sizeC x)

/-- INV1D's completion: T takes g, then OUT row 0 takes its products with the rows of COSC (R113). -/
def completeInv1d (lenR lenC : Nat) (s : State) : State :=
  let t : State := { s with tbuf := [inv1dScaled s] }
  t.writeResult (.inv1d lenR lenC) fun p => inv1dValue t p.2

/-- INV1D (R113): its completion when the ENGINE moves with it pending, else its issue. -/
def execInv1d (lenR lenC : Nat) (s : State) : Host.Outcome State Fault Refusal :=
  if s.completes (.inv1d lenR lenC) then .next (completeInv1d lenR lenC s)
  else .next (s.issueTransform (.inv1d lenR lenC) (s.shape1d lenR lenC))

end Sys2Proof.Machine
end

