-- ==== Sys2Proof/Machine/Transform2d.lean ====
section
/-! DEFINITION. The two-dimensional transforms FWD2D and INV2D (43_transform_2d.md R116 to R121): two passes of 1D
transforms with T between them, on both paths alike (R120). Element reads of IN are numbered in the order of the rules'
loops (log entry 6). -/

namespace Sys2Proof.Machine

/-- T[r][v] of the forward row pass: row r of IN, size C, column tables (R117). -/
def fwdRowPass (s : State) (r v : Nat) : Elem :=
  fmul s.build.fmt (alphaEntry s.alphac v)
    (dot s.build.fmt ((List.range s.sizeC).map fun y => s.readIn ((r * s.sizeC + v) * s.sizeC + y) r y)
      (tableColumn s.cosc s.sizeC v))

/-- OUT[u][v] of the forward column pass: column v of T, size R, row tables (R117). -/
def fwdColPass (s : State) (u v : Nat) : Elem :=
  fmul s.build.fmt (alphaEntry s.alphar u)
    (dot s.build.fmt ((List.range s.sizeR).map fun x => tableEntry s.tbuf x v) (tableColumn s.cosr s.sizeR u))

/-- T after a pass that fills its R × C region. -/
def State.fillT (pass : Nat → Nat → Elem) (s : State) : State :=
  { s with tbuf := (List.range s.sizeR).map fun r => (List.range s.sizeC).map fun c => pass r c }

/-- FWD2D's completion: the row pass into T, then the column pass into OUT (R117). -/
def completeFwd2d (lenR lenC : Nat) (s : State) : State :=
  let t := s.fillT (fwdRowPass s)
  t.writeResult (.fwd2d lenR lenC) fun p => fwdColPass t p.1 p.2

/-- FWD2D (R117): its completion when the ENGINE moves with it pending, else its issue. -/
def execFwd2d (lenR lenC : Nat) (s : State) : Host.Outcome State Fault Refusal :=
  if s.completes (.fwd2d lenR lenC) then .next (completeFwd2d lenR lenC s)
  else .next (s.issueTransform (.fwd2d lenR lenC) (s.shape2d lenR lenC))

/-- T[x][v] of the inverse column pass: g = ALPHAR ⊙ column v of IN, then DOT_R with row x of COSR (R118). -/
def invColPass (s : State) (x v : Nat) : Elem :=
  dot s.build.fmt
    ((List.range s.sizeR).map fun u => fmul s.build.fmt (alphaEntry s.alphar u) (s.readIn (v * s.sizeR + u) u v))
    (tableRow s.cosr s.sizeR x)

/-- OUT[x][y] of the inverse row pass: h = ALPHAC ⊙ row x of T, then DOT_C with row y of COSC (R118). -/
def invRowPass (s : State) (x y : Nat) : Elem :=
  dot s.build.fmt
    ((List.range s.sizeC).map fun v => fmul s.build.fmt (alphaEntry s.alphac v) (tableEntry s.tbuf x v))
    (tableRow s.cosc s.sizeC y)

/-- INV2D's completion: the inverse column pass into T, then the inverse row pass into OUT (R118). -/
def completeInv2d (lenR lenC : Nat) (s : State) : State :=
  let t := s.fillT (invColPass s)
  t.writeResult (.inv2d lenR lenC) fun p => invRowPass t p.1 p.2

/-- INV2D (R118): its completion when the ENGINE moves with it pending, else its issue. -/
def execInv2d (lenR lenC : Nat) (s : State) : Host.Outcome State Fault Refusal :=
  if s.completes (.inv2d lenR lenC) then .next (completeInv2d lenR lenC s)
  else .next (s.issueTransform (.inv2d lenR lenC) (s.shape2d lenR lenC))

end Sys2Proof.Machine
end

