-- ==== Sys2Proof/Machine/Dispatch.lean ====
section
/-! DEFINITION. One arm per command (spec/opcode_table.json): each calls its meaning. -/

namespace Sys2Proof.Machine

def exec (i : Instr) (s : State) : Host.Outcome State Fault Refusal :=
  match i with
  | .config rows cols f4 => Sys2Proof.Machine.execConfig rows cols f4 s
  | .fwd1d lenR lenC => Sys2Proof.Machine.execFwd1d lenR lenC s
  | .inv1d lenR lenC => Sys2Proof.Machine.execInv1d lenR lenC s
  | .fwd2d lenR lenC => Sys2Proof.Machine.execFwd2d lenR lenC s
  | .inv2d lenR lenC => Sys2Proof.Machine.execInv2d lenR lenC s

end Sys2Proof.Machine
end

