-- ==== Sys2Proof/Machine/Bus.lean ====
section
/-! DEFINITION. Host accesses: the access checks, the register and window reads and writes, and the issue of a command
word (20_memory.md R42 to R57; 60_exceptions.md R124, R129, R130). -/

namespace Sys2Proof.Machine

/-- Whether a system address lies in the block's window [BASE, BASE + 2^18) (R42). -/
def inWindow (b : Build) (addr : Nat) : Bool := decide (b.base ≤ addr) && decide (addr < b.base + 0x40000)

/-- The data the bus returns with a response: the data of a read, and 0 with an error (R52 to R55; 60_exceptions.md R130).
A write returns none, which is written 0 here. -/
def BusResp.readData : BusResp → Word
  | .data w => w
  | .written => 0
  | .error => 0

/-- The form every access must have: 32 bits wide (R44) at an aligned offset (R45). -/
def formOk (width off : Nat) : Bool := decide (width = 32) && decide (off % 4 = 0)

/-- A word of a table window: TAB's word inside the active region, else 0 (R53, R54). -/
def tableWord (active : Bool) (e : Elem) (hi : Bool) : Word := if active then e.word hi else 0

/-- What a read that depends on BUSY = 0 returns (R52 to R54): nothing, that is a bus error, while BUSY = 1. -/
def State.unlessBusy (s : State) (w : Word) : Option Word := if s.busy then none else some w

/-- Whether (x, u) lies in the active region of a table of size n (R53). -/
def State.active (s : State) (n x u : Nat) : Bool := s.configured && decide (x < n) && decide (u < n)

/-- The data of a read, or none where the block refuses it with a bus error (R51 to R55; 10_state.md R20 to R26). -/
def State.readTarget (s : State) : Target → Option Word
  | .id => some idValue
  | .cap => some (capValue s.build)
  | .ctrl => some s.ctrlValue
  | .status => some s.statusValue
  | .acfg => some s.acfgValue
  | .cmd => some 0
  | .inSlot r c hi => some (s.slotWord (matrixSlot inBase r c) hi)
  | .outSlot r c hi => s.unlessBusy (s.slotWord (matrixSlot outBase r c) hi)
  | .cosrSlot x u hi => s.unlessBusy (tableWord (s.active s.sizeR x u) (tableEntry s.cosr x u) hi)
  | .coscSlot x u hi => s.unlessBusy (tableWord (s.active s.sizeC x u) (tableEntry s.cosc x u) hi)
  | .alpharSlot u hi => s.unlessBusy (tableWord (s.active s.sizeR u u) (alphaEntry s.alphar u) hi)
  | .alphacSlot u hi => s.unlessBusy (tableWord (s.active s.sizeC u u) (alphaEntry s.alphac u) hi)
  | .reserved => none

/-- A write of word `hi` of IN[r][c]: word 1 is ignored in binary32 (R50, R51). -/
def State.writeIn (r c : Nat) (hi : Bool) (d : Word) (s : State) : State :=
  match s.build.fmt, hi with
  | .binary64, true => { s with mem := s.mem.storeWord (matrixSlot inBase r c + 4) d }
  | .binary32, true => s
  | _, false => { s with mem := s.mem.storeWord (matrixSlot inBase r c) d }

/-- The issue of a command word by a CMD write (60_exceptions.md R124): BUSY first, then an illegal word, then the
command's own checks. -/
def issueWord (w : Word) (s : State) : Host.Outcome State Fault Refusal :=
  match decode w with
  | .cmd i => exec i s
  | .illegal _ => .next (s.reject (if s.busy then .busy else .illegalCmd))

/-- A write of `d` with all strobes to a target (R51 to R57; 10_state.md R22, R23, R27). -/
def writeTarget (d : Word) (s : State) : Target → Host.Outcome State Fault Refusal
  | .cmd => issueWord d s
  | .ctrl => .next (if d.getLsbD 31 then s.softReset else (s.setEnables d).respond .written)
  | .status => .next ((s.clearStatus d).respond .written)
  | .inSlot r c hi => .next (if s.busy then s.busError else (s.writeIn r c hi d).respond .written)
  | .id => .next s.busError
  | .cap => .next s.busError
  | .acfg => .next s.busError
  | .outSlot _ _ _ => .next s.busError
  | .cosrSlot _ _ _ => .next s.busError
  | .coscSlot _ _ _ => .next s.busError
  | .alpharSlot _ _ => .next s.busError
  | .alphacSlot _ _ => .next s.busError
  | .reserved => .next s.busError

/-- A read at window offset `off` (R129, R130). -/
def readAccess (width off : Nat) (s : State) : State :=
  if formOk width off then
    match s.readTarget (target s.build.nmax off) with
    | some w => s.respond (.data w)
    | none => s.busError
  else s.busError

/-- A write at window offset `off` (R129, R130): all four strobes must be set (R44). -/
def writeAccess (width off : Nat) (strobes : BitVec 4) (d : Word) (s : State) : Host.Outcome State Fault Refusal :=
  if formOk width off && decide (strobes = 0xF) then writeTarget d s (target s.build.nmax off) else .next s.busError

/-- One host access, at the head of the order. -/
def hostAccess (a : Access) (s : State) : Host.Outcome State Fault Refusal :=
  match a with
  | .read addr width =>
    if inWindow s.build addr then .next (readAccess width (addr - s.build.base) s) else .fault .outsideWindow
  | .write addr width strobes d =>
    if inWindow s.build addr then writeAccess width (addr - s.build.base) strobes d s else .fault .outsideWindow

/-- The ENGINE's step: the completion of the pending command (60_exceptions.md R127), or nothing when none is pending. -/
def engineStep (idle : State) (s : State) : Host.Outcome State Fault Refusal :=
  match s.pend with
  | some i => exec i s
  | none => .next idle

/-- The CMD write of a whole command word, as the host performs it (30_encoding.md R78). -/
def cmdWrite (b : Build) (w : Word) : Event := .access (.write (b.base + 0x014) 32 0xF w)

end Sys2Proof.Machine
end

