-- ==== Sys2Proof/Machine/Step.lean ====
section
/-! DEFINITION. One step of the machine: the next place of the total order (20_memory.md R60), and how a command word is
placed where the next step takes it. -/

namespace Sys2Proof.Machine

/-- One step: the host access, ENGINE turn or power-on reset at the head of the order. With nothing left in the order a
BUSY engine completes (60_exceptions.md R128) and an idle block does nothing (70_reset_and_hazards.md R151). -/
def step (s : State) : Host.Outcome State Fault Refusal :=
  match s.order with
  | [] => engineStep s s
  | .engine :: _ => engineStep s.advance s
  | .powerOn :: _ => .next s.powerOn
  | .access a :: _ => hostAccess a s

/-- `s` with the next place of the order a host's CMD write of the command word `w`: the very next step issues it (log
entry 2). A command is one 32-bit word (30_encoding.md R69). -/
def State.withFetchWord (s : State) (nbits w : Nat) : State :=
  { s with order := cmdWrite s.build (BitVec.ofNat 32 (w % 2 ^ nbits)) :: s.order }

end Sys2Proof.Machine
end

