-- ==== Sys2Proof/Safety.lean ====
section
/-! DEFINITION. What a safe state and a safe run are, in the terms the claims use: the machine's invariant, the accesses
the block decodes, the reserved offsets and the bus errors, as the rules list them. -/

namespace Sys2Proof.Machine

/-! ### The invariant -/

/-- ACFG is unconfigured, or a legal configuration (10_state.md R25). -/
def Acfg.legal (nmax : Nat) (a : Acfg) : Bool :=
  decide (a = .unconfigured) ||
    (decide (1 ≤ a.rows.toNat) && decide (a.rows.toNat ≤ nmax) && decide (1 ≤ a.cols.toNat) &&
      decide (a.cols.toNat ≤ nmax) && (!a.f4 || (decide (a.rows = 4) && decide (a.cols = 4))))

/-- The pending command passed its issue checks: a CONFIG has good sizes and has cleared ACFG; a transform carries the
shape of the active configuration (60_exceptions.md R124, R126; 40_table_generator.md R83). -/
def State.pendLegal (s : State) : Bool :=
  match s.pend with
  | none => true
  | some (.config r c f4) => !badConfig s.build.nmax r c f4 && decide (s.acfg = .unconfigured)
  | some (.fwd1d a b) => s.configured && s.shape1d a b
  | some (.inv1d a b) => s.configured && s.shape1d a b
  | some (.fwd2d a b) => s.configured && s.shape2d a b
  | some (.inv2d a b) => s.configured && s.shape2d a b

/-- While configured, the tables hold C_R, C_C, α_R and α_C (10_state.md R32). -/
def State.tablesInstalled (s : State) : Bool :=
  !s.configured ||
    (decide (s.cosr = cosTable s.build.fmt s.sizeR) && decide (s.cosc = cosTable s.build.fmt s.sizeC) &&
      decide (s.alphar = alphaTable s.build.fmt s.sizeR) && decide (s.alphac = alphaTable s.build.fmt s.sizeC))

/-- ERRCODE is 0 exactly while ERR = 0 (10_state.md R23). -/
def State.errLegal (s : State) : Bool := decide (s.err = true ↔ s.errcode ≠ .none)

/-- An offset at which a byte of IN or OUT is stored: in a backed slot, in the element's own bytes (20_memory.md R43, R48,
R50). -/
def bufferByte (b : Build) (off : Nat) : Bool :=
  decide (inBase ≤ off) && decide (off < cosrBase) && decide (slotRow off < b.nmax) && decide (slotCol off < b.nmax) &&
    decide (off % 8 < elemBytes b.fmt)

/-- The memory is in canonical form, and lists only bytes of IN and OUT (10_state.md R28, R29). -/
def State.memLegal (s : State) : Prop := s.mem.wf ∧ ∀ c ∈ s.mem, bufferByte s.build c.1 = true

/-- The machine's invariant: it holds after reset, and every step keeps it. -/
structure State.Inv (s : State) : Prop where
  build  : s.build.ok = true
  acfg   : s.acfg.legal s.build.nmax = true
  pend   : s.pendLegal = true
  tables : s.tablesInstalled = true
  err    : s.errLegal = true
  mem    : s.memLegal

/-! ### Accesses the block decodes -/

/-- Whether an event is one the block itself answers or performs: everything but an access outside its window. -/
def Event.decoded (b : Build) : Event → Bool
  | .access (.read addr _) => inWindow b addr
  | .access (.write addr _ _ _) => inWindow b addr
  | .engine => true
  | .powerOn => true

/-- A run that never leaves the block: no access to come lies outside the window. -/
def State.inWindowRun (s : State) : Bool := s.order.all (Event.decoded s.build)

/-- The reserved offsets, as 20_memory.md R55 lists them (for aligned offsets below 0x40000). -/
def reservedOffset (nmax off : Nat) : Prop :=
  (0x018 ≤ off ∧ off < 0x08000) ∨ 0x28400 ≤ off ∨
  (0x08000 ≤ off ∧ off < 0x28000 ∧ (nmax ≤ off / 512 % 64 ∨ nmax ≤ off / 8 % 64)) ∨
  (0x28000 ≤ off ∧ off < 0x28400 ∧ nmax ≤ off / 8 % 64)

/-- The reads that get a bus error, by 60_exceptions.md R129. -/
def readRefused (s : State) (width off : Nat) : Prop :=
  width ≠ 32 ∨ off % 4 ≠ 0 ∨ reservedOffset s.build.nmax off ∨ (0x10000 ≤ off ∧ s.busy = true)

/-- The writes that get a bus error, by 60_exceptions.md R129: ID, CAP and ACFG, and every window but IN, refuse writes. -/
def writeRefused (s : State) (width off : Nat) (strobes : BitVec 4) : Prop :=
  width ≠ 32 ∨ strobes ≠ 0xF ∨ off % 4 ≠ 0 ∨ reservedOffset s.build.nmax off ∨ off = 0x000 ∨ off = 0x004 ∨ off = 0x010 ∨
  0x10000 ≤ off ∨ (0x08000 ≤ off ∧ off < 0x10000 ∧ s.busy = true)

/-- The bytes of the IN window (20_memory.md R43). -/
def inWindowByte (off : Nat) : Prop := 0x08000 ≤ off ∧ off < 0x10000

/-- The bytes of the OUT window (20_memory.md R43). -/
def outWindowByte (off : Nat) : Prop := 0x10000 ≤ off ∧ off < 0x18000

end Sys2Proof.Machine
end

