-- ==== Sys2Proof/Certificates/Slice0/Obligations.lean ====
section
/-! DEFINITION. The statements about the model, for the provers: encoding, the step, the issue and the completion of every
command, the bus, the resets, the machine's invariant, the datapath and the tables. -/

open Sys2Proof Sys2Proof.Machine

/-! ### Encoding -/

/-- Words written out from R76's examples and the table of 95_test_vectors.md section 2.1. -/
def Obligations.CommandWordsDecode : Prop :=
  decode 0x00040401 = .cmd (.config 4 4 false) ∧ decode 0x01040401 = .cmd (.config 4 4 true) ∧
  decode 0x00040102 = .cmd (.fwd1d 1 4) ∧ decode 0x00040103 = .cmd (.inv1d 1 4) ∧
  decode 0x00040404 = .cmd (.fwd2d 4 4) ∧ decode 0x00030205 = .cmd (.inv2d 2 3) ∧
  decode 0x00000000 = .illegal .opcode ∧ decode 0x00040406 = .illegal .opcode ∧
  decode 0x01040102 = .illegal .f4OnTransform ∧ decode 0x02040401 = .illegal .reserved

/-- Decoding the word of a well-formed command gives the command back, with every operand at every value (R69 to R71, R76). -/
def Obligations.DecodeOfEncodeIsTheCommand : Prop :=
  ∀ i : Instr, i.wellFormed = true → decode (encode i) = .cmd i

/-- A command has one word only: a word that decodes is the encoding of what it decodes to (R69, R70). -/
def Obligations.EncodeOfDecodeIsTheWord : Prop :=
  ∀ (w : Word) (i : Instr), decode w = .cmd i → encode i = w ∧ i.wellFormed = true

/-- R73: which words are legal encodings, and what they decode to. Legality does not depend on A or B, since the
condition does not name them. -/
def Obligations.LegalEncodingsDecode : Prop :=
  ∀ w : Word,
    (1 ≤ (w.extractLsb' 0 8).toNat ∧ (w.extractLsb' 0 8).toNat ≤ 5 ∧ w.extractLsb' 25 7 = 0 ∧
        (w.getLsbD 24 = false ∨ (w.extractLsb' 0 8).toNat = 1) →
      ∃ i, decode w = .cmd i ∧ opcodeOf i = w.extractLsb' 0 8 ∧ i.a = (w.extractLsb' 8 8).toNat ∧
        i.b = (w.extractLsb' 16 8).toNat ∧ i.f4 = w.getLsbD 24) ∧
    (¬ (1 ≤ (w.extractLsb' 0 8).toNat ∧ (w.extractLsb' 0 8).toNat ≤ 5 ∧ w.extractLsb' 25 7 = 0 ∧
        (w.getLsbD 24 = false ∨ (w.extractLsb' 0 8).toNat = 1)) →
      ∃ why, decode w = .illegal why)

/-! ### The step -/

/-- A CMD write whose word decodes to command `i` runs `i`: its issue. The CMD write stands at BASE + 0x014, 32 bits wide,
with all strobes (R124). What the step adds around exec is nothing: the meaning itself takes the access from the order. -/
def Obligations.StepRunsTheIssuedCommand : Prop :=
  ∀ (s : State) (w : Word) (i : Instr) (rest : List Event),
    s.order = .access (.write (s.build.base + 0x014) 32 0xF w) :: rest → decode w = .cmd i → step s = exec i s

/-- The ENGINE's step runs the pending command: its completion (R127). -/
def Obligations.StepRunsThePendingCommand : Prop :=
  ∀ (s : State) (i : Instr), (s.order = [] ∨ ∃ rest, s.order = .engine :: rest) → s.pend = some i → step s = exec i s

/-- R74 (with R124's order): an illegal word written to CMD is rejected, with BUSY while a command runs and ILLEGAL_CMD
otherwise, and has no other effect. -/
def Obligations.IllegalWordIsRejected : Prop :=
  ∀ (s : State) (w : Word) (why : Illegal) (rest : List Event),
    s.order = .access (.write (s.build.base + 0x014) 32 0xF w) :: rest → decode w = .illegal why →
    step s = .next { s with
      order := rest, seq := s.seq + 1, resp := some .written, err := true,
      errcode := if s.pend = none then .illegalCmd else .busy }

/-- The block does nothing on its own while no command is pending (R151), and an ENGINE turn that is not enabled changes
nothing of the block (R127; log entry 3). -/
def Obligations.IdleBlockDoesNothing : Prop :=
  ∀ s : State, s.pend = none →
    (s.order = [] → step s = .next s) ∧
    (∀ rest, s.order = .engine :: rest → step s = .next { s with order := rest, seq := s.seq + 1 })

/-- The step is total: no instruction is refused, and the only fault is an access outside the block's window (the model's
choice, log entry 13), whatever the state. -/
def Obligations.StepStopsOnlyOutsideTheWindow : Prop :=
  ∀ s : State,
    (∀ r, step s ≠ .refused r) ∧
    (∀ e, step s = .fault e ↔ e = .outsideWindow ∧
      ∃ (a : Access) (rest : List Event), s.order = .access a :: rest ∧ Event.decoded s.build (.access a) = false)

/-! ### The issue of each command -/

/-- CONFIG's issue on an idle block (R82, R83, R124): refused with INVALID_CONFIG on a size of 0, a size above NMAX or F4
with another shape than 4 × 4; otherwise accepted, with ACFG cleared. Nothing else changes. -/
def Obligations.ConfigIssue : Prop :=
  ∀ (s : State) (r c : Nat) (f4 : Bool), s.pend = none →
    ((r = 0 ∨ c = 0 ∨ s.build.nmax < r ∨ s.build.nmax < c ∨ (f4 = true ∧ (r ≠ 4 ∨ c ≠ 4))) →
      exec (.config r c f4) s = .next { s with
        order := s.order.tail, seq := s.seq + 1, resp := some .written, err := true, errcode := .invalidConfig }) ∧
    (¬ (r = 0 ∨ c = 0 ∨ s.build.nmax < r ∨ s.build.nmax < c ∨ (f4 = true ∧ (r ≠ 4 ∨ c ≠ 4))) →
      exec (.config r c f4) s = .next { s with
        order := s.order.tail, seq := s.seq + 1, resp := some .written, pend := some (.config r c f4),
        acfg := { rows := 0, cols := 0, f4 := false } })

/-- R114: a 1D command's issue on an idle, configured block: accepted when A = 1 and B = ACFG.COLS (R126), otherwise refused
with DIM_MISMATCH, and so for A = 0, B = 0 and B > NMAX wherever ACFG is legal (R25). Nothing else changes. -/
def Obligations.OneDimensionalIssue : Prop :=
  ∀ (s : State) (i : Instr) (a b : Nat), i = .fwd1d a b ∨ i = .inv1d a b → s.pend = none → s.acfg.rows ≠ 0 →
    let refused := { s with
      order := s.order.tail, seq := s.seq + 1, resp := some .written, err := true, errcode := .dimMismatch }
    (a = 1 ∧ b = s.acfg.cols.toNat →
      exec i s = .next { s with
        order := s.order.tail, seq := s.seq + 1, resp := some .written, pend := some i }) ∧
    (¬ (a = 1 ∧ b = s.acfg.cols.toNat) → exec i s = .next refused) ∧
    (s.acfg.legal s.build.nmax = true → a = 0 ∨ b = 0 ∨ s.build.nmax < b → exec i s = .next refused)

/-- A 2D command's issue on an idle, configured block (R119, R124, R126): accepted when A = ACFG.ROWS and B = ACFG.COLS,
otherwise refused with DIM_MISMATCH. Nothing else changes. -/
def Obligations.TwoDimensionalIssue : Prop :=
  ∀ (s : State) (i : Instr) (a b : Nat), i = .fwd2d a b ∨ i = .inv2d a b → s.pend = none → s.acfg.rows ≠ 0 →
    (a = s.acfg.rows.toNat ∧ b = s.acfg.cols.toNat →
      exec i s = .next { s with
        order := s.order.tail, seq := s.seq + 1, resp := some .written, pend := some i }) ∧
    (¬ (a = s.acfg.rows.toNat ∧ b = s.acfg.cols.toNat) →
      exec i s = .next { s with
        order := s.order.tail, seq := s.seq + 1, resp := some .written, err := true, errcode := .dimMismatch })

/-- A transform on an idle, unconfigured block is refused with NOT_CONFIGURED, whatever its shape (R124, R151). -/
def Obligations.TransformNeedsConfiguration : Prop :=
  ∀ (s : State) (i : Instr), i.isConfig = false → s.pend = none → s.acfg.rows = 0 →
    exec i s = .next { s with
      order := s.order.tail, seq := s.seq + 1, resp := some .written, err := true, errcode := .notConfigured }

/-- R153: any word written to CMD while a command is pending is rejected with BUSY; it is not queued, and the running command
is unaffected. -/
def Obligations.CommandWhileBusyIsRejected : Prop :=
  ∀ (s : State) (w : Word) (j : Instr) (rest : List Event),
    s.order = .access (.write (s.build.base + 0x014) 32 0xF w) :: rest → s.pend = some j →
    step s = .next { s with
      order := rest, seq := s.seq + 1, resp := some .written, err := true, errcode := .busy }

/-- R124, R125 and R126: the whole issue procedure, from the bits of the word: the checks in their order, what a rejection
does and what an acceptance does. -/
def Obligations.IssueProcedure : Prop :=
  ∀ (s : State) (w : Word) (rest : List Event),
    s.order = .access (.write (s.build.base + 0x014) 32 0xF w) :: rest →
    let op := (w.extractLsb' 0 8).toNat
    let a := (w.extractLsb' 8 8).toNat
    let b := (w.extractLsb' 16 8).toNat
    let f4 := w.getLsbD 24
    let rejected : ErrCode → State := fun code =>
      { s with order := rest, seq := s.seq + 1, resp := some .written, err := true, errcode := code }
    let accepted : Instr → Acfg → State := fun i acfg =>
      { s with order := rest, seq := s.seq + 1, resp := some .written, pend := some i, acfg := acfg }
    step s = .next (
      if s.pend ≠ none then rejected .busy
      else if ¬ (1 ≤ op ∧ op ≤ 5 ∧ w.extractLsb' 25 7 = 0 ∧ (f4 = false ∨ op = 1)) then rejected .illegalCmd
      else if op = 1 then
        if a = 0 ∨ b = 0 ∨ s.build.nmax < a ∨ s.build.nmax < b ∨ (f4 = true ∧ (a ≠ 4 ∨ b ≠ 4)) then rejected .invalidConfig
        else accepted (.config a b f4) { rows := 0, cols := 0, f4 := false }
      else if s.acfg.rows = 0 then rejected .notConfigured
      else if op ≤ 3 ∧ ¬ (a = 1 ∧ b = s.acfg.cols.toNat) then rejected .dimMismatch
      else if 4 ≤ op ∧ ¬ (a = s.acfg.rows.toNat ∧ b = s.acfg.cols.toNat) then rejected .dimMismatch
      else accepted (if op = 2 then .fwd1d a b else if op = 3 then .inv1d a b else if op = 4 then .fwd2d a b else .inv2d a b)
        s.acfg)

/-! ### The completion of each command -/

/-- CONFIG's completion (R81): the tables of the fixed 4×4 ROM, or C_R, C_C, α_R and α_C from the table generator and the
alpha LUT, then ACFG, BUSY = 0 and DONE = 1, in one step; IN, OUT and everything else are unchanged. -/
def Obligations.ConfigCompletion : Prop :=
  ∀ (s : State) (r c : Nat) (f4 : Bool), (s.order = [] ∨ ∃ rest, s.order = .engine :: rest) →
    s.pend = some (.config r c f4) →
    exec (.config r c f4) s = .next { s with
      order := s.order.tail
      seq := s.seq + 1
      pend := none
      done := true
      acfg := { rows := BitVec.ofNat 8 r, cols := BitVec.ofNat 8 c, f4 := f4 }
      cosr := if f4 then cos4 s.build.fmt else
        (List.range r).map fun x => (List.range r).map fun u => cosEntry s.build.fmt r x u
      cosc := if f4 then cos4 s.build.fmt else
        (List.range c).map fun x => (List.range c).map fun u => cosEntry s.build.fmt c x u
      alphar := if f4 then alpha4 s.build.fmt else
        (List.range r).map fun u => if u = 0 then alphaLut s.build.fmt r 0 else alphaLut s.build.fmt r 1
      alphac := if f4 then alpha4 s.build.fmt else
        (List.range c).map fun u => if u = 0 then alphaLut s.build.fmt c 0 else alphaLut s.build.fmt c 1 }

/-- FWD1D's completion (R112, R115), N = ACFG.COLS: OUT[0][u] = FMUL(ALPHAC[u], DOT_N(IN row 0, column u of COSC)) for
every u < N; no other byte of memory and no other register or table changes but STATUS.BUSY = 0 and DONE = 1. An
unspecified operand byte is a free value, fresh at each read (log entry 6). -/
def Obligations.Fwd1dCompletion : Prop :=
  ∀ (s : State) (a b : Nat), (s.order = [] ∨ ∃ rest, s.order = .engine :: rest) → s.pend = some (.fwd1d a b) →
    let f := s.build.fmt
    let n := s.acfg.cols.toNat
    ∃ t, exec (.fwd1d a b) s = .next t ∧
      t = { s with order := s.order.tail, seq := s.seq + 1, pend := none, done := true, mem := t.mem } ∧
      (∀ u, u < n → t.out? 0 u = some (fmul f (alphaEntry s.alphac u)
        (dot f ((List.range n).map fun x => s.readIn (u * n + x) 0 x)
          ((List.range n).map fun x => tableEntry s.cosc x u)))) ∧
      (∀ off, (∀ u, u < n → ¬ (0x10000 + 8 * u ≤ off ∧ off < 0x10000 + 8 * u + elemBytes f)) →
        t.mem.load off = s.mem.load off)

/-- INV1D's completion (R113, R115), N = ACFG.COLS: with g[u] = FMUL(ALPHAC[u], IN[0][u]), OUT[0][x] = DOT_N(g, row x of
COSC) for every x < N; no other byte of memory and no other register or table changes but STATUS.BUSY = 0 and DONE = 1
(T, which no access observes, takes g: log entry 11). Each IN slot is read once; an unspecified operand byte is a free
value, numbered by its read as a model's choice (log entries 5 and 6). -/
def Obligations.Inv1dCompletion : Prop :=
  ∀ (s : State) (a b : Nat), (s.order = [] ∨ ∃ rest, s.order = .engine :: rest) → s.pend = some (.inv1d a b) →
    let f := s.build.fmt
    let n := s.acfg.cols.toNat
    ∃ t, exec (.inv1d a b) s = .next t ∧
      t = { s with order := s.order.tail, seq := s.seq + 1, pend := none, done := true, mem := t.mem, tbuf := t.tbuf } ∧
      (∀ x, x < n → t.out? 0 x = some
        (dot f ((List.range n).map fun u => fmul f (alphaEntry s.alphac u) (s.readIn u 0 u))
          ((List.range n).map fun u => tableEntry s.cosc x u))) ∧
      (∀ off, (∀ u, u < n → ¬ (0x10000 + 8 * u ≤ off ∧ off < 0x10000 + 8 * u + elemBytes f)) →
        t.mem.load off = s.mem.load off)

/-- FWD2D's completion (R117, R121), R = ACFG.ROWS, C = ACFG.COLS: the row pass with the column tables into T, then the
column pass with the row tables into OUT; no other byte of memory and no other register or table changes but STATUS.BUSY =
0 and DONE = 1 (T, which no access observes, takes the row pass: log entry 11). An unspecified operand byte is a free
value, and by the model's choice a fresh one at each mention of IN in the rule's loops: IN[r][y] for T[r][v] is read
number (r·C + v)·C + y (log entry 6). COLS ≤ 64 holds in every state a run reaches (R8, R25; the machine's invariant). -/
def Obligations.Fwd2dCompletion : Prop :=
  ∀ (s : State) (a b : Nat), (s.order = [] ∨ ∃ rest, s.order = .engine :: rest) → s.pend = some (.fwd2d a b) →
    s.acfg.cols.toNat ≤ 64 →
    let f := s.build.fmt
    let nr := s.acfg.rows.toNat
    let nc := s.acfg.cols.toNat
    let pass1 : Nat → Nat → Elem := fun r v => fmul f (alphaEntry s.alphac v)
      (dot f ((List.range nc).map fun y => s.readIn ((r * nc + v) * nc + y) r y)
        ((List.range nc).map fun y => tableEntry s.cosc y v))
    ∃ t, exec (.fwd2d a b) s = .next t ∧
      t = { s with order := s.order.tail, seq := s.seq + 1, pend := none, done := true, mem := t.mem, tbuf := t.tbuf } ∧
      (∀ u v, u < nr → v < nc → t.out? u v = some (fmul f (alphaEntry s.alphar u)
        (dot f ((List.range nr).map fun x => pass1 x v) ((List.range nr).map fun x => tableEntry s.cosr x u)))) ∧
      (∀ off, (∀ u v, u < nr → v < nc →
          ¬ (0x10000 + 512 * u + 8 * v ≤ off ∧ off < 0x10000 + 512 * u + 8 * v + elemBytes f)) →
        t.mem.load off = s.mem.load off)

/-- INV2D's completion (R118, R121), R = ACFG.ROWS, C = ACFG.COLS: the inverse column pass with the row tables into T, then
the inverse row pass with the column tables into OUT; no other byte of memory and no other register or table changes but
STATUS.BUSY = 0 and DONE = 1 (T, which no access observes, takes the column pass: log entry 11). Each IN slot is read
once; an unspecified operand byte is a free value, numbered by its read as a model's choice (log entries 5 and 6). COLS ≤
64 holds in every state a run reaches (R8, R25; the machine's invariant). -/
def Obligations.Inv2dCompletion : Prop :=
  ∀ (s : State) (a b : Nat), (s.order = [] ∨ ∃ rest, s.order = .engine :: rest) → s.pend = some (.inv2d a b) →
    s.acfg.cols.toNat ≤ 64 →
    let f := s.build.fmt
    let nr := s.acfg.rows.toNat
    let nc := s.acfg.cols.toNat
    let pass1 : Nat → Nat → Elem := fun x v =>
      dot f ((List.range nr).map fun u => fmul f (alphaEntry s.alphar u) (s.readIn (v * nr + u) u v))
        ((List.range nr).map fun u => tableEntry s.cosr x u)
    ∃ t, exec (.inv2d a b) s = .next t ∧
      t = { s with order := s.order.tail, seq := s.seq + 1, pend := none, done := true, mem := t.mem, tbuf := t.tbuf } ∧
      (∀ x y, x < nr → y < nc → t.out? x y = some
        (dot f ((List.range nc).map fun v => fmul f (alphaEntry s.alphac v) (pass1 x v))
          ((List.range nc).map fun v => tableEntry s.cosc y v))) ∧
      (∀ off, (∀ u v, u < nr → v < nc →
          ¬ (0x10000 + 512 * u + 8 * v ≤ off ∧ off < 0x10000 + 512 * u + 8 * v + elemBytes f)) →
        t.mem.load off = s.mem.load off)

/-- The operand a transform reads (R49, R50, R110): the bits of the IN slot at 0x8000 + 512·r + 8·c, {high word, low word} in
binary64 and the low word in binary32, whichever read of the step it is, where every byte of it is specified; each
unspecified byte is a free value of its own (R41; log entry 5). -/
def Obligations.OperandIsTheSlot : Prop :=
  ∀ (s : State) (n r c : Nat),
    (∀ (b : Nat → Byte), (∀ k, k < elemBytes s.build.fmt → s.mem.load (0x08000 + 512 * r + 8 * c + k) = some (b k)) →
      s.readIn n r c =
        match s.build.fmt with
        | .binary64 => (b 7 ++ b 6 ++ b 5 ++ b 4 : Word) ++ (b 3 ++ b 2 ++ b 1 ++ b 0 : Word)
        | .binary32 => (0 : Word) ++ (b 3 ++ b 2 ++ b 1 ++ b 0 : Word)) ∧
    (∀ k, k < elemBytes s.build.fmt → s.mem.load (0x08000 + 512 * r + 8 * c + k) = none →
      (s.readIn n r c).extractLsb' (8 * k) 8 = Config.freeByte s.seq (8 * n + k))

/-- The size-1 transform is the identity, a NaN becoming CANON_NAN (R112, R113, R117, R118: corner case N = 1): every
transform on a 1 × 1 configuration returns IN[0][0]. -/
def Obligations.SizeOneTransformIsIdentity : Prop :=
  ∀ (s : State) (i : Instr) (a b : Nat) (e : Elem),
    i = .fwd1d a b ∨ i = .inv1d a b ∨ i = .fwd2d a b ∨ i = .inv2d a b →
    (s.order = [] ∨ ∃ rest, s.order = .engine :: rest) → s.pend = some i →
    s.acfg.rows = 1 → s.acfg.cols = 1 → s.tablesInstalled = true → s.in? 0 0 = some e →
    ∃ t, exec i s = .next t ∧ t.out? 0 0 = some (if isNaN s.build.fmt e then canonNaN s.build.fmt else e)

/-- R117, corner case R = 1: FWD2D's OUT row 0 equals FWD1D's result bit for bit, with the tables of size 1 in the row
tables. Where every byte of the operand is specified this is the rule's. Where a byte of IN row 0 is unspecified the two
commands draw the same free value only by the model's choice (log entries 5 and 6: the draw is named by the count of
steps, here the same, and by the number of the read, which coincide); R41 does not ask that two reads agree. -/
def Obligations.OneRowForwardEqualsFwd1d : Prop :=
  ∀ (s : State) (a b a' b' : Nat), (s.order = [] ∨ ∃ rest, s.order = .engine :: rest) →
    s.acfg.rows = 1 → s.acfg.cols.toNat ≤ 64 →
    s.cosr = cosTable s.build.fmt 1 → s.alphar = alphaTable s.build.fmt 1 →
    ∃ t t', exec (.fwd2d a b) { s with pend := some (.fwd2d a b) } = .next t ∧
      exec (.fwd1d a' b') { s with pend := some (.fwd1d a' b') } = .next t' ∧
      ∀ v, v < s.acfg.cols.toNat → ∃ e, t.out? 0 v = some e ∧ t'.out? 0 v = some e

/-- R112, corner case: a NaN anywhere in the operand of FWD1D makes every result CANON_NAN. -/
def Obligations.NaNOperandSpreads : Prop :=
  ∀ (s : State) (a b x : Nat) (e : Elem), (s.order = [] ∨ ∃ rest, s.order = .engine :: rest) →
    s.pend = some (.fwd1d a b) → x < s.acfg.cols.toNat → s.in? 0 x = some e → isNaN s.build.fmt e = true →
    ∃ t, exec (.fwd1d a b) s = .next t ∧ ∀ u, u < s.acfg.cols.toNat → t.out? 0 u = some (canonNaN s.build.fmt)

/-- R93, R120: the fixed 4×4 path. CONFIG 4, 4 installs the same tables and ACFG but for F4 on both paths, and a transform on
a configuration with F4 = 1 does what it does with F4 = 0, bit for bit. -/
def Obligations.FixedPathEqualsGenericPath : Prop :=
  (∀ s : State, (s.order = [] ∨ ∃ rest, s.order = .engine :: rest) →
    ∃ t : State, exec (.config 4 4 false) { s with pend := some (.config 4 4 false) } = .next t ∧
      exec (.config 4 4 true) { s with pend := some (.config 4 4 true) } =
        .next { t with acfg := { t.acfg with f4 := true } }) ∧
  (∀ (s : State) (i : Instr), i.isConfig = false → (s.order = [] ∨ ∃ rest, s.order = .engine :: rest) →
    s.pend = some i →
    ∃ t : State, exec i { s with acfg := { s.acfg with f4 := false } } = .next { t with acfg := { t.acfg with f4 := false } } ∧
      exec i { s with acfg := { s.acfg with f4 := true } } = .next { t with acfg := { t.acfg with f4 := true } })

/-! ### The bus -/

/-- R47, R48 (with the map R43): where slot (r, c) of each matrix window and slot u of each vector window stands, for every
backed index; a slot with an index from NMAX on is reserved. -/
def Obligations.SlotAddressesDecode : Prop :=
  ∀ (nmax r c : Nat) (hi : Bool), nmax ≤ 64 →
    let w := if hi then 4 else 0
    (r < nmax → c < nmax →
      target nmax (0x08000 + 512 * r + 8 * c + w) = .inSlot r c hi ∧
      target nmax (0x10000 + 512 * r + 8 * c + w) = .outSlot r c hi ∧
      target nmax (0x18000 + 512 * r + 8 * c + w) = .cosrSlot r c hi ∧
      target nmax (0x20000 + 512 * r + 8 * c + w) = .coscSlot r c hi ∧
      target nmax (0x28000 + 8 * c + w) = .alpharSlot c hi ∧
      target nmax (0x28200 + 8 * c + w) = .alphacSlot c hi) ∧
    (r < 64 → c < 64 → nmax ≤ r ∨ nmax ≤ c →
      target nmax (0x08000 + 512 * r + 8 * c + w) = .reserved ∧
      target nmax (0x10000 + 512 * r + 8 * c + w) = .reserved ∧
      target nmax (0x18000 + 512 * r + 8 * c + w) = .reserved ∧
      target nmax (0x20000 + 512 * r + 8 * c + w) = .reserved) ∧
    (c < 64 → nmax ≤ c →
      target nmax (0x28000 + 8 * c + w) = .reserved ∧ target nmax (0x28200 + 8 * c + w) = .reserved)

/-- R129: a host access in the window gets a bus error exactly in the cases the rule lists (`readRefused`,
`writeRefused`), in every state. -/
def Obligations.BusErrorsAreExactlyThese : Prop :=
  ∀ (s : State) (off width : Nat) (strobes : BitVec 4) (d : Word) (rest : List Event), off < 0x40000 →
    (s.order = .access (.read (s.build.base + off) width) :: rest →
      ∃ t, step s = .next t ∧ (t.resp = some .error ↔ readRefused s width off)) ∧
    (s.order = .access (.write (s.build.base + off) width strobes d) :: rest →
      ∃ t, step s = .next t ∧ (t.resp = some .error ↔ writeRefused s width off strobes))

/-- R130: an access that gets a bus error changes no state of the block: only the access itself is over, with an error
response, whose data is 0. -/
def Obligations.BusErrorChangesNothing : Prop :=
  ∀ (s t : State) (a : Access) (rest : List Event), s.order = .access a :: rest → step s = .next t →
    t.resp = some .error →
    t = { s with order := rest, seq := s.seq + 1, resp := some .error } ∧ t.resp.map BusResp.readData = some 0

/-- R56: no read has a side effect, whatever its width and offset; and reads of one offset, in two states that differ in
nothing but the accesses to come, the last response and the count of steps, get the same response, unless the read is of
a byte of IN or OUT that is unspecified (`bufferByte` says which offsets are bytes of a backed element). (`order`, `resp` and `seq` are the bus's and the model's own.) -/
def Obligations.ReadsHaveNoSideEffect : Prop :=
  ∀ (s : State) (off width : Nat) (rest : List Event), off < 0x40000 →
    s.order = .access (.read (s.build.base + off) width) :: rest →
    ∃ r, step s = .next { s with order := rest, seq := s.seq + 1, resp := some r } ∧
      ((width = 32 → off % 4 = 0 → ∀ k, k < 4 → bufferByte s.build (off + k) = true → s.mem.load (off + k) ≠ none) →
        ∀ (rest' : List Event) (q : Option BusResp) (n : Nat),
          step { s with order := .access (.read (s.build.base + off) width) :: rest', resp := q, seq := n } =
            .next { s with order := rest', resp := some r, seq := n + 1 })

/-- R20, R21, R26: reads of ID, CAP and CMD. CAP's fields are constants of the build. -/
def Obligations.ConstantRegistersRead : Prop :=
  ∀ (s : State) (off : Nat) (rest : List Event), s.build.ok = true → s.order = .access (.read (s.build.base + off) 32) :: rest →
    (off = 0x000 → step s = .next { s with order := rest, seq := s.seq + 1, resp := some (.data 0x44435432) }) ∧
    (off = 0x004 → ∃ v : Word, step s = .next { s with order := rest, seq := s.seq + 1, resp := some (.data v) } ∧
      v.getLsbD 0 = decide (s.build.fmt = .binary64) ∧ v.extractLsb' 1 7 = 0 ∧
      (v.extractLsb' 8 8).toNat = s.build.nmax ∧ v.getLsbD 16 = true ∧ v.extractLsb' 17 7 = 0 ∧ v.extractLsb' 24 8 = 1) ∧
    (off = 0x014 → step s = .next { s with order := rest, seq := s.seq + 1, resp := some (.data 0) })

/-- R22, R23, R25 (the fields): reads of CTRL, STATUS and ACFG return their fields at their bit positions and 0 in every
reserved bit. -/
def Obligations.StateRegistersRead : Prop :=
  ∀ (s : State) (off : Nat) (rest : List Event), s.order = .access (.read (s.build.base + off) 32) :: rest →
    off = 0x008 ∨ off = 0x00C ∨ off = 0x010 →
    ∃ v : Word, step s = .next { s with order := rest, seq := s.seq + 1, resp := some (.data v) } ∧
      (off = 0x008 → v.getLsbD 0 = s.doneIE ∧ v.getLsbD 1 = s.errIE ∧ v.extractLsb' 2 30 = 0) ∧
      (off = 0x00C → v.getLsbD 0 = s.pend.isSome ∧ v.getLsbD 1 = decide (s.acfg.rows ≠ 0) ∧ v.extractLsb' 2 6 = 0 ∧
        v.getLsbD 8 = s.done ∧ v.getLsbD 9 = s.err ∧ v.extractLsb' 10 2 = 0 ∧
        (v.extractLsb' 12 4).toNat = (match s.errcode with
          | .none => 0
          | .illegalCmd => 1
          | .busy => 2
          | .notConfigured => 3
          | .invalidConfig => 4
          | .dimMismatch => 5) ∧ v.extractLsb' 16 16 = 0) ∧
      (off = 0x010 → v.extractLsb' 0 8 = 0 ∧ v.extractLsb' 8 8 = s.acfg.rows ∧ v.extractLsb' 16 8 = s.acfg.cols ∧
        v.getLsbD 24 = s.acfg.f4 ∧ v.extractLsb' 25 7 = 0)

/-- A write to STATUS (R23, R132, R133): bit 8 clears DONE, bit 9 clears ERR and ERRCODE, nothing else changes, while
BUSY too. -/
def Obligations.StatusWriteClearsFlags : Prop :=
  ∀ (s : State) (d : Word) (rest : List Event), s.order = .access (.write (s.build.base + 0x00C) 32 0xF d) :: rest →
    step s = .next { s with
      order := rest, seq := s.seq + 1, resp := some .written,
      done := if d.getLsbD 8 then false else s.done,
      err := if d.getLsbD 9 then false else s.err,
      errcode := if d.getLsbD 9 then .none else s.errcode }

/-- A write to CTRL without SRST stores bits [1:0], whether or not BUSY is 1 (R22). -/
def Obligations.ControlWriteSetsEnables : Prop :=
  ∀ (s : State) (d : Word) (rest : List Event), s.order = .access (.write (s.build.base + 0x008) 32 0xF d) :: rest →
    d.getLsbD 31 = false →
    step s = .next { s with
      order := rest, seq := s.seq + 1, resp := some .written, doneIE := d.getLsbD 0, errIE := d.getLsbD 1 }

/-- R149 and R150: soft reset, at any time. PEND, the flags, ACFG and the enables are cleared, irq is 0, and the write gets a
normal response; every byte of IN is kept; of OUT, every byte outside the result shape of the aborted command is kept,
and every slot of that shape becomes unspecified (1D: row 0 up to COLS; 2D: ROWS × COLS); nothing becomes unspecified
when no command or a CONFIG runs. Nothing is said of T and the table RAMs, which are not observable then (R40). -/
def Obligations.SoftReset : Prop :=
  ∀ (s : State) (d : Word) (rest : List Event), s.order = .access (.write (s.build.base + 0x008) 32 0xF d) :: rest →
    d.getLsbD 31 = true →
    let aborted : Nat → Nat → Prop := fun r c =>
      match s.pend with
      | none => False
      | some (.config _ _ _) => False
      | some (.fwd1d _ _) => r = 0 ∧ c < s.acfg.cols.toNat
      | some (.inv1d _ _) => r = 0 ∧ c < s.acfg.cols.toNat
      | some (.fwd2d _ _) => r < s.acfg.rows.toNat ∧ c < s.acfg.cols.toNat
      | some (.inv2d _ _) => r < s.acfg.rows.toNat ∧ c < s.acfg.cols.toNat
    ∃ t, step s = .next t ∧ t.irq = false ∧
      t = { s with
        order := rest, seq := s.seq + 1, resp := some .written, doneIE := false, errIE := false, done := false,
        err := false, errcode := .none, acfg := { rows := 0, cols := 0, f4 := false }, pend := none, mem := t.mem,
        tbuf := t.tbuf, cosr := t.cosr, cosc := t.cosc, alphar := t.alphar, alphac := t.alphac } ∧
      (∀ r c, aborted r c → ∀ k, k < 8 → t.mem.load (0x10000 + 512 * r + 8 * c + k) = none) ∧
      (∀ off, (∀ r c, aborted r c → ¬ (0x10000 + 512 * r + 8 * c ≤ off ∧ off < 0x10000 + 512 * r + 8 * c + 8)) →
        t.mem.load off = s.mem.load off)

/-- R51, the write: a write to a backed IN slot is dropped with a bus error while BUSY = 1; otherwise it stores the word's
four bytes, little-endian, at the slot's word and changes no other byte; in binary32 a write to word 1 is ignored. -/
def Obligations.InWindowWrite : Prop :=
  ∀ (s : State) (r c : Nat) (hi : Bool) (d : Word) (rest : List Event), s.build.nmax ≤ 64 →
    r < s.build.nmax → c < s.build.nmax →
    let off := 0x08000 + 512 * r + 8 * c + (if hi then 4 else 0)
    s.order = .access (.write (s.build.base + off) 32 0xF d) :: rest →
    ∃ t, step s = .next t ∧
      (s.pend ≠ none → t = { s with order := rest, seq := s.seq + 1, resp := some .error }) ∧
      (s.pend = none → t = { s with order := rest, seq := s.seq + 1, resp := some .written, mem := t.mem } ∧
        (s.build.fmt = .binary32 → hi = true → t.mem = s.mem) ∧
        (s.build.fmt = .binary64 ∨ hi = false →
          (∀ k, k < 4 → t.mem.load (off + k) = some (d.extractLsb' (8 * k) 8)) ∧
          (∀ o, o < off ∨ off + 4 ≤ o → t.mem.load o = s.mem.load o)))

/-- R51 and R52, the reads: a word of a backed IN slot can be read whatever BUSY is, a word of a backed OUT slot only while
BUSY = 0 (else a bus error); the data is the slot's word, little-endian (word 1 reads 0 in binary32), an unspecified byte
being a free value (R41). -/
def Obligations.BufferWindowRead : Prop :=
  ∀ (s : State) (r c : Nat) (hi out : Bool) (rest : List Event), s.build.nmax ≤ 64 →
    r < s.build.nmax → c < s.build.nmax →
    let off := (if out then 0x10000 else 0x08000) + 512 * r + 8 * c + (if hi then 4 else 0)
    s.order = .access (.read (s.build.base + off) 32) :: rest →
    ∃ v : Word, (∀ k, k < 4 → v.extractLsb' (8 * k) 8 =
        if s.build.fmt = .binary32 ∧ hi = true then 0
        else match s.mem.load (off + k) with
          | some b => b
          | none => Config.freeByte s.seq k) ∧
      step s = .next { s with
        order := rest, seq := s.seq + 1,
        resp := some (if out = true ∧ s.pend ≠ none then .error else .data v) }

/-- R53 and R54: reads of the table windows. While BUSY = 1 a bus error; else, inside the active region of a configured
block, the table's word; else 0. -/
def Obligations.TableWindowRead : Prop :=
  ∀ (s : State) (x u off n : Nat) (hi : Bool) (e : Elem) (rest : List Event), s.build.nmax ≤ 64 →
    x < s.build.nmax → u < s.build.nmax →
    (off = 0x18000 + 512 * x + 8 * u ∧ n = s.acfg.rows.toNat ∧ e = tableEntry s.cosr x u) ∨
      (off = 0x20000 + 512 * x + 8 * u ∧ n = s.acfg.cols.toNat ∧ e = tableEntry s.cosc x u) ∨
      (off = 0x28000 + 8 * u ∧ x = u ∧ n = s.acfg.rows.toNat ∧ e = alphaEntry s.alphar u) ∨
      (off = 0x28200 + 8 * u ∧ x = u ∧ n = s.acfg.cols.toNat ∧ e = alphaEntry s.alphac u) →
    s.order = .access (.read (s.build.base + off + (if hi then 4 else 0)) 32) :: rest →
    step s = .next { s with
      order := rest, seq := s.seq + 1,
      resp := some (if s.pend ≠ none then .error
        else if s.acfg.rows ≠ 0 ∧ x < n ∧ u < n then .data (e.extractLsb' (if hi then 32 else 0) 32)
        else .data 0) }

/-- R38, R134: irq, read off STATUS and CTRL as the host reads them. -/
def Obligations.IrqFollowsStatusAndControl : Prop :=
  ∀ s : State, s.irq =
    ((s.statusValue.getLsbD 8 && s.ctrlValue.getLsbD 0) || (s.statusValue.getLsbD 9 && s.ctrlValue.getLsbD 1))

/-! ### Reset and whole-machine rules -/

/-- R147, R148 (with R40): after power-on reset CTRL, STATUS and ACFG are 0, ID and CAP are their constants, CMD reads 0, irq
is 0, no command is pending, and no byte of IN and OUT is specified. -/
def Obligations.ResetValues : Prop :=
  State.reset.ctrlValue = 0 ∧ State.reset.statusValue = 0 ∧ State.reset.acfgValue = 0 ∧
  State.reset.readTarget .id = some 0x44435432 ∧ State.reset.readTarget .cap = some 0x01012001 ∧
  State.reset.readTarget .cmd = some 0 ∧ State.reset.irq = false ∧ State.reset.pend = none ∧
  ∀ off, State.reset.mem.load off = none

/-- R146: a power-on reset puts every register, the buffers and the hidden state back to the power-on value of R40, for any
build and at any time. -/
def Obligations.PowerOnResetsEverything : Prop :=
  ∀ (s : State) (rest : List Event), s.order = .powerOn :: rest →
    ∃ t, step s = .next t ∧ t.build = s.build ∧ t.ctrlValue = 0 ∧ t.statusValue = 0 ∧ t.acfgValue = 0 ∧ t.irq = false ∧
      t.pend = none ∧ (∀ off, t.mem.load off = none) ∧ t.order = rest

/-- The invariant holds after reset. -/
def Obligations.ResetMeetsTheInvariant : Prop := State.Inv State.reset

/-- Every step keeps the invariant: a canonical memory that lists only bytes of backed IN and OUT slots, a legal ACFG
(R25), a pending command that passed its checks, the tables of R32 while configured, ERRCODE = 0 exactly while ERR = 0
(R23). -/
def Obligations.StepKeepsTheInvariant : Prop :=
  ∀ s t : State, s.Inv → step s = .next t → t.Inv

/-- A run of accesses inside the window never stops, and stays one. -/
def Obligations.WindowRunNeverStops : Prop :=
  ∀ s : State, s.inWindowRun = true → ∃ t, step s = .next t ∧ t.inWindowRun = true

/-- R128: latency is finite. In a run inside the window, a pending command is no longer pending after at most as many steps
as there are places left in the order, and one more. -/
def Obligations.PendingCommandEnds : Prop :=
  ∀ s : State, s.inWindowRun = true → s.pend ≠ none →
    ∃ k t, k ≤ s.order.length + 1 ∧ Host.Core.run Sys2Proof.core k s = .next t ∧ t.pend = none

/-- R28: an IN element keeps the value the host last wrote to it: a step changes a byte of the IN window only if it is a host
write to that byte's word while BUSY = 0, or a power-on reset. No ENGINE step changes it. -/
def Obligations.OnlyTheHostWritesIn : Prop :=
  ∀ (s t : State) (o : Nat), inWindowByte o → step s = .next t → t.mem.load o ≠ s.mem.load o →
    (∃ rest, s.order = .powerOn :: rest) ∨
    (s.pend = none ∧ ∃ (addr : Nat) (d : Word) (rest : List Event),
      s.order = .access (.write addr 32 0xF d) :: rest ∧
      s.build.base + o / 4 * 4 = addr ∧ t.mem.load o = some (d.extractLsb' (8 * (o % 4)) 8))

/-- R29: a byte of the OUT window changes only at the ENGINE's completion of a transform, or becomes unspecified by a soft
reset (a CTRL write with bit 31 set) that aborts a transform, or by a power-on reset. -/
def Obligations.OnlyTheEngineWritesOut : Prop :=
  ∀ (s t : State) (o : Nat), outWindowByte o → step s = .next t → t.mem.load o ≠ s.mem.load o →
    (∃ i, s.pend = some i ∧ i.isConfig = false ∧ t.pend = none ∧ t.done = true ∧
      (s.order = [] ∨ ∃ rest, s.order = .engine :: rest)) ∨
    (t.mem.load o = none ∧ t.pend = none ∧ t.acfgValue = 0 ∧
      ((∃ (i : Instr) (d : Word) (rest : List Event), s.pend = some i ∧ i.isConfig = false ∧
          s.order = .access (.write (s.build.base + 0x008) 32 0xF d) :: rest ∧ d.getLsbD 31 = true) ∨
        ∃ rest, s.order = .powerOn :: rest))

/-- R25: only CONFIG and reset change ACFG. A step that changes it is one of four: it clears ACFG and is a power-on reset, a
soft reset (a CTRL write with bit 31 set), or the acceptance of a CONFIG (a CMD write of its word with no command
pending); or it is the ENGINE's completion of a pending CONFIG, which sets ACFG to that command's fields. -/
def Obligations.OnlyConfigAndResetChangeAcfg : Prop :=
  ∀ s t : State, step s = .next t → t.acfg ≠ s.acfg →
    (t.acfg = { rows := 0, cols := 0, f4 := false } ∧
      ((∃ rest, s.order = .powerOn :: rest) ∨
       (∃ (d : Word) (rest : List Event),
          s.order = .access (.write (s.build.base + 0x008) 32 0xF d) :: rest ∧ d.getLsbD 31 = true) ∨
       (∃ (d : Word) (rest : List Event) (r c : Nat) (f4 : Bool),
          s.order = .access (.write (s.build.base + 0x014) 32 0xF d) :: rest ∧ decode d = .cmd (.config r c f4) ∧
          s.pend = none ∧ t.pend = some (.config r c f4)))) ∨
    (∃ (r c : Nat) (f4 : Bool), (s.order = [] ∨ ∃ rest, s.order = .engine :: rest) ∧
      s.pend = some (.config r c f4) ∧ t.pend = none ∧ t.done = true ∧
      t.acfg = { rows := BitVec.ofNat 8 r, cols := BitVec.ofNat 8 c, f4 := f4 })

/-- R132, R133 (and R39): DONE and ERR are sticky. Only a STATUS write with their bit set, or a reset (power-on, or a CTRL
write with bit 31 set), clears them; ERRCODE is cleared together with ERR, and a reset leaves STATUS and CTRL 0. -/
def Obligations.FlagsAreSticky : Prop :=
  ∀ s t : State, step s = .next t →
    let reset : Prop := t.statusValue = 0 ∧ t.ctrlValue = 0 ∧
      ((∃ rest, s.order = .powerOn :: rest) ∨
       ∃ (d : Word) (rest : List Event),
        s.order = .access (.write (s.build.base + 0x008) 32 0xF d) :: rest ∧ d.getLsbD 31 = true)
    (s.done = true → t.done = false →
      reset ∨
      ∃ (d : Word) (rest : List Event),
        s.order = .access (.write (s.build.base + 0x00C) 32 0xF d) :: rest ∧ d.getLsbD 8 = true) ∧
    (s.err = true → t.err = false → t.errcode = .none ∧
      (reset ∨
       ∃ (d : Word) (rest : List Event),
        s.order = .access (.write (s.build.base + 0x00C) 32 0xF d) :: rest ∧ d.getLsbD 9 = true))

/-- R37: T is hidden. Two states that differ only in T step alike, and to states that differ at most in T: nothing carries
from one command to the next through it. -/
def Obligations.IntermediateBufferIsHidden : Prop :=
  ∀ (s t : State) (x : List (List Elem)), step s = .next t →
    ∃ y, step { s with tbuf := x } = .next { t with tbuf := y }

/-- R32: while CFGD = 0 the table RAMs carry no information. Two states that meet the invariant, are unconfigured and differ
only in the tables step alike, and to states that differ at most in the tables; if the step configures the block, the
states are equal. -/
def Obligations.TablesAreHiddenWhileUnconfigured : Prop :=
  ∀ (s t : State) (cr cc : List (List Elem)) (ar ac : List Elem), s.Inv → s.acfg.rows = 0 → step s = .next t →
    ∃ cr' cc' ar' ac', step { s with cosr := cr, cosc := cc, alphar := ar, alphac := ac } =
        .next { t with cosr := cr', cosc := cc', alphar := ar', alphac := ac' } ∧
      (t.acfg.rows ≠ 0 → cr' = t.cosr ∧ cc' = t.cosc ∧ ar' = t.alphar ∧ ac' = t.alphac)

/-! ### The datapath -/

/-- R97: RN. For ± n·2^(−Q)/2^d: ±infinity exactly from the threshold (2 − 2^(−p))·2^emax on; otherwise a finite element no
farther from the value than any finite element, and on a tie one with an even last fraction bit; the sign is the value's,
also of a zero. Distances are compared after multiplying by 2^d, in units of the smallest subnormal 2^(−Q). -/
def Obligations.RnRoundsToNearestEven : Prop :=
  ∀ (f : Fmt) (neg : Bool) (n d : Nat),
    let v : Int := if neg then - (n : Int) else n
    let r := rn f neg n d
    isNeg f r = neg ∧
    (isInf f r = true ↔
      (2 ^ (f.prec + 1) - 1) * 2 ^ (match f with | .binary64 => 2044 | .binary32 => 252) * 2 ^ d ≤ n) ∧
    (isInf f r = false → isFinite f r = true ∧
      ∀ e : Elem, isFinite f e = true →
        |exactValue f r * 2 ^ d - v| ≤ |exactValue f e * 2 ^ d - v| ∧
        (|exactValue f r * 2 ^ d - v| = |exactValue f e * 2 ^ d - v| → exactValue f r ≠ exactValue f e →
          fracField f r % 2 = 0))

/-- R98: FMUL. NaN operands and infinity times zero give CANON_NAN; a product with an infinity is an infinity, a product with
a zero is a zero, and any other product is RN of the exact product (magnitudes in units of 2^(−Q)); the sign is always
the exclusive or, also of a zero that RN gives. -/
def Obligations.FmulByTheRule : Prop :=
  ∀ (f : Fmt) (a b : Elem),
    (isNaN f a = true ∨ isNaN f b = true → fmul f a b = canonNaN f) ∧
    (isInf f a = true ∧ isZero f b = true ∨ isZero f a = true ∧ isInf f b = true → fmul f a b = canonNaN f) ∧
    (isNaN f a = false → isNaN f b = false →
      ¬ (isInf f a = true ∧ isZero f b = true ∨ isZero f a = true ∧ isInf f b = true) →
      isNeg f (fmul f a b) = (isNeg f a ^^ isNeg f b) ∧
      (isInf f a = true ∨ isInf f b = true → fmul f a b = infElem f (isNeg f a ^^ isNeg f b)) ∧
      (isZero f a = true ∨ isZero f b = true → fmul f a b = zeroElem f (isNeg f a ^^ isNeg f b)) ∧
      (isFinite f a = true → isFinite f b = true →
        fmul f a b = rn f (isNeg f a ^^ isNeg f b) (magnitude f a * magnitude f b) f.quantum ∧
        (isZero f (fmul f a b) = true → fmul f a b = zeroElem f (isNeg f a ^^ isNeg f b))))

/-- R99: FADD. NaN operands and opposite infinities give CANON_NAN; an infinity plus anything else is that infinity; an exact
zero sum is +0 but for (−0) + (−0) = −0; any other sum is RN of the exact sum (in units of 2^(−Q)), and it never rounds
to zero. FADD is commutative on W-bit patterns, and it is not associative. -/
def Obligations.FaddByTheRule : Prop :=
  (∀ (f : Fmt) (a b : Elem),
    (isNaN f a = true ∨ isNaN f b = true → fadd f a b = canonNaN f) ∧
    (isInf f a = true → isInf f b = true → isNeg f a ≠ isNeg f b → fadd f a b = canonNaN f) ∧
    (isNaN f b = false → isInf f a = true → (isInf f b = true → isNeg f b = isNeg f a) → fadd f a b = a) ∧
    (isInf f b = true → isFinite f a = true → fadd f a b = b) ∧
    (isFinite f a = true → isFinite f b = true →
      (exactValue f a + exactValue f b = 0 →
        fadd f a b = zeroElem f (isZero f a && isZero f b && isNeg f a && isNeg f b)) ∧
      (exactValue f a + exactValue f b ≠ 0 →
        fadd f a b = rn f (decide (exactValue f a + exactValue f b < 0)) (exactValue f a + exactValue f b).natAbs 0 ∧
        isZero f (fadd f a b) = false)) ∧
    (a.toNat < 2 ^ f.width → b.toNat < 2 ^ f.width → fadd f a b = fadd f b a)) ∧
  (∀ f : Fmt, ∃ a b c, fadd f (fadd f a b) c ≠ fadd f a (fadd f b c))

/-- R101: every NaN the datapath produces is CANON_NAN, whatever it comes from, and a NaN operand, of any sign and payload,
gives it; a command completes whatever its operand holds. -/
def Obligations.EveryNaNIsCanonical : Prop :=
  canonNaN .binary64 = 0x7FF8000000000000 ∧ canonNaN .binary32 = 0x7FC00000 ∧
  (∀ (s : State) (i : Instr), (s.order = [] ∨ ∃ rest, s.order = .engine :: rest) → s.pend = some i →
    ∃ t, exec i s = .next t ∧ t.pend = none ∧ t.done = true ∧ t.err = s.err) ∧
  ∀ (f : Fmt) (a b : Elem) (as bs : List Elem),
    (isNaN f (fmul f a b) = true → fmul f a b = canonNaN f) ∧
    (isNaN f (fadd f a b) = true → fadd f a b = canonNaN f) ∧
    (isNaN f (dot f as bs) = true → dot f as bs = canonNaN f) ∧
    isNaN f (canonNaN f) = true ∧
    (isNaN f a = true → fmul f a b = canonNaN f ∧ fmul f b a = canonNaN f ∧ fadd f a b = canonNaN f ∧
      fadd f b a = canonNaN f)

/-- R107: DOT is seeded with the first product and adds the rounded products in increasing index. -/
def Obligations.DotIsSequential : Prop :=
  ∀ (f : Fmt) (a b : Elem) (as bs : List Elem), as.length = bs.length →
    dot f [a] [b] = fmul f a b ∧
    (as ≠ [] → dot f (as ++ [a]) (bs ++ [b]) = fadd f (dot f as bs) (fmul f a b))

/-! ### The tables -/

/-- R85: every entry of C_N is RN of the exact real cosine: a finite element no farther from cos(π·(2x+1)·u/(2N)) than any
finite element. The value of an element is its exact value in units of 2^(−Q). -/
def Obligations.CosineEntriesAreRounded : Prop :=
  ∀ (f : Fmt) (n x u : Nat) (e : Elem), 1 ≤ n → n ≤ 64 → x < n → u < n → isFinite f e = true →
    isFinite f (cosEntry f n x u) = true ∧
    |(exactValue f (cosEntry f n x u) : ℝ) / 2 ^ f.quantum - Real.cos (Real.pi * (2 * x + 1) * u / (2 * n))| ≤
      |(exactValue f e : ℝ) / 2 ^ f.quantum - Real.cos (Real.pi * (2 * x + 1) * u / (2 * n))|

/-- R86: the exact entries of C_N, by k = (2x+1)·u: 1.0 where k mod 4N = 0, −1.0 where it is 2N, +0.0 where k mod 2N = N; every
other entry is nonzero, with magnitude below 1, and it is ±0.5 exactly where k/(2N) ≡ ±1/3 (mod 1). -/
def Obligations.ExactCosineEntries : Prop :=
  ∀ (f : Fmt) (n x u : Nat), 1 ≤ n → n ≤ 64 → x < n → u < n →
    let k := (2 * x + 1) * u
    let one : Nat := match f with | .binary64 => 0x3FF0000000000000 | .binary32 => 0x3F800000
    let e := cosEntry f n x u
    (k % (4 * n) = 0 → e = BitVec.ofNat 64 one) ∧
    (k % (4 * n) = 2 * n → e = BitVec.ofNat 64 (2 ^ (f.width - 1) + one)) ∧
    (k % (2 * n) = n → e = 0) ∧
    (k % (2 * n) ≠ 0 → k % (2 * n) ≠ n →
      magnitude f e ≠ 0 ∧ magnitude f e < 2 ^ f.quantum ∧
      (2 * magnitude f e = 2 ^ f.quantum ↔ 3 * k % (6 * n) = 2 * n ∨ 3 * k % (6 * n) = 4 * n))

/-- R87: the symmetry C_N[N−1−x][u] = (−1)^u · C_N[x][u], with +0.0 kept as +0.0. -/
def Obligations.CosineTableSymmetry : Prop :=
  ∀ (f : Fmt) (n x u : Nat), 1 ≤ n → n ≤ 64 → x < n → u < n →
    cosEntry f n (n - 1 - x) u = if u % 2 = 0 then cosEntry f n x u else negEntry f (cosEntry f n x u)

/-- R89: the alpha table is RN of the exact real square roots sqrt(1/N) and sqrt(2/N): finite elements no farther from them
than any finite element. -/
def Obligations.AlphaEntriesAreRounded : Prop :=
  ∀ (f : Fmt) (n u : Nat) (e : Elem), 1 ≤ n → n ≤ 64 → u < n → isFinite f e = true →
    isFinite f (alphaEntry (alphaTable f n) u) = true ∧
    |(exactValue f (alphaEntry (alphaTable f n) u) : ℝ) / 2 ^ f.quantum - Real.sqrt ((if u = 0 then 1 else 2) / n)| ≤
      |(exactValue f e : ℝ) / 2 ^ f.quantum - Real.sqrt ((if u = 0 then 1 else 2) / n)|

/-- R94: for every size 1 ≤ N ≤ 64, no entry of the tables is a NaN or an infinity, every entry lies in [−1, 1], and every
entry is a pattern of W bits. -/
def Obligations.TableEntriesAreBounded : Prop :=
  ∀ (f : Fmt) (n x u : Nat), 1 ≤ n → n ≤ 64 → x < n → u < n →
    isFinite f (cosEntry f n x u) = true ∧ magnitude f (cosEntry f n x u) ≤ 2 ^ f.quantum ∧
    isFinite f (alphaEntry (alphaTable f n) u) = true ∧ magnitude f (alphaEntry (alphaTable f n) u) ≤ 2 ^ f.quantum ∧
    isNeg f (alphaEntry (alphaTable f n) u) = false ∧
    (cosEntry f n x u).toNat < 2 ^ f.width ∧ (alphaEntry (alphaTable f n) u).toNat < 2 ^ f.width
end

