-- ==== Sys2Proof/Laws/Memory.lean ====
section
/-! SUPPORT. The memory laws: what a load returns after each memory operation, and that every operation keeps the
canonical form `Memory.wf`. -/

namespace Sys2Proof.Machine

/-! ### Loads -/

@[simp] theorem Memory.load_nil (a : Nat) : Memory.load [] a = none := rfl

theorem Memory.load_cons (c : Host.Cell) (m : Memory) (a : Nat) :
    Memory.load (c :: m) a = if c.1 = a then some c.2 else Memory.load m a := rfl

theorem Memory.load_append (m m' : Memory) (a : Nat) :
    Memory.load (m ++ m') a = (Memory.load m a).or (Memory.load m' a) := by
  induction m with
  | nil => rfl
  | cons c m ih =>
    rw [List.cons_append, Memory.load_cons, Memory.load_cons, ih]
    split <;> rfl

theorem Memory.load_filter (p : Nat → Bool) (m : Memory) (a : Nat) :
    Memory.load (m.filter fun c => p c.1) a = if p a then Memory.load m a else none := by
  induction m with
  | nil => simp
  | cons c m ih =>
    by_cases hc : p c.1 <;> simp only [List.filter_cons, hc, if_true, if_false, Memory.load_cons, ih, Bool.false_eq_true]
    · by_cases ha : c.1 = a
      · subst ha; simp [hc]
      · simp [ha]
    · by_cases ha : c.1 = a
      · subst ha; simp [hc]
      · simp [ha]

/-- A load from consecutive cells. -/
theorem load_cellsFrom (bs : List Byte) (off a : Nat) :
    Memory.load (cellsFrom off bs) a = if off ≤ a then bs[a - off]? else none := by
  induction bs generalizing off with
  | nil => simp [cellsFrom]
  | cons b bs ih =>
    rw [cellsFrom, Memory.load_cons, ih]
    by_cases h : off = a
    · subst h; simp
    · by_cases h' : off ≤ a
      · have h1 : off + 1 ≤ a := by omega
        obtain ⟨k, hk⟩ : ∃ k, a - off = k + 1 := ⟨a - off - 1, by omega⟩
        have hk' : a - (off + 1) = k := by omega
        simp [h, h', h1, hk, hk']
      · have h1 : ¬ off + 1 ≤ a := by omega
        simp [h, h', h1]

/-- A load after a store: the stored byte inside, the old byte outside. -/
theorem Memory.load_store (m : Memory) (off : Nat) (bs : List Byte) (a : Nat) :
    (m.store off bs).load a = if off ≤ a ∧ a < off + bs.length then bs[a - off]? else m.load a := by
  unfold Memory.store
  rw [Memory.load_append, Memory.load_append, Memory.load_filter (fun k => decide (k < off)),
    Memory.load_filter (fun k => decide (off + bs.length ≤ k)), load_cellsFrom]
  by_cases h1 : off ≤ a
  · by_cases h2 : a < off + bs.length
    · have hs : a - off < bs.length := by omega
      have h3 : ¬ a < off := by omega
      have h4 : ¬ off + bs.length ≤ a := by omega
      simp [h1, h2, h3, h4]
    · have hs : bs[a - off]? = none := List.getElem?_eq_none (by omega)
      have h3 : ¬ a < off := by omega
      have h4 : off + bs.length ≤ a := by omega
      simp [h1, h2, h3, h4, hs]
  · have h3 : a < off := by omega
    have h4 : ¬ off + bs.length ≤ a := by omega
    simp [h1, h3, h4]

theorem Memory.load_store_outside (m : Memory) (off : Nat) (bs : List Byte) (a : Nat)
    (h : a < off ∨ off + bs.length ≤ a) : (m.store off bs).load a = m.load a := by
  rw [Memory.load_store, if_neg (by omega)]

theorem Memory.load_store_inside (m : Memory) (off : Nat) (bs : List Byte) (k : Nat) (h : k < bs.length) :
    (m.store off bs).load (off + k) = bs[k]? := by
  rw [Memory.load_store, if_pos (by omega), Nat.add_sub_cancel_left]

/-- A load after bytes are made unspecified. -/
theorem Memory.load_forget (m : Memory) (off n a : Nat) :
    (m.forget off n).load a = if off ≤ a ∧ a < off + n then none else m.load a := by
  unfold Memory.forget
  rw [Memory.load_filter (fun k => decide (k < off) || decide (off + n ≤ k))]
  by_cases h : off ≤ a ∧ a < off + n
  · have h1 : ¬ a < off := by omega
    have h2 : ¬ off + n ≤ a := by omega
    simp [h, h1, h2]
  · have h1 : a < off ∨ off + n ≤ a := by omega
    rw [if_neg h, if_pos (by simpa using h1)]

/-! ### The canonical form -/

theorem cellsFrom_mem (bs : List Byte) (off : Nat) (c : Host.Cell) (h : c ∈ cellsFrom off bs) :
    off ≤ c.1 ∧ c.1 < off + bs.length := by
  induction bs generalizing off with
  | nil => cases h
  | cons b bs ih =>
    rcases List.mem_cons.1 h with rfl | h
    · exact ⟨Nat.le_refl _, by simp⟩
    · have := ih (off + 1) h
      simp only [List.length_cons]
      omega

theorem cellsFrom_wf (bs : List Byte) (off : Nat) : Memory.wf (cellsFrom off bs) := by
  induction bs generalizing off with
  | nil => exact List.Pairwise.nil
  | cons b bs ih =>
    refine List.Pairwise.cons (fun c hc => ?_) (ih _)
    have := cellsFrom_mem bs (off + 1) c hc
    show off < c.1
    omega

theorem Memory.wf_filter (m : Memory) (p : Host.Cell → Bool) (h : m.wf) : Memory.wf (m.filter p) := List.Pairwise.filter p h

theorem Memory.wf_store (m : Memory) (off : Nat) (bs : List Byte) (h : m.wf) : (m.store off bs).wf := by
  unfold Memory.store
  refine List.pairwise_append.2 ⟨List.pairwise_append.2 ⟨m.wf_filter _ h, cellsFrom_wf bs off, ?_⟩, m.wf_filter _ h, ?_⟩
  · intro x hx y hy
    have h1 := (List.mem_filter.1 hx).2
    have h2 := cellsFrom_mem bs off y hy
    simp only [decide_eq_true_eq] at h1
    omega
  · intro x hx y hy
    have h2 := (List.mem_filter.1 hy).2
    simp only [decide_eq_true_eq] at h2
    rcases List.mem_append.1 hx with hx | hx
    · have h1 := (List.mem_filter.1 hx).2
      simp only [decide_eq_true_eq] at h1
      omega
    · have h1 := cellsFrom_mem bs off x hx
      omega

theorem Memory.wf_forget (m : Memory) (off n : Nat) (h : m.wf) : (m.forget off n).wf := m.wf_filter _ h

theorem Memory.wf_storeWord (m : Memory) (off : Nat) (w : Word) (h : m.wf) : (m.storeWord off w).wf := m.wf_store _ _ h

theorem Memory.wf_storeOut (f : Fmt) (m : Memory) (p : Nat × Nat) (e : Elem) (h : m.wf) : (m.storeOut f p e).wf :=
  m.wf_store _ _ h

theorem Memory.wf_storeOuts (f : Fmt) (v : Nat × Nat → Elem) (ps : List (Nat × Nat)) (m : Memory) (h : m.wf) :
    (m.storeOuts f v ps).wf := by
  induction ps generalizing m with
  | nil => exact h
  | cons p ps ih => exact ih _ (m.wf_storeOut f p _ h)

theorem Memory.wf_forgetOuts (ps : List (Nat × Nat)) (m : Memory) (h : m.wf) : (m.forgetOuts ps).wf := by
  induction ps generalizing m with
  | nil => exact h
  | cons p ps ih => exact ih _ (m.wf_forget _ _ h)

/-! ### Result slots -/

@[simp] theorem elemByteList_length (n : Nat) (e : Elem) : (elemByteList n e).length = n := by
  simp [elemByteList]

/-- An offset lies in the OUT slot of a place: in the first `n` bytes of it. -/
def InOutSlot (n : Nat) (p : Nat × Nat) (a : Nat) : Prop :=
  matrixSlot outBase p.1 p.2 ≤ a ∧ a < matrixSlot outBase p.1 p.2 + n

/-- Results change no byte outside their slots. -/
theorem Memory.load_storeOuts_outside (f : Fmt) (v : Nat × Nat → Elem) (ps : List (Nat × Nat)) (m : Memory) (a : Nat)
    (h : ∀ p ∈ ps, ¬ InOutSlot (elemBytes f) p a) : (m.storeOuts f v ps).load a = m.load a := by
  induction ps generalizing m with
  | nil => rfl
  | cons p ps ih =>
    have hp := h p (List.mem_cons_self ..)
    unfold InOutSlot at hp
    rw [Memory.storeOuts, ih _ fun q hq => h q (List.mem_cons_of_mem _ hq), Memory.storeOut,
      Memory.load_store_outside _ _ _ _ (by rw [elemByteList_length]; omega)]

/-- Every byte of a result slot holds its byte of the value, when no two places share a byte. -/
theorem Memory.load_storeOuts_inside (f : Fmt) (v : Nat × Nat → Elem) (ps : List (Nat × Nat)) (m : Memory)
    (hd : ps.Pairwise fun p q => ∀ a, ¬ (InOutSlot (elemBytes f) p a ∧ InOutSlot (elemBytes f) q a))
    (p : Nat × Nat) (hp : p ∈ ps) (k : Nat) (hk : k < elemBytes f) :
    (m.storeOuts f v ps).load (matrixSlot outBase p.1 p.2 + k) = some ((v p).extractLsb' (8 * k) 8) := by
  induction ps generalizing m with
  | nil => cases hp
  | cons q ps ih =>
    rw [List.pairwise_cons] at hd
    by_cases hq : p ∈ ps
    · exact ih _ hd.2 hq
    · obtain rfl : p = q := (List.mem_cons.1 hp).resolve_right hq
      have hin : InOutSlot (elemBytes f) p (matrixSlot outBase p.1 p.2 + k) := by
        unfold InOutSlot; omega
      rw [Memory.storeOuts, Memory.load_storeOuts_outside _ _ _ _ _ fun r hr hra => hd.1 r hr _ ⟨hin, hra⟩,
        Memory.storeOut, Memory.load_store_inside _ _ _ _ (by rw [elemByteList_length]; exact hk)]
      simp [elemByteList, hk]

/-- Forgetting results changes no byte outside their slots. -/
theorem Memory.load_forgetOuts (ps : List (Nat × Nat)) (m : Memory) (a : Nat) :
    (∀ p ∈ ps, ¬ InOutSlot 8 p a) → (m.forgetOuts ps).load a = m.load a := by
  induction ps generalizing m with
  | nil => intro _; rfl
  | cons p ps ih =>
    intro h
    have hp := h p (List.mem_cons_self ..)
    unfold InOutSlot at hp
    rw [Memory.forgetOuts, ih _ fun q hq => h q (List.mem_cons_of_mem _ hq), Memory.load_forget, if_neg hp]

/-- A forgotten slot has no byte. -/
theorem Memory.load_forgetOuts_inside (ps : List (Nat × Nat)) (m : Memory) (p : Nat × Nat) (hp : p ∈ ps) (a : Nat)
    (ha : InOutSlot 8 p a) : (m.forgetOuts ps).load a = none := by
  have key : ∀ (qs : List (Nat × Nat)) (m : Memory), m.load a = none → (m.forgetOuts qs).load a = none := by
    intro qs
    induction qs with
    | nil => intro m h; exact h
    | cons q qs ih =>
      intro m h
      refine ih _ ?_
      rw [Memory.load_forget]
      split <;> simp [h]
  induction ps generalizing m with
  | nil => cases hp
  | cons q ps ih =>
    rcases List.mem_cons.1 hp with rfl | hp
    · exact key ps _ (by rw [Memory.load_forget]; exact if_pos ha)
    · exact ih _ hp

/-- The places of a block: row below `r`, column below `c`. -/
@[simp] theorem mem_blockPlaces (r c : Nat) (p : Nat × Nat) : p ∈ blockPlaces r c ↔ p.1 < r ∧ p.2 < c := by
  obtain ⟨i, j⟩ := p
  simp [blockPlaces]

/-- The slots of a block of at most 64 columns share no byte (20_memory.md R47). -/
theorem blockPlaces_disjoint (n r c : Nat) (hn : n ≤ 8) (hc : c ≤ 64) :
    (blockPlaces r c).Pairwise fun p q => ∀ a, ¬ (InOutSlot n p a ∧ InOutSlot n q a) := by
  have hnodup : (blockPlaces r c).Nodup := by
    have : blockPlaces r c = (List.range r).product (List.range c) := rfl
    rw [this]
    exact List.Nodup.product List.nodup_range List.nodup_range
  refine hnodup.imp_of_mem ?_
  intro p q hp hq hne a h
  rw [mem_blockPlaces] at hp hq
  unfold InOutSlot matrixSlot at h
  exact hne (Prod.ext (by omega) (by omega))

/-- The slots of one row share no byte, whatever its length. -/
theorem rowPlaces_disjoint (n c : Nat) (hn : n ≤ 8) :
    (blockPlaces 1 c).Pairwise fun p q => ∀ a, ¬ (InOutSlot n p a ∧ InOutSlot n q a) := by
  have hnodup : (blockPlaces 1 c).Nodup := by
    have : blockPlaces 1 c = (List.range 1).product (List.range c) := rfl
    rw [this]
    exact List.Nodup.product List.nodup_range List.nodup_range
  refine hnodup.imp_of_mem ?_
  intro p q hp hq hne a h
  rw [mem_blockPlaces] at hp hq
  unfold InOutSlot matrixSlot at h
  exact hne (Prod.ext (by omega) (by omega))

/-! ### Which bytes are listed -/

/-- A byte listed after a store was listed, or it is one of the stored bytes. -/
theorem Memory.mem_store (m : Memory) (off : Nat) (bs : List Byte) (c : Host.Cell) (h : c ∈ m.store off bs) :
    c ∈ m ∨ (off ≤ c.1 ∧ c.1 < off + bs.length) := by
  unfold Memory.store at h
  simp only [List.mem_append, List.mem_filter] at h
  rcases h with (h | h) | h
  · exact .inl h.1
  · exact .inr (cellsFrom_mem _ _ _ h)
  · exact .inl h.1

/-- A byte listed after results are written was listed, or it lies in a result slot. -/
theorem Memory.mem_storeOuts (f : Fmt) (v : Nat × Nat → Elem) (ps : List (Nat × Nat)) (m : Memory) (c : Host.Cell)
    (h : c ∈ m.storeOuts f v ps) : c ∈ m ∨ ∃ p ∈ ps, InOutSlot (elemBytes f) p c.1 := by
  induction ps generalizing m with
  | nil => exact .inl h
  | cons p ps ih =>
    rcases ih _ h with h | ⟨q, hq, hc⟩
    · rcases Memory.mem_store _ _ _ _ h with h | h
      · exact .inl h
      · exact .inr ⟨p, by simp, by simpa [InOutSlot] using h⟩
    · exact .inr ⟨q, by simp [hq], hc⟩

/-- A byte listed after slots are made unspecified was listed. -/
theorem Memory.mem_forgetOuts (ps : List (Nat × Nat)) (m : Memory) (c : Host.Cell) (h : c ∈ m.forgetOuts ps) : c ∈ m := by
  induction ps generalizing m with
  | nil => exact h
  | cons p ps ih => exact (List.mem_filter.1 (ih _ h)).1

end Sys2Proof.Machine
end

