-- ==== Sys2Proof/Laws/State.lean ====
section
/-! SUPPORT. What each operation on State does to each field: one lemma per field per update. -/

namespace Sys2Proof.Machine

/-! ### advance -/

@[simp] theorem State.advance_build (s : State) : s.advance.build = s.build := rfl
@[simp] theorem State.advance_doneIE (s : State) : s.advance.doneIE = s.doneIE := rfl
@[simp] theorem State.advance_errIE (s : State) : s.advance.errIE = s.errIE := rfl
@[simp] theorem State.advance_done (s : State) : s.advance.done = s.done := rfl
@[simp] theorem State.advance_err (s : State) : s.advance.err = s.err := rfl
@[simp] theorem State.advance_errcode (s : State) : s.advance.errcode = s.errcode := rfl
@[simp] theorem State.advance_acfg (s : State) : s.advance.acfg = s.acfg := rfl
@[simp] theorem State.advance_pend (s : State) : s.advance.pend = s.pend := rfl
@[simp] theorem State.advance_mem (s : State) : s.advance.mem = s.mem := rfl
@[simp] theorem State.advance_cosr (s : State) : s.advance.cosr = s.cosr := rfl
@[simp] theorem State.advance_cosc (s : State) : s.advance.cosc = s.cosc := rfl
@[simp] theorem State.advance_alphar (s : State) : s.advance.alphar = s.alphar := rfl
@[simp] theorem State.advance_alphac (s : State) : s.advance.alphac = s.alphac := rfl
@[simp] theorem State.advance_tbuf (s : State) : s.advance.tbuf = s.tbuf := rfl
@[simp] theorem State.advance_order (s : State) : s.advance.order = s.order.tail := rfl
@[simp] theorem State.advance_resp (s : State) : s.advance.resp = s.resp := rfl
@[simp] theorem State.advance_seq (s : State) : s.advance.seq = s.seq + 1 := rfl

/-! ### respond -/

@[simp] theorem State.respond_build (r : BusResp) (s : State) : (s.respond r).build = s.build := rfl
@[simp] theorem State.respond_doneIE (r : BusResp) (s : State) : (s.respond r).doneIE = s.doneIE := rfl
@[simp] theorem State.respond_errIE (r : BusResp) (s : State) : (s.respond r).errIE = s.errIE := rfl
@[simp] theorem State.respond_done (r : BusResp) (s : State) : (s.respond r).done = s.done := rfl
@[simp] theorem State.respond_err (r : BusResp) (s : State) : (s.respond r).err = s.err := rfl
@[simp] theorem State.respond_errcode (r : BusResp) (s : State) : (s.respond r).errcode = s.errcode := rfl
@[simp] theorem State.respond_acfg (r : BusResp) (s : State) : (s.respond r).acfg = s.acfg := rfl
@[simp] theorem State.respond_pend (r : BusResp) (s : State) : (s.respond r).pend = s.pend := rfl
@[simp] theorem State.respond_mem (r : BusResp) (s : State) : (s.respond r).mem = s.mem := rfl
@[simp] theorem State.respond_cosr (r : BusResp) (s : State) : (s.respond r).cosr = s.cosr := rfl
@[simp] theorem State.respond_cosc (r : BusResp) (s : State) : (s.respond r).cosc = s.cosc := rfl
@[simp] theorem State.respond_alphar (r : BusResp) (s : State) : (s.respond r).alphar = s.alphar := rfl
@[simp] theorem State.respond_alphac (r : BusResp) (s : State) : (s.respond r).alphac = s.alphac := rfl
@[simp] theorem State.respond_tbuf (r : BusResp) (s : State) : (s.respond r).tbuf = s.tbuf := rfl
@[simp] theorem State.respond_order (r : BusResp) (s : State) : (s.respond r).order = s.order.tail := rfl
@[simp] theorem State.respond_resp (r : BusResp) (s : State) : (s.respond r).resp = some r := rfl
@[simp] theorem State.respond_seq (r : BusResp) (s : State) : (s.respond r).seq = s.seq + 1 := rfl

/-! ### busError -/

@[simp] theorem State.busError_build (s : State) : s.busError.build = s.build := rfl
@[simp] theorem State.busError_doneIE (s : State) : s.busError.doneIE = s.doneIE := rfl
@[simp] theorem State.busError_errIE (s : State) : s.busError.errIE = s.errIE := rfl
@[simp] theorem State.busError_done (s : State) : s.busError.done = s.done := rfl
@[simp] theorem State.busError_err (s : State) : s.busError.err = s.err := rfl
@[simp] theorem State.busError_errcode (s : State) : s.busError.errcode = s.errcode := rfl
@[simp] theorem State.busError_acfg (s : State) : s.busError.acfg = s.acfg := rfl
@[simp] theorem State.busError_pend (s : State) : s.busError.pend = s.pend := rfl
@[simp] theorem State.busError_mem (s : State) : s.busError.mem = s.mem := rfl
@[simp] theorem State.busError_cosr (s : State) : s.busError.cosr = s.cosr := rfl
@[simp] theorem State.busError_cosc (s : State) : s.busError.cosc = s.cosc := rfl
@[simp] theorem State.busError_alphar (s : State) : s.busError.alphar = s.alphar := rfl
@[simp] theorem State.busError_alphac (s : State) : s.busError.alphac = s.alphac := rfl
@[simp] theorem State.busError_tbuf (s : State) : s.busError.tbuf = s.tbuf := rfl
@[simp] theorem State.busError_order (s : State) : s.busError.order = s.order.tail := rfl
@[simp] theorem State.busError_resp (s : State) : s.busError.resp = some .error := rfl
@[simp] theorem State.busError_seq (s : State) : s.busError.seq = s.seq + 1 := rfl

/-! ### reject -/

@[simp] theorem State.reject_build (code : ErrCode) (s : State) : (s.reject code).build = s.build := rfl
@[simp] theorem State.reject_doneIE (code : ErrCode) (s : State) : (s.reject code).doneIE = s.doneIE := rfl
@[simp] theorem State.reject_errIE (code : ErrCode) (s : State) : (s.reject code).errIE = s.errIE := rfl
@[simp] theorem State.reject_done (code : ErrCode) (s : State) : (s.reject code).done = s.done := rfl
@[simp] theorem State.reject_err (code : ErrCode) (s : State) : (s.reject code).err = true := rfl
@[simp] theorem State.reject_errcode (code : ErrCode) (s : State) : (s.reject code).errcode = code := rfl
@[simp] theorem State.reject_acfg (code : ErrCode) (s : State) : (s.reject code).acfg = s.acfg := rfl
@[simp] theorem State.reject_pend (code : ErrCode) (s : State) : (s.reject code).pend = s.pend := rfl
@[simp] theorem State.reject_mem (code : ErrCode) (s : State) : (s.reject code).mem = s.mem := rfl
@[simp] theorem State.reject_cosr (code : ErrCode) (s : State) : (s.reject code).cosr = s.cosr := rfl
@[simp] theorem State.reject_cosc (code : ErrCode) (s : State) : (s.reject code).cosc = s.cosc := rfl
@[simp] theorem State.reject_alphar (code : ErrCode) (s : State) : (s.reject code).alphar = s.alphar := rfl
@[simp] theorem State.reject_alphac (code : ErrCode) (s : State) : (s.reject code).alphac = s.alphac := rfl
@[simp] theorem State.reject_tbuf (code : ErrCode) (s : State) : (s.reject code).tbuf = s.tbuf := rfl
@[simp] theorem State.reject_order (code : ErrCode) (s : State) : (s.reject code).order = s.order.tail := rfl
@[simp] theorem State.reject_resp (code : ErrCode) (s : State) : (s.reject code).resp = some .written := rfl
@[simp] theorem State.reject_seq (code : ErrCode) (s : State) : (s.reject code).seq = s.seq + 1 := rfl

/-! ### accept -/

@[simp] theorem State.accept_build (i : Instr) (s : State) : (s.accept i).build = s.build := rfl
@[simp] theorem State.accept_doneIE (i : Instr) (s : State) : (s.accept i).doneIE = s.doneIE := rfl
@[simp] theorem State.accept_errIE (i : Instr) (s : State) : (s.accept i).errIE = s.errIE := rfl
@[simp] theorem State.accept_done (i : Instr) (s : State) : (s.accept i).done = s.done := rfl
@[simp] theorem State.accept_err (i : Instr) (s : State) : (s.accept i).err = s.err := rfl
@[simp] theorem State.accept_errcode (i : Instr) (s : State) : (s.accept i).errcode = s.errcode := rfl
@[simp] theorem State.accept_acfg (i : Instr) (s : State) :
    (s.accept i).acfg = if i.isConfig then .unconfigured else s.acfg := rfl
@[simp] theorem State.accept_pend (i : Instr) (s : State) : (s.accept i).pend = some i := rfl
@[simp] theorem State.accept_mem (i : Instr) (s : State) : (s.accept i).mem = s.mem := rfl
@[simp] theorem State.accept_cosr (i : Instr) (s : State) : (s.accept i).cosr = s.cosr := rfl
@[simp] theorem State.accept_cosc (i : Instr) (s : State) : (s.accept i).cosc = s.cosc := rfl
@[simp] theorem State.accept_alphar (i : Instr) (s : State) : (s.accept i).alphar = s.alphar := rfl
@[simp] theorem State.accept_alphac (i : Instr) (s : State) : (s.accept i).alphac = s.alphac := rfl
@[simp] theorem State.accept_tbuf (i : Instr) (s : State) : (s.accept i).tbuf = s.tbuf := rfl
@[simp] theorem State.accept_order (i : Instr) (s : State) : (s.accept i).order = s.order.tail := rfl
@[simp] theorem State.accept_resp (i : Instr) (s : State) : (s.accept i).resp = some .written := rfl
@[simp] theorem State.accept_seq (i : Instr) (s : State) : (s.accept i).seq = s.seq + 1 := rfl

/-! ### finish -/

@[simp] theorem State.finish_build (s : State) : s.finish.build = s.build := rfl
@[simp] theorem State.finish_doneIE (s : State) : s.finish.doneIE = s.doneIE := rfl
@[simp] theorem State.finish_errIE (s : State) : s.finish.errIE = s.errIE := rfl
@[simp] theorem State.finish_done (s : State) : s.finish.done = true := rfl
@[simp] theorem State.finish_err (s : State) : s.finish.err = s.err := rfl
@[simp] theorem State.finish_errcode (s : State) : s.finish.errcode = s.errcode := rfl
@[simp] theorem State.finish_acfg (s : State) : s.finish.acfg = s.acfg := rfl
@[simp] theorem State.finish_pend (s : State) : s.finish.pend = none := rfl
@[simp] theorem State.finish_mem (s : State) : s.finish.mem = s.mem := rfl
@[simp] theorem State.finish_cosr (s : State) : s.finish.cosr = s.cosr := rfl
@[simp] theorem State.finish_cosc (s : State) : s.finish.cosc = s.cosc := rfl
@[simp] theorem State.finish_alphar (s : State) : s.finish.alphar = s.alphar := rfl
@[simp] theorem State.finish_alphac (s : State) : s.finish.alphac = s.alphac := rfl
@[simp] theorem State.finish_tbuf (s : State) : s.finish.tbuf = s.tbuf := rfl
@[simp] theorem State.finish_order (s : State) : s.finish.order = s.order.tail := rfl
@[simp] theorem State.finish_resp (s : State) : s.finish.resp = s.resp := rfl
@[simp] theorem State.finish_seq (s : State) : s.finish.seq = s.seq + 1 := rfl

/-! ### clearStatus -/

@[simp] theorem State.clearStatus_build (d : Word) (s : State) : (s.clearStatus d).build = s.build := rfl
@[simp] theorem State.clearStatus_doneIE (d : Word) (s : State) : (s.clearStatus d).doneIE = s.doneIE := rfl
@[simp] theorem State.clearStatus_errIE (d : Word) (s : State) : (s.clearStatus d).errIE = s.errIE := rfl
@[simp] theorem State.clearStatus_done (d : Word) (s : State) : (s.clearStatus d).done = (s.done && !d.getLsbD 8) := rfl
@[simp] theorem State.clearStatus_err (d : Word) (s : State) : (s.clearStatus d).err = (s.err && !d.getLsbD 9) := rfl
@[simp] theorem State.clearStatus_errcode (d : Word) (s : State) :
    (s.clearStatus d).errcode = if d.getLsbD 9 then .none else s.errcode := rfl
@[simp] theorem State.clearStatus_acfg (d : Word) (s : State) : (s.clearStatus d).acfg = s.acfg := rfl
@[simp] theorem State.clearStatus_pend (d : Word) (s : State) : (s.clearStatus d).pend = s.pend := rfl
@[simp] theorem State.clearStatus_mem (d : Word) (s : State) : (s.clearStatus d).mem = s.mem := rfl
@[simp] theorem State.clearStatus_cosr (d : Word) (s : State) : (s.clearStatus d).cosr = s.cosr := rfl
@[simp] theorem State.clearStatus_cosc (d : Word) (s : State) : (s.clearStatus d).cosc = s.cosc := rfl
@[simp] theorem State.clearStatus_alphar (d : Word) (s : State) : (s.clearStatus d).alphar = s.alphar := rfl
@[simp] theorem State.clearStatus_alphac (d : Word) (s : State) : (s.clearStatus d).alphac = s.alphac := rfl
@[simp] theorem State.clearStatus_tbuf (d : Word) (s : State) : (s.clearStatus d).tbuf = s.tbuf := rfl
@[simp] theorem State.clearStatus_order (d : Word) (s : State) : (s.clearStatus d).order = s.order := rfl
@[simp] theorem State.clearStatus_resp (d : Word) (s : State) : (s.clearStatus d).resp = s.resp := rfl
@[simp] theorem State.clearStatus_seq (d : Word) (s : State) : (s.clearStatus d).seq = s.seq := rfl

/-! ### setEnables -/

@[simp] theorem State.setEnables_build (d : Word) (s : State) : (s.setEnables d).build = s.build := rfl
@[simp] theorem State.setEnables_doneIE (d : Word) (s : State) : (s.setEnables d).doneIE = d.getLsbD 0 := rfl
@[simp] theorem State.setEnables_errIE (d : Word) (s : State) : (s.setEnables d).errIE = d.getLsbD 1 := rfl
@[simp] theorem State.setEnables_done (d : Word) (s : State) : (s.setEnables d).done = s.done := rfl
@[simp] theorem State.setEnables_err (d : Word) (s : State) : (s.setEnables d).err = s.err := rfl
@[simp] theorem State.setEnables_errcode (d : Word) (s : State) : (s.setEnables d).errcode = s.errcode := rfl
@[simp] theorem State.setEnables_acfg (d : Word) (s : State) : (s.setEnables d).acfg = s.acfg := rfl
@[simp] theorem State.setEnables_pend (d : Word) (s : State) : (s.setEnables d).pend = s.pend := rfl
@[simp] theorem State.setEnables_mem (d : Word) (s : State) : (s.setEnables d).mem = s.mem := rfl
@[simp] theorem State.setEnables_cosr (d : Word) (s : State) : (s.setEnables d).cosr = s.cosr := rfl
@[simp] theorem State.setEnables_cosc (d : Word) (s : State) : (s.setEnables d).cosc = s.cosc := rfl
@[simp] theorem State.setEnables_alphar (d : Word) (s : State) : (s.setEnables d).alphar = s.alphar := rfl
@[simp] theorem State.setEnables_alphac (d : Word) (s : State) : (s.setEnables d).alphac = s.alphac := rfl
@[simp] theorem State.setEnables_tbuf (d : Word) (s : State) : (s.setEnables d).tbuf = s.tbuf := rfl
@[simp] theorem State.setEnables_order (d : Word) (s : State) : (s.setEnables d).order = s.order := rfl
@[simp] theorem State.setEnables_resp (d : Word) (s : State) : (s.setEnables d).resp = s.resp := rfl
@[simp] theorem State.setEnables_seq (d : Word) (s : State) : (s.setEnables d).seq = s.seq := rfl

/-! ### softReset -/

@[simp] theorem State.softReset_build (s : State) : s.softReset.build = s.build := rfl
@[simp] theorem State.softReset_doneIE (s : State) : s.softReset.doneIE = false := rfl
@[simp] theorem State.softReset_errIE (s : State) : s.softReset.errIE = false := rfl
@[simp] theorem State.softReset_done (s : State) : s.softReset.done = false := rfl
@[simp] theorem State.softReset_err (s : State) : s.softReset.err = false := rfl
@[simp] theorem State.softReset_errcode (s : State) : s.softReset.errcode = .none := rfl
@[simp] theorem State.softReset_acfg (s : State) : s.softReset.acfg = .unconfigured := rfl
@[simp] theorem State.softReset_pend (s : State) : s.softReset.pend = none := rfl
@[simp] theorem State.softReset_mem (s : State) : s.softReset.mem = s.mem.forgetOuts s.abortedPlaces := rfl
@[simp] theorem State.softReset_cosr (s : State) : s.softReset.cosr = s.cosr := rfl
@[simp] theorem State.softReset_cosc (s : State) : s.softReset.cosc = s.cosc := rfl
@[simp] theorem State.softReset_alphar (s : State) : s.softReset.alphar = s.alphar := rfl
@[simp] theorem State.softReset_alphac (s : State) : s.softReset.alphac = s.alphac := rfl
@[simp] theorem State.softReset_tbuf (s : State) : s.softReset.tbuf = [] := rfl
@[simp] theorem State.softReset_order (s : State) : s.softReset.order = s.order.tail := rfl
@[simp] theorem State.softReset_resp (s : State) : s.softReset.resp = some .written := rfl
@[simp] theorem State.softReset_seq (s : State) : s.softReset.seq = s.seq + 1 := rfl

/-! ### powerOn -/

@[simp] theorem State.powerOn_build (s : State) : s.powerOn.build = s.build := rfl
@[simp] theorem State.powerOn_doneIE (s : State) : s.powerOn.doneIE = false := rfl
@[simp] theorem State.powerOn_errIE (s : State) : s.powerOn.errIE = false := rfl
@[simp] theorem State.powerOn_done (s : State) : s.powerOn.done = false := rfl
@[simp] theorem State.powerOn_err (s : State) : s.powerOn.err = false := rfl
@[simp] theorem State.powerOn_errcode (s : State) : s.powerOn.errcode = .none := rfl
@[simp] theorem State.powerOn_acfg (s : State) : s.powerOn.acfg = .unconfigured := rfl
@[simp] theorem State.powerOn_pend (s : State) : s.powerOn.pend = none := rfl
@[simp] theorem State.powerOn_mem (s : State) : s.powerOn.mem = [] := rfl
@[simp] theorem State.powerOn_cosr (s : State) : s.powerOn.cosr = [] := rfl
@[simp] theorem State.powerOn_cosc (s : State) : s.powerOn.cosc = [] := rfl
@[simp] theorem State.powerOn_alphar (s : State) : s.powerOn.alphar = [] := rfl
@[simp] theorem State.powerOn_alphac (s : State) : s.powerOn.alphac = [] := rfl
@[simp] theorem State.powerOn_tbuf (s : State) : s.powerOn.tbuf = [] := rfl
@[simp] theorem State.powerOn_order (s : State) : s.powerOn.order = s.order.tail := rfl
@[simp] theorem State.powerOn_resp (s : State) : s.powerOn.resp = none := rfl
@[simp] theorem State.powerOn_seq (s : State) : s.powerOn.seq = s.seq + 1 := rfl

/-! ### installFixed -/

@[simp] theorem State.installFixed_build (s : State) : s.installFixed.build = s.build := rfl
@[simp] theorem State.installFixed_doneIE (s : State) : s.installFixed.doneIE = s.doneIE := rfl
@[simp] theorem State.installFixed_errIE (s : State) : s.installFixed.errIE = s.errIE := rfl
@[simp] theorem State.installFixed_done (s : State) : s.installFixed.done = s.done := rfl
@[simp] theorem State.installFixed_err (s : State) : s.installFixed.err = s.err := rfl
@[simp] theorem State.installFixed_errcode (s : State) : s.installFixed.errcode = s.errcode := rfl
@[simp] theorem State.installFixed_acfg (s : State) : s.installFixed.acfg = s.acfg := rfl
@[simp] theorem State.installFixed_pend (s : State) : s.installFixed.pend = s.pend := rfl
@[simp] theorem State.installFixed_mem (s : State) : s.installFixed.mem = s.mem := rfl
@[simp] theorem State.installFixed_cosr (s : State) : s.installFixed.cosr = cos4 s.build.fmt := rfl
@[simp] theorem State.installFixed_cosc (s : State) : s.installFixed.cosc = cos4 s.build.fmt := rfl
@[simp] theorem State.installFixed_alphar (s : State) : s.installFixed.alphar = alpha4 s.build.fmt := rfl
@[simp] theorem State.installFixed_alphac (s : State) : s.installFixed.alphac = alpha4 s.build.fmt := rfl
@[simp] theorem State.installFixed_tbuf (s : State) : s.installFixed.tbuf = s.tbuf := rfl
@[simp] theorem State.installFixed_order (s : State) : s.installFixed.order = s.order := rfl
@[simp] theorem State.installFixed_resp (s : State) : s.installFixed.resp = s.resp := rfl
@[simp] theorem State.installFixed_seq (s : State) : s.installFixed.seq = s.seq := rfl

/-! ### installGenerated -/

@[simp] theorem State.installGenerated_build (r c : Nat) (s : State) : (s.installGenerated r c).build = s.build := rfl
@[simp] theorem State.installGenerated_doneIE (r c : Nat) (s : State) :
    (s.installGenerated r c).doneIE = s.doneIE := rfl
@[simp] theorem State.installGenerated_errIE (r c : Nat) (s : State) : (s.installGenerated r c).errIE = s.errIE := rfl
@[simp] theorem State.installGenerated_done (r c : Nat) (s : State) : (s.installGenerated r c).done = s.done := rfl
@[simp] theorem State.installGenerated_err (r c : Nat) (s : State) : (s.installGenerated r c).err = s.err := rfl
@[simp] theorem State.installGenerated_errcode (r c : Nat) (s : State) :
    (s.installGenerated r c).errcode = s.errcode := rfl
@[simp] theorem State.installGenerated_acfg (r c : Nat) (s : State) : (s.installGenerated r c).acfg = s.acfg := rfl
@[simp] theorem State.installGenerated_pend (r c : Nat) (s : State) : (s.installGenerated r c).pend = s.pend := rfl
@[simp] theorem State.installGenerated_mem (r c : Nat) (s : State) : (s.installGenerated r c).mem = s.mem := rfl
@[simp] theorem State.installGenerated_cosr (r c : Nat) (s : State) :
    (s.installGenerated r c).cosr = cosTable s.build.fmt r := rfl
@[simp] theorem State.installGenerated_cosc (r c : Nat) (s : State) :
    (s.installGenerated r c).cosc = cosTable s.build.fmt c := rfl
@[simp] theorem State.installGenerated_alphar (r c : Nat) (s : State) :
    (s.installGenerated r c).alphar = alphaTable s.build.fmt r := rfl
@[simp] theorem State.installGenerated_alphac (r c : Nat) (s : State) :
    (s.installGenerated r c).alphac = alphaTable s.build.fmt c := rfl
@[simp] theorem State.installGenerated_tbuf (r c : Nat) (s : State) : (s.installGenerated r c).tbuf = s.tbuf := rfl
@[simp] theorem State.installGenerated_order (r c : Nat) (s : State) : (s.installGenerated r c).order = s.order := rfl
@[simp] theorem State.installGenerated_resp (r c : Nat) (s : State) : (s.installGenerated r c).resp = s.resp := rfl
@[simp] theorem State.installGenerated_seq (r c : Nat) (s : State) : (s.installGenerated r c).seq = s.seq := rfl

/-! ### fillT -/

@[simp] theorem State.fillT_build (p : Nat → Nat → Elem) (s : State) : (s.fillT p).build = s.build := rfl
@[simp] theorem State.fillT_doneIE (p : Nat → Nat → Elem) (s : State) : (s.fillT p).doneIE = s.doneIE := rfl
@[simp] theorem State.fillT_errIE (p : Nat → Nat → Elem) (s : State) : (s.fillT p).errIE = s.errIE := rfl
@[simp] theorem State.fillT_done (p : Nat → Nat → Elem) (s : State) : (s.fillT p).done = s.done := rfl
@[simp] theorem State.fillT_err (p : Nat → Nat → Elem) (s : State) : (s.fillT p).err = s.err := rfl
@[simp] theorem State.fillT_errcode (p : Nat → Nat → Elem) (s : State) : (s.fillT p).errcode = s.errcode := rfl
@[simp] theorem State.fillT_acfg (p : Nat → Nat → Elem) (s : State) : (s.fillT p).acfg = s.acfg := rfl
@[simp] theorem State.fillT_pend (p : Nat → Nat → Elem) (s : State) : (s.fillT p).pend = s.pend := rfl
@[simp] theorem State.fillT_mem (p : Nat → Nat → Elem) (s : State) : (s.fillT p).mem = s.mem := rfl
@[simp] theorem State.fillT_cosr (p : Nat → Nat → Elem) (s : State) : (s.fillT p).cosr = s.cosr := rfl
@[simp] theorem State.fillT_cosc (p : Nat → Nat → Elem) (s : State) : (s.fillT p).cosc = s.cosc := rfl
@[simp] theorem State.fillT_alphar (p : Nat → Nat → Elem) (s : State) : (s.fillT p).alphar = s.alphar := rfl
@[simp] theorem State.fillT_alphac (p : Nat → Nat → Elem) (s : State) : (s.fillT p).alphac = s.alphac := rfl
@[simp] theorem State.fillT_tbuf (p : Nat → Nat → Elem) (s : State) : (s.fillT p).tbuf = 
      (List.range s.sizeR).map fun r => (List.range s.sizeC).map fun c => p r c := rfl
@[simp] theorem State.fillT_order (p : Nat → Nat → Elem) (s : State) : (s.fillT p).order = s.order := rfl
@[simp] theorem State.fillT_resp (p : Nat → Nat → Elem) (s : State) : (s.fillT p).resp = s.resp := rfl
@[simp] theorem State.fillT_seq (p : Nat → Nat → Elem) (s : State) : (s.fillT p).seq = s.seq := rfl

/-! ### writeResult -/

@[simp] theorem State.writeResult_build (i : Instr) (v : Nat × Nat → Elem) (s : State) :
    (s.writeResult i v).build = s.build := rfl
@[simp] theorem State.writeResult_doneIE (i : Instr) (v : Nat × Nat → Elem) (s : State) :
    (s.writeResult i v).doneIE = s.doneIE := rfl
@[simp] theorem State.writeResult_errIE (i : Instr) (v : Nat × Nat → Elem) (s : State) :
    (s.writeResult i v).errIE = s.errIE := rfl
@[simp] theorem State.writeResult_done (i : Instr) (v : Nat × Nat → Elem) (s : State) :
    (s.writeResult i v).done = true := rfl
@[simp] theorem State.writeResult_err (i : Instr) (v : Nat × Nat → Elem) (s : State) :
    (s.writeResult i v).err = s.err := rfl
@[simp] theorem State.writeResult_errcode (i : Instr) (v : Nat × Nat → Elem) (s : State) :
    (s.writeResult i v).errcode = s.errcode := rfl
@[simp] theorem State.writeResult_acfg (i : Instr) (v : Nat × Nat → Elem) (s : State) :
    (s.writeResult i v).acfg = s.acfg := rfl
@[simp] theorem State.writeResult_pend (i : Instr) (v : Nat × Nat → Elem) (s : State) :
    (s.writeResult i v).pend = none := rfl
@[simp] theorem State.writeResult_mem (i : Instr) (v : Nat × Nat → Elem) (s : State) : (s.writeResult i v).mem = 
      s.mem.storeOuts s.build.fmt v (s.resultPlaces i) := rfl
@[simp] theorem State.writeResult_cosr (i : Instr) (v : Nat × Nat → Elem) (s : State) :
    (s.writeResult i v).cosr = s.cosr := rfl
@[simp] theorem State.writeResult_cosc (i : Instr) (v : Nat × Nat → Elem) (s : State) :
    (s.writeResult i v).cosc = s.cosc := rfl
@[simp] theorem State.writeResult_alphar (i : Instr) (v : Nat × Nat → Elem) (s : State) :
    (s.writeResult i v).alphar = s.alphar := rfl
@[simp] theorem State.writeResult_alphac (i : Instr) (v : Nat × Nat → Elem) (s : State) :
    (s.writeResult i v).alphac = s.alphac := rfl
@[simp] theorem State.writeResult_tbuf (i : Instr) (v : Nat × Nat → Elem) (s : State) :
    (s.writeResult i v).tbuf = s.tbuf := rfl
@[simp] theorem State.writeResult_order (i : Instr) (v : Nat × Nat → Elem) (s : State) :
    (s.writeResult i v).order = s.order.tail := rfl
@[simp] theorem State.writeResult_resp (i : Instr) (v : Nat × Nat → Elem) (s : State) :
    (s.writeResult i v).resp = s.resp := rfl
@[simp] theorem State.writeResult_seq (i : Instr) (v : Nat × Nat → Elem) (s : State) :
    (s.writeResult i v).seq = s.seq + 1 := rfl

/-! ### withFetchWord -/

@[simp] theorem State.withFetchWord_build (s : State) (nbits w : Nat) : (s.withFetchWord nbits w).build = s.build := rfl
@[simp] theorem State.withFetchWord_doneIE (s : State) (nbits w : Nat) :
    (s.withFetchWord nbits w).doneIE = s.doneIE := rfl
@[simp] theorem State.withFetchWord_errIE (s : State) (nbits w : Nat) : (s.withFetchWord nbits w).errIE = s.errIE := rfl
@[simp] theorem State.withFetchWord_done (s : State) (nbits w : Nat) : (s.withFetchWord nbits w).done = s.done := rfl
@[simp] theorem State.withFetchWord_err (s : State) (nbits w : Nat) : (s.withFetchWord nbits w).err = s.err := rfl
@[simp] theorem State.withFetchWord_errcode (s : State) (nbits w : Nat) :
    (s.withFetchWord nbits w).errcode = s.errcode := rfl
@[simp] theorem State.withFetchWord_acfg (s : State) (nbits w : Nat) : (s.withFetchWord nbits w).acfg = s.acfg := rfl
@[simp] theorem State.withFetchWord_pend (s : State) (nbits w : Nat) : (s.withFetchWord nbits w).pend = s.pend := rfl
@[simp] theorem State.withFetchWord_mem (s : State) (nbits w : Nat) : (s.withFetchWord nbits w).mem = s.mem := rfl
@[simp] theorem State.withFetchWord_cosr (s : State) (nbits w : Nat) : (s.withFetchWord nbits w).cosr = s.cosr := rfl
@[simp] theorem State.withFetchWord_cosc (s : State) (nbits w : Nat) : (s.withFetchWord nbits w).cosc = s.cosc := rfl
@[simp] theorem State.withFetchWord_alphar (s : State) (nbits w : Nat) :
    (s.withFetchWord nbits w).alphar = s.alphar := rfl
@[simp] theorem State.withFetchWord_alphac (s : State) (nbits w : Nat) :
    (s.withFetchWord nbits w).alphac = s.alphac := rfl
@[simp] theorem State.withFetchWord_tbuf (s : State) (nbits w : Nat) : (s.withFetchWord nbits w).tbuf = s.tbuf := rfl
@[simp] theorem State.withFetchWord_order (s : State) (nbits w : Nat) : (s.withFetchWord nbits w).order = 
      cmdWrite s.build (BitVec.ofNat 32 (w % 2 ^ nbits)) :: s.order := rfl
@[simp] theorem State.withFetchWord_resp (s : State) (nbits w : Nat) : (s.withFetchWord nbits w).resp = s.resp := rfl
@[simp] theorem State.withFetchWord_seq (s : State) (nbits w : Nat) : (s.withFetchWord nbits w).seq = s.seq := rfl

/-! ### writeIn: only the memory -/

@[simp] theorem State.writeIn_build (r c : Nat) (hi : Bool) (d : Word) (s : State) :
    (s.writeIn r c hi d).build = s.build := by
  unfold State.writeIn; split <;> rfl
@[simp] theorem State.writeIn_doneIE (r c : Nat) (hi : Bool) (d : Word) (s : State) :
    (s.writeIn r c hi d).doneIE = s.doneIE := by
  unfold State.writeIn; split <;> rfl
@[simp] theorem State.writeIn_errIE (r c : Nat) (hi : Bool) (d : Word) (s : State) :
    (s.writeIn r c hi d).errIE = s.errIE := by
  unfold State.writeIn; split <;> rfl
@[simp] theorem State.writeIn_done (r c : Nat) (hi : Bool) (d : Word) (s : State) :
    (s.writeIn r c hi d).done = s.done := by
  unfold State.writeIn; split <;> rfl
@[simp] theorem State.writeIn_err (r c : Nat) (hi : Bool) (d : Word) (s : State) :
    (s.writeIn r c hi d).err = s.err := by
  unfold State.writeIn; split <;> rfl
@[simp] theorem State.writeIn_errcode (r c : Nat) (hi : Bool) (d : Word) (s : State) :
    (s.writeIn r c hi d).errcode = s.errcode := by
  unfold State.writeIn; split <;> rfl
@[simp] theorem State.writeIn_acfg (r c : Nat) (hi : Bool) (d : Word) (s : State) :
    (s.writeIn r c hi d).acfg = s.acfg := by
  unfold State.writeIn; split <;> rfl
@[simp] theorem State.writeIn_pend (r c : Nat) (hi : Bool) (d : Word) (s : State) :
    (s.writeIn r c hi d).pend = s.pend := by
  unfold State.writeIn; split <;> rfl
@[simp] theorem State.writeIn_cosr (r c : Nat) (hi : Bool) (d : Word) (s : State) :
    (s.writeIn r c hi d).cosr = s.cosr := by
  unfold State.writeIn; split <;> rfl
@[simp] theorem State.writeIn_cosc (r c : Nat) (hi : Bool) (d : Word) (s : State) :
    (s.writeIn r c hi d).cosc = s.cosc := by
  unfold State.writeIn; split <;> rfl
@[simp] theorem State.writeIn_alphar (r c : Nat) (hi : Bool) (d : Word) (s : State) :
    (s.writeIn r c hi d).alphar = s.alphar := by
  unfold State.writeIn; split <;> rfl
@[simp] theorem State.writeIn_alphac (r c : Nat) (hi : Bool) (d : Word) (s : State) :
    (s.writeIn r c hi d).alphac = s.alphac := by
  unfold State.writeIn; split <;> rfl
@[simp] theorem State.writeIn_tbuf (r c : Nat) (hi : Bool) (d : Word) (s : State) :
    (s.writeIn r c hi d).tbuf = s.tbuf := by
  unfold State.writeIn; split <;> rfl
@[simp] theorem State.writeIn_order (r c : Nat) (hi : Bool) (d : Word) (s : State) :
    (s.writeIn r c hi d).order = s.order := by
  unfold State.writeIn; split <;> rfl
@[simp] theorem State.writeIn_resp (r c : Nat) (hi : Bool) (d : Word) (s : State) :
    (s.writeIn r c hi d).resp = s.resp := by
  unfold State.writeIn; split <;> rfl
@[simp] theorem State.writeIn_seq (r c : Nat) (hi : Bool) (d : Word) (s : State) :
    (s.writeIn r c hi d).seq = s.seq := by
  unfold State.writeIn; split <;> rfl

end Sys2Proof.Machine
end

