-- ==== Sys2Proof/Laws/Step.lean ====
section
/-! SUPPORT. What a step can do, said once: the completion and the issue of each command, and the cases of one step. -/

namespace Sys2Proof.Machine

/-! ### Who moves -/

theorem State.engineTurn_iff (s : State) :
    s.engineTurn = true ↔ s.order = [] ∨ ∃ rest, s.order = .engine :: rest := by
  unfold State.engineTurn
  split <;> simp_all

@[simp] theorem State.engineTurn_access (s : State) (a : Access) (rest : List Event) (h : s.order = .access a :: rest) :
    s.engineTurn = false := by simp [State.engineTurn, h]

theorem State.completes_iff (i : Instr) (s : State) :
    s.completes i = true ↔ s.engineTurn = true ∧ s.pend = some i := by simp [State.completes]

theorem State.busy_iff (s : State) : s.busy = true ↔ ∃ i, s.pend = some i := Option.isSome_iff_exists

/-! ### The checks as propositions -/

theorem State.configured_iff (s : State) : s.configured = true ↔ s.acfg.rows ≠ 0 := by simp [State.configured]

theorem State.shape1d_iff (s : State) (a b : Nat) : s.shape1d a b = true ↔ a = 1 ∧ b = s.acfg.cols.toNat := by
  simp only [State.shape1d, Bool.and_eq_true, decide_eq_true_eq]
  rfl

theorem State.shape2d_iff (s : State) (a b : Nat) :
    s.shape2d a b = true ↔ a = s.acfg.rows.toNat ∧ b = s.acfg.cols.toNat := by
  simp only [State.shape2d, Bool.and_eq_true, decide_eq_true_eq]
  rfl

theorem badConfig_iff (nmax r c : Nat) (f4 : Bool) :
    badConfig nmax r c f4 = true ↔ r = 0 ∨ c = 0 ∨ nmax < r ∨ nmax < c ∨ (f4 = true ∧ (r ≠ 4 ∨ c ≠ 4)) := by
  simp [badConfig, or_assoc]

/-! ### The completion and the issue of a command -/

/-- The completion of a command, by its own rule. -/
def completion (i : Instr) (s : State) : State :=
  match i with
  | .config r c f4 => completeConfig r c f4 s
  | .fwd1d a b => completeFwd1d a b s
  | .inv1d a b => completeInv1d a b s
  | .fwd2d a b => completeFwd2d a b s
  | .inv2d a b => completeInv2d a b s

/-- The issue of a command, by its own rule. -/
def issue (i : Instr) (s : State) : State :=
  match i with
  | .config r c f4 => issueConfig r c f4 s
  | .fwd1d a b => s.issueTransform (.fwd1d a b) (s.shape1d a b)
  | .inv1d a b => s.issueTransform (.inv1d a b) (s.shape1d a b)
  | .fwd2d a b => s.issueTransform (.fwd2d a b) (s.shape2d a b)
  | .inv2d a b => s.issueTransform (.inv2d a b) (s.shape2d a b)

/-- A run of a command is its completion or its issue, and always a next state. -/
theorem exec_eq (i : Instr) (s : State) :
    exec i s = .next (if s.completes i then completion i s else issue i s) := by
  cases i <;> simp only [exec, execConfig, execFwd1d, execInv1d, execFwd2d, execInv2d, completion, issue] <;> split <;> rfl

theorem exec_completes (i : Instr) (s : State) (h : s.engineTurn = true) (hp : s.pend = some i) :
    exec i s = .next (completion i s) := by
  rw [exec_eq, if_pos ((s.completes_iff i).2 ⟨h, hp⟩)]

theorem exec_issues (i : Instr) (s : State) (h : ¬ (s.engineTurn = true ∧ s.pend = some i)) :
    exec i s = .next (issue i s) := by
  rw [exec_eq, if_neg (by rwa [s.completes_iff])]

theorem exec_issues_idle (i : Instr) (s : State) (h : s.pend = none) : exec i s = .next (issue i s) :=
  exec_issues i s (by simp [h])

/-- The checks a command must pass to be accepted, after BUSY (60_exceptions.md R124). -/
def Acceptable (i : Instr) (s : State) : Prop :=
  match i with
  | .config r c f4 => badConfig s.build.nmax r c f4 = false
  | .fwd1d a b => s.configured = true ∧ s.shape1d a b = true
  | .inv1d a b => s.configured = true ∧ s.shape1d a b = true
  | .fwd2d a b => s.configured = true ∧ s.shape2d a b = true
  | .inv2d a b => s.configured = true ∧ s.shape2d a b = true

theorem issueTransform_cases (i : Instr) (ok : Bool) (s : State) :
    (∃ code, code ≠ .none ∧ s.issueTransform i ok = s.reject code) ∨
    (s.pend = none ∧ s.configured = true ∧ ok = true ∧ s.issueTransform i ok = s.accept i) := by
  unfold State.issueTransform
  cases hb : s.busy
  · have hp : s.pend = none := by simpa [State.busy] using hb
    cases hc : s.configured
    · exact .inl ⟨.notConfigured, by decide, by simp⟩
    · cases ok
      · exact .inl ⟨.dimMismatch, by decide, by simp⟩
      · exact .inr ⟨hp, rfl, rfl, by simp⟩
  · exact .inl ⟨.busy, by decide, by simp⟩

/-- An issue rejects the command, or accepts it after all its checks. -/
theorem issue_cases (i : Instr) (s : State) :
    (∃ code, code ≠ .none ∧ issue i s = s.reject code) ∨
    (s.pend = none ∧ Acceptable i s ∧ issue i s = s.accept i) := by
  cases i with
  | config r c f4 =>
    simp only [issue, issueConfig, Acceptable]
    cases hb : s.busy
    · have hp : s.pend = none := by simpa [State.busy] using hb
      cases hc : badConfig s.build.nmax r c f4
      · exact .inr ⟨hp, rfl, by simp⟩
      · exact .inl ⟨.invalidConfig, by decide, by simp⟩
    · exact .inl ⟨.busy, by decide, by simp⟩
  | fwd1d a b =>
    exact (issueTransform_cases (.fwd1d a b) (s.shape1d a b) s).imp id fun ⟨h1, h2, h3, h4⟩ => ⟨h1, ⟨h2, h3⟩, h4⟩
  | inv1d a b =>
    exact (issueTransform_cases (.inv1d a b) (s.shape1d a b) s).imp id fun ⟨h1, h2, h3, h4⟩ => ⟨h1, ⟨h2, h3⟩, h4⟩
  | fwd2d a b =>
    exact (issueTransform_cases (.fwd2d a b) (s.shape2d a b) s).imp id fun ⟨h1, h2, h3, h4⟩ => ⟨h1, ⟨h2, h3⟩, h4⟩
  | inv2d a b =>
    exact (issueTransform_cases (.inv2d a b) (s.shape2d a b) s).imp id fun ⟨h1, h2, h3, h4⟩ => ⟨h1, ⟨h2, h3⟩, h4⟩

/-- The completion of a transform writes OUT over its result shape and ends, T aside (R115, R121). -/
theorem completion_transform (i : Instr) (s : State) (hi : i.isConfig = false) :
    ∃ (t : List (List Elem)) (v : Nat × Nat → Elem),
      completion i s = { s.writeResult i v with tbuf := t } := by
  cases i with
  | config r c f4 => cases hi
  | fwd1d a b => exact ⟨s.tbuf, _, rfl⟩
  | inv1d a b => exact ⟨_, _, rfl⟩
  | fwd2d a b => exact ⟨_, _, rfl⟩
  | inv2d a b => exact ⟨_, _, rfl⟩

/-- Every completion ends alike: nothing pending, DONE set, and neither ERR, the enables nor the response touched (R127). -/
theorem completion_ends (i : Instr) (s : State) :
    (completion i s).pend = none ∧ (completion i s).done = true ∧ (completion i s).err = s.err ∧
    (completion i s).errcode = s.errcode ∧ (completion i s).doneIE = s.doneIE ∧ (completion i s).errIE = s.errIE ∧
    (completion i s).resp = s.resp ∧ (completion i s).order = s.order.tail := by
  cases i with
  | config r c f4 => cases f4 <;> exact ⟨rfl, rfl, rfl, rfl, rfl, rfl, rfl, rfl⟩
  | _ => exact ⟨rfl, rfl, rfl, rfl, rfl, rfl, rfl, rfl⟩

/-- A completion sets ACFG to the fields of a CONFIG, and a transform's leaves it (R81, R115, R121). -/
theorem completion_acfg (i : Instr) (s : State) :
    (completion i s).acfg = match i with
      | .config r c f4 => { rows := BitVec.ofNat 8 r, cols := BitVec.ofNat 8 c, f4 := f4 }
      | .fwd1d _ _ => s.acfg
      | .inv1d _ _ => s.acfg
      | .fwd2d _ _ => s.acfg
      | .inv2d _ _ => s.acfg := by cases i <;> rfl

/-- A reset leaves the three registers CTRL, STATUS and ACFG 0 (70_reset_and_hazards.md R146, R149). -/
theorem powerOn_registers (s : State) :
    s.powerOn.ctrlValue = 0 ∧ s.powerOn.statusValue = 0 ∧ s.powerOn.acfgValue = 0 := by
  refine ⟨?_, ?_, ?_⟩ <;>
    simp [State.statusValue, State.ctrlValue, State.acfgValue, State.powerOn, State.resetOf, State.busy, Acfg.unconfigured,
      ErrCode.bits, State.configured]

theorem softReset_registers (s : State) :
    s.softReset.ctrlValue = 0 ∧ s.softReset.statusValue = 0 ∧ s.softReset.acfgValue = 0 := by
  refine ⟨?_, ?_, ?_⟩ <;>
    simp [State.statusValue, State.ctrlValue, State.acfgValue, State.softReset, State.busy, Acfg.unconfigured, ErrCode.bits,
      State.configured]

/-! ### One host access -/

theorem readAccess_eq (width off : Nat) (s : State) : ∃ r, readAccess width off s = s.respond r := by
  unfold readAccess
  split
  · split
    · exact ⟨_, rfl⟩
    · exact ⟨.error, rfl⟩
  · exact ⟨.error, rfl⟩

/-- What a write at a target can do. -/
theorem writeTarget_cases (d : Word) (s : State) (t : Target) (ht : s.engineTurn = false) :
    (writeTarget d s t = .next s.busError) ∨
    (∃ code, code ≠ .none ∧ t = .cmd ∧ writeTarget d s t = .next (s.reject code)) ∨
    (∃ i, t = .cmd ∧ decode d = .cmd i ∧ s.pend = none ∧ Acceptable i s ∧ writeTarget d s t = .next (s.accept i)) ∨
    (t = .ctrl ∧ d.getLsbD 31 = true ∧ writeTarget d s t = .next s.softReset) ∨
    (t = .ctrl ∧ d.getLsbD 31 = false ∧ writeTarget d s t = .next ((s.setEnables d).respond .written)) ∨
    (t = .status ∧ writeTarget d s t = .next ((s.clearStatus d).respond .written)) ∨
    (∃ r c hi, t = .inSlot r c hi ∧ s.busy = false ∧ writeTarget d s t = .next ((s.writeIn r c hi d).respond .written)) := by
  cases t with
  | cmd =>
    simp only [writeTarget, issueWord]
    cases hd : decode d with
    | illegal why =>
      refine .inr (.inl ⟨_, ?_, trivial, rfl⟩)
      split <;> simp
    | cmd i =>
      simp only [exec_issues i s (by simp [ht])]
      rcases issue_cases i s with ⟨code, hc, h⟩ | ⟨hp, ha, h⟩
      · exact .inr (.inl ⟨code, hc, trivial, by rw [h]⟩)
      · exact .inr (.inr (.inl ⟨i, trivial, rfl, hp, ha, by rw [h]⟩))
  | ctrl =>
    cases h31 : d.getLsbD 31
    · exact .inr (.inr (.inr (.inr (.inl ⟨rfl, rfl, by simp only [writeTarget, h31]; rfl⟩))))
    · exact .inr (.inr (.inr (.inl ⟨rfl, rfl, by simp only [writeTarget, h31]; rfl⟩)))
  | status => exact .inr (.inr (.inr (.inr (.inr (.inl ⟨rfl, rfl⟩)))))
  | inSlot r c hi =>
    cases hb : s.busy
    · exact .inr (.inr (.inr (.inr (.inr (.inr ⟨r, c, hi, rfl, rfl, by simp [writeTarget, hb]⟩)))))
    · exact .inl (by simp [writeTarget, hb])
  | id => exact .inl rfl
  | cap => exact .inl rfl
  | acfg => exact .inl rfl
  | outSlot r c hi => exact .inl rfl
  | cosrSlot r c hi => exact .inl rfl
  | coscSlot r c hi => exact .inl rfl
  | alpharSlot u hi => exact .inl rfl
  | alphacSlot u hi => exact .inl rfl
  | reserved => exact .inl rfl

/-! ### One step -/

/-- The ways a step can go on, with what each needs. -/
inductive StepCase (s : State) : State → Prop where
  /-- Nothing is left in the order and no command is pending. -/
  | idle (ho : s.order = []) (hp : s.pend = none) : StepCase s s
  /-- An ENGINE turn with no command pending. -/
  | skip (rest : List Event) (ho : s.order = .engine :: rest) (hp : s.pend = none) : StepCase s s.advance
  /-- The completion of the pending command. -/
  | complete (i : Instr) (ht : s.engineTurn = true) (hp : s.pend = some i) : StepCase s (completion i s)
  /-- Power-on reset. -/
  | powerOn (rest : List Event) (ho : s.order = .powerOn :: rest) : StepCase s s.powerOn
  /-- A read, answered with data or a bus error. -/
  | read (addr width : Nat) (rest : List Event) (r : BusResp) (ho : s.order = .access (.read addr width) :: rest) :
      StepCase s (s.respond r)
  /-- A write refused with a bus error. -/
  | refusedWrite (a : Access) (rest : List Event) (ho : s.order = .access a :: rest) : StepCase s s.busError
  /-- A CMD write whose command is rejected. -/
  | reject (d : Word) (rest : List Event) (code : ErrCode)
      (ho : s.order = .access (.write (s.build.base + 0x014) 32 0xF d) :: rest) (hc : code ≠ .none) :
      StepCase s (s.reject code)
  /-- A CMD write whose command is accepted. -/
  | accept (d : Word) (rest : List Event) (i : Instr)
      (ho : s.order = .access (.write (s.build.base + 0x014) 32 0xF d) :: rest) (hd : decode d = .cmd i)
      (hp : s.pend = none) (hi : Acceptable i s) : StepCase s (s.accept i)
  /-- A CTRL write with SRST = 1. -/
  | softReset (d : Word) (rest : List Event) (ho : s.order = .access (.write (s.build.base + 0x008) 32 0xF d) :: rest)
      (hd : d.getLsbD 31 = true) : StepCase s s.softReset
  /-- A CTRL write with SRST = 0. -/
  | enables (d : Word) (rest : List Event) (ho : s.order = .access (.write (s.build.base + 0x008) 32 0xF d) :: rest)
      (hd : d.getLsbD 31 = false) : StepCase s ((s.setEnables d).respond .written)
  /-- A STATUS write. -/
  | clear (d : Word) (rest : List Event) (ho : s.order = .access (.write (s.build.base + 0x00C) 32 0xF d) :: rest) :
      StepCase s ((s.clearStatus d).respond .written)
  /-- A write to a backed IN slot. -/
  | writeIn (d : Word) (rest : List Event) (r c : Nat) (hi : Bool)
      (ho : s.order =
        .access (.write (s.build.base + (matrixSlot inBase r c + if hi then 4 else 0)) 32 0xF d) :: rest)
      (hb : s.busy = false) (hr : r < s.build.nmax) (hc : c < s.build.nmax) (hr64 : r < 64) (hc64 : c < 64) :
      StepCase s ((s.writeIn r c hi d).respond .written)

/-- The offsets of the registers a write has an effect on, and of an IN slot: the address map R43 read backwards, on an
aligned offset. Every other target says nothing here. -/
def TargetAt (nmax off : Nat) : Target → Prop
  | .ctrl => off = 0x008
  | .status => off = 0x00C
  | .cmd => off = 0x014
  | .inSlot r c hi =>
    off = matrixSlot inBase r c + (if hi then 4 else 0) ∧ r < nmax ∧ c < nmax ∧ r < 64 ∧ c < 64
  | _ => True

theorem targetAt_register (nmax off : Nat) : TargetAt nmax off (registerTarget off) := by
  unfold registerTarget
  split <;> simp [TargetAt]

theorem targetAt_matrix (nmax off : Nat) (mk : Nat → Nat → Bool → Target) (h : ∀ r c hi, TargetAt nmax off (mk r c hi)) :
    TargetAt nmax off (matrixTarget nmax off mk) := by
  unfold matrixTarget
  split
  · exact h _ _ _
  · trivial

theorem targetAt_vector (nmax off : Nat) (mk : Nat → Bool → Target) (h : ∀ u hi, TargetAt nmax off (mk u hi)) :
    TargetAt nmax off (vectorTarget nmax off mk) := by
  unfold vectorTarget
  split
  · exact h _ _
  · trivial

theorem target_at (nmax off : Nat) (h4 : off % 4 = 0) : TargetAt nmax off (target nmax off) := by
  unfold target
  split; · exact targetAt_register nmax off
  split; · trivial
  split
  · rename_i h1 h2 h3
    unfold matrixTarget
    split
    · rename_i hb
      refine ⟨?_, hb.1, hb.2, by unfold slotRow; omega, by unfold slotCol; omega⟩
      simp only [matrixSlot, inBase, slotRow, slotCol, slotHi, decide_eq_true_eq]
      split <;> omega
    · trivial
  split; · exact targetAt_matrix nmax off _ fun _ _ _ => trivial
  split; · exact targetAt_matrix nmax off _ fun _ _ _ => trivial
  split; · exact targetAt_matrix nmax off _ fun _ _ _ => trivial
  split; · exact targetAt_vector nmax off _ fun _ _ => trivial
  split
  · exact targetAt_vector nmax off _ fun _ _ => trivial
  · trivial

theorem hostAccess_cases (a : Access) (rest : List Event) (s t : State) (ho : s.order = .access a :: rest)
    (h : hostAccess a s = .next t) : StepCase s t := by
  have ht := s.engineTurn_access a rest ho
  cases a with
  | read addr width =>
    simp only [hostAccess] at h
    split at h
    · obtain ⟨r, hr⟩ := readAccess_eq width (addr - s.build.base) s
      cases h
      rw [hr]
      exact .read addr width rest r ho
    · cases h
  | write addr width strobes d =>
    simp only [hostAccess] at h
    split at h
    · rename_i hw
      unfold writeAccess at h
      split at h
      · rename_i hf
        simp only [formOk, Bool.and_eq_true, decide_eq_true_eq] at hf
        obtain ⟨⟨rfl, h4⟩, rfl⟩ := hf
        obtain ⟨off, rfl⟩ : ∃ off, addr = s.build.base + off := by
          simp only [inWindow, Bool.and_eq_true, decide_eq_true_eq] at hw
          exact ⟨addr - s.build.base, by omega⟩
        simp only [Nat.add_sub_cancel_left] at h h4
        have hat := target_at s.build.nmax off h4
        rcases writeTarget_cases d s (target s.build.nmax off) ht with
          h' | ⟨code, hc, hk, h'⟩ | ⟨i, hk, hd, hp, hi, h'⟩ | ⟨hk, hd, h'⟩ | ⟨hk, hd, h'⟩ | ⟨hk, h'⟩ |
            ⟨r, c, hi, hk, hb, h'⟩ <;>
          rw [h'] at h <;> cases h
        · exact .refusedWrite _ rest ho
        all_goals rw [hk] at hat
        · obtain rfl : off = 0x014 := hat
          exact .reject d rest code ho hc
        · obtain rfl : off = 0x014 := hat
          exact .accept d rest i ho hd hp hi
        · obtain rfl : off = 0x008 := hat
          exact .softReset d rest ho hd
        · obtain rfl : off = 0x008 := hat
          exact .enables d rest ho hd
        · obtain rfl : off = 0x00C := hat
          exact .clear d rest ho
        · obtain ⟨rfl, h1, h2, h3, h4⟩ := hat
          exact .writeIn d rest r c hi ho hb h1 h2 h3 h4
      · cases h; exact .refusedWrite _ rest ho
    · cases h

/-- Every step that goes on is one of `StepCase`. -/
theorem step_cases (s t : State) (h : step s = .next t) : StepCase s t := by
  unfold step at h
  split at h
  · rename_i ho
    unfold engineStep at h
    split at h
    · rename_i i hp
      rw [exec_completes i s (s.engineTurn_iff.2 (.inl ho)) hp] at h
      cases h
      exact .complete i (s.engineTurn_iff.2 (.inl ho)) hp
    · rename_i hp; cases h; exact .idle ho hp
  · rename_i rest ho
    unfold engineStep at h
    split at h
    · rename_i i hp
      rw [exec_completes i s (s.engineTurn_iff.2 (.inr ⟨rest, ho⟩)) hp] at h
      cases h
      exact .complete i (s.engineTurn_iff.2 (.inr ⟨rest, ho⟩)) hp
    · rename_i hp; cases h; exact .skip rest ho hp
  · rename_i rest ho; cases h; exact .powerOn rest ho
  · rename_i a rest ho; exact hostAccess_cases a rest s t ho h

/-! ### Outcomes other than a next state -/

/-- A host access is answered exactly when it lies in the window. -/
theorem hostAccess_outcome (a : Access) (s : State) :
    (∃ t, hostAccess a s = .next t) ∨
      (hostAccess a s = .fault .outsideWindow ∧ Event.decoded s.build (.access a) = false) := by
  have hexec : ∀ i, ∃ t, exec i s = .next t := fun i => ⟨_, exec_eq i s⟩
  cases a with
  | read addr width =>
    simp only [hostAccess, Event.decoded]
    cases inWindow s.build addr
    · exact .inr ⟨rfl, rfl⟩
    · exact .inl ⟨_, rfl⟩
  | write addr width strobes d =>
    simp only [hostAccess, Event.decoded]
    cases inWindow s.build addr
    · exact .inr ⟨rfl, rfl⟩
    · refine .inl ?_
      simp only [if_true, writeAccess]
      split
      · cases target s.build.nmax (addr - s.build.base) <;> simp only [writeTarget, issueWord] <;>
          first
            | exact ⟨_, rfl⟩
            | (split
               · exact hexec _
               · exact ⟨_, rfl⟩)
      · exact ⟨_, rfl⟩

/-! ### T during a completion -/

/-- T holds the pass that filled it. -/
theorem State.fillT_entry (s : State) (pass : Nat → Nat → Elem) (r c : Nat) (hr : r < s.sizeR) (hc : c < s.sizeC) :
    tableEntry (s.fillT pass).tbuf r c = pass r c := by
  simp [tableEntry, hr, hc]

/-- Results written change no byte outside their slots. -/
theorem State.writeResult_frame (i : Instr) (v : Nat × Nat → Elem) (s : State) (off : Nat)
    (h : ∀ p ∈ s.resultPlaces i, ¬ InOutSlot (elemBytes s.build.fmt) p off) :
    (s.writeResult i v).mem.load off = s.mem.load off := by
  rw [State.writeResult_mem]
  exact Memory.load_storeOuts_outside _ _ _ _ _ h

end Sys2Proof.Machine
end

