-- ==== Sys2Proof/Laws/Bus.lean ====
section
/-! SUPPORT. Host accesses: a step that is an access, and what each aligned window offset stands for (20_memory.md R43 to R48,
R55). -/

namespace Sys2Proof.Machine

/-! ### A step that is a host access -/

/-- A read in the window. -/
theorem step_read (s : State) (off width : Nat) (rest : List Event) (h : off < 0x40000)
    (ho : s.order = .access (.read (s.build.base + off) width) :: rest) : step s = .next (readAccess width off s) := by
  have hw : inWindow s.build (s.build.base + off) = true := by simp [inWindow]; omega
  rw [step, ho]
  simp only [hostAccess, hw, if_true, Nat.add_sub_cancel_left]

/-- A write in the window. -/
theorem step_write (s : State) (off width : Nat) (st : BitVec 4) (d : Word) (rest : List Event) (h : off < 0x40000)
    (ho : s.order = .access (.write (s.build.base + off) width st d) :: rest) : step s = writeAccess width off st d s := by
  have hw : inWindow s.build (s.build.base + off) = true := by simp [inWindow]; omega
  rw [step, ho]
  simp only [hostAccess, hw, if_true, Nat.add_sub_cancel_left]

/-! ### The address map, region by region -/

theorem formOk_iff (w off : Nat) : formOk w off = true ↔ w = 32 ∧ off % 4 = 0 := by simp [formOk]

theorem registerTarget_cases (off : Nat) (h4 : off % 4 = 0) (h : off < 0x100) :
  (off = 0 ∧ registerTarget off = .id) ∨ (off = 4 ∧ registerTarget off = .cap) ∨ (off = 8 ∧ registerTarget off = .ctrl) ∨
  (off = 0xC ∧ registerTarget off = .status) ∨ (off = 0x10 ∧ registerTarget off = .acfg) ∨ (off = 0x14 ∧ registerTarget off = .cmd) ∨
  (0x18 ≤ off ∧ registerTarget off = .reserved) := by
  by_cases h' : 0x18 ≤ off
  · refine .inr <| .inr <| .inr <| .inr <| .inr <| .inr ⟨h', ?_⟩
    unfold registerTarget; split <;> first | omega | rfl
  · have : off = 0 ∨ off = 4 ∨ off = 8 ∨ off = 0xC ∨ off = 0x10 ∨ off = 0x14 := by omega
    rcases this with rfl | rfl | rfl | rfl | rfl | rfl <;> simp [registerTarget]

/-- An aligned offset is reserved, or it stands for the register or slot of its region (R43). -/
theorem target_cases (nmax off : Nat) (h4 : off % 4 = 0) (h : off < 0x40000) :
  (target nmax off = .reserved ∧ reservedOffset nmax off) ∨
  (¬ reservedOffset nmax off ∧ (
   (off = 0 ∧ target nmax off = .id) ∨ (off = 4 ∧ target nmax off = .cap) ∨ (off = 8 ∧ target nmax off = .ctrl) ∨
   (off = 0xC ∧ target nmax off = .status) ∨ (off = 0x10 ∧ target nmax off = .acfg) ∨ (off = 0x14 ∧ target nmax off = .cmd) ∨
   (0x8000 ≤ off ∧ off < 0x10000 ∧ target nmax off = .inSlot (slotRow off) (slotCol off) (slotHi off)) ∨
   (0x10000 ≤ off ∧ off < 0x18000 ∧ target nmax off = .outSlot (slotRow off) (slotCol off) (slotHi off)) ∨
   (0x18000 ≤ off ∧ off < 0x20000 ∧ target nmax off = .cosrSlot (slotRow off) (slotCol off) (slotHi off)) ∨
   (0x20000 ≤ off ∧ off < 0x28000 ∧ target nmax off = .coscSlot (slotRow off) (slotCol off) (slotHi off)) ∨
   (0x28000 ≤ off ∧ off < 0x28200 ∧ target nmax off = .alpharSlot (slotCol off) (slotHi off)) ∨
   (0x28200 ≤ off ∧ off < 0x28400 ∧ target nmax off = .alphacSlot (slotCol off) (slotHi off)))) := by
  unfold target reservedOffset matrixTarget vectorTarget slotRow slotCol
  split
  · rcases registerTarget_cases off h4 ‹_› with ⟨a,b⟩|⟨a,b⟩|⟨a,b⟩|⟨a,b⟩|⟨a,b⟩|⟨a,b⟩|⟨a,b⟩ <;> rw [b]
    all_goals first | (left; exact ⟨rfl, by omega⟩) | (right; subst a; simp)
  split
  · left; exact ⟨rfl, by omega⟩
  split
  · split
    · right; refine ⟨by omega, ?_⟩; simp; omega
    · left; exact ⟨rfl, by omega⟩
  split
  · split
    · right; refine ⟨by omega, ?_⟩; simp; omega
    · left; exact ⟨rfl, by omega⟩
  split
  · split
    · right; refine ⟨by omega, ?_⟩; simp; omega
    · left; exact ⟨rfl, by omega⟩
  split
  · split
    · right; refine ⟨by omega, ?_⟩; simp; omega
    · left; exact ⟨rfl, by omega⟩
  split
  · split
    · right; refine ⟨by omega, ?_⟩; simp; omega
    · left; exact ⟨rfl, by omega⟩
  split
  · split
    · right; refine ⟨by omega, ?_⟩; simp; omega
    · left; exact ⟨rfl, by omega⟩
  · left; exact ⟨rfl, by omega⟩

end Sys2Proof.Machine
end

