-- ==== Sys2Proof/Laws/Elem.lean ====
section
/-! SUPPORT. Elements as bytes: reading back what was stored, and patterns of W bits. -/

namespace Sys2Proof.Machine

/-- A pattern of W bits: in binary32 the high word is 0 (20_memory.md R50). -/
abbrev Fits (f : Fmt) (e : Elem) : Prop := e.toNat < 2 ^ f.width

theorem fits_binary64 (e : Elem) : Fits .binary64 e := e.isLt

/-- The word made of the four byte lanes of `e` from bit `i` on is the extract of 32 bits. -/
theorem ofLanes_extract (e : Elem) (i : Nat) :
    Word.ofLanes (e.extractLsb' i 8) (e.extractLsb' (i + 8) 8) (e.extractLsb' (i + 16) 8) (e.extractLsb' (i + 24) 8) =
      e.extractLsb' i 32 := by
  unfold Word.ofLanes
  apply BitVec.eq_of_getLsbD_eq
  intro j hj
  simp only [BitVec.getLsbD_append, BitVec.getLsbD_extractLsb']
  by_cases h1 : j < 8
  · simp [h1, hj]
  · by_cases h2 : j < 16
    · have : j - 8 < 8 := by omega
      have e1 : i + 8 + (j - 8) = i + j := by omega
      simp [h1, hj, this, e1]
    · by_cases h3 : j < 24
      · have a1 : ¬ j - 8 < 8 := by omega
        have a2 : j - 8 - 8 < 8 := by omega
        have e1 : i + 16 + (j - 8 - 8) = i + j := by omega
        simp [h1, hj, a1, a2, e1]
      · have a1 : ¬ j - 8 < 8 := by omega
        have a2 : ¬ j - 8 - 8 < 8 := by omega
        have a3 : j - 8 - 8 - 8 < 8 := by omega
        have e1 : i + 24 + (j - 8 - 8 - 8) = i + j := by omega
        simp [h1, hj, a1, a2, a3, e1]

/-- A byte that is stored reads as it is, whichever read of the step it is. -/
theorem State.byteAt_of_load (s : State) (n off : Nat) (b : Byte) (h : s.mem.load off = some b) : s.byteAt n off = b := by
  simp [State.byteAt, h]

/-- A word whose four bytes are the lanes of `e` from bit `i` on. -/
theorem State.wordAt_of_bytes (s : State) (n off : Nat) (e : Elem) (i : Nat)
    (h : ∀ k, k < 4 → s.mem.load (off + k) = some (e.extractLsb' (i + 8 * k) 8)) :
    s.wordAt n off = e.extractLsb' i 32 := by
  have h0 : s.byteAt (4 * n) off = e.extractLsb' i 8 := s.byteAt_of_load _ _ _ (h 0 (by omega))
  rw [← ofLanes_extract e i, State.wordAt, h0, s.byteAt_of_load _ _ _ (h 1 (by omega)),
    s.byteAt_of_load _ _ _ (h 2 (by omega)), s.byteAt_of_load _ _ _ (h 3 (by omega))]

theorem extract_halves (e : Elem) : e.extractLsb' 32 32 ++ e.extractLsb' 0 32 = e := by
  apply BitVec.eq_of_getLsbD_eq
  intro j hj
  simp only [BitVec.getLsbD_append, BitVec.getLsbD_extractLsb']
  by_cases h : j < 32
  · simp [h]
  · have h2 : j - 32 < 32 := by omega
    have h3 : 32 + (j - 32) = j := by omega
    simp [h, h2, h3]

theorem getLsbD_of_small (e : Elem) (j : Nat) (h : e.toNat < 2 ^ 32) (hj : 32 ≤ j) : e.getLsbD j = false := by
  rw [BitVec.getLsbD]
  exact Nat.testBit_lt_two_pow (Nat.lt_of_lt_of_le h (Nat.pow_le_pow_right (by omega) hj))

theorem extract_low (e : Elem) (h : e.toNat < 2 ^ 32) : (0 : Word) ++ e.extractLsb' 0 32 = e := by
  apply BitVec.eq_of_getLsbD_eq
  intro j hj
  simp only [BitVec.getLsbD_append, BitVec.getLsbD_extractLsb']
  by_cases hj' : j < 32
  · simp [hj']
  · have : e.getLsbD j = false := getLsbD_of_small e j h (by omega)
    simp [hj', this]

/-- A slot whose bytes are those of an element of W bits reads as that element. -/
theorem State.elemAt_of_bytes (s : State) (n off : Nat) (e : Elem) (hf : Fits s.build.fmt e)
    (h : ∀ k, k < elemBytes s.build.fmt → s.mem.load (off + k) = some (e.extractLsb' (8 * k) 8)) :
    s.elemAt n off = e := by
  unfold State.elemAt
  cases hfmt : s.build.fmt with
  | binary64 =>
    rw [hfmt] at h
    have hlo := s.wordAt_of_bytes (2 * n) off e 0 fun k hk => by simpa using h k (by show k < 8; omega)
    have hhi := s.wordAt_of_bytes (2 * n + 1) (off + 4) e 32 fun k hk => by
      have := h (4 + k) (by show 4 + k < 8; omega)
      rw [Nat.add_assoc, this]
      congr 2
      omega
    simp only [hlo, hhi, extract_halves]
  | binary32 =>
    rw [hfmt] at h hf
    have hlo := s.wordAt_of_bytes (2 * n) off e 0 fun k hk => by simpa using h k hk
    simp only [hlo]
    exact extract_low e hf

theorem State.elem?_of_bytes (s : State) (off : Nat) (e : Elem) (hf : Fits s.build.fmt e)
    (h : ∀ k, k < elemBytes s.build.fmt → s.mem.load (off + k) = some (e.extractLsb' (8 * k) 8)) :
    s.elem? off = some e := by
  unfold State.elem?
  rw [if_pos, s.elemAt_of_bytes 0 off e hf h]
  rw [List.all_eq_true]
  intro k hk
  rw [h k (List.mem_range.1 hk)]
  rfl

/-- Reads of bytes that are all stored do not depend on which read of the step they are. -/
theorem State.elemAt_of_specified (s : State) (n off : Nat)
    (h : ∀ k, k < elemBytes s.build.fmt → (s.mem.load (off + k)).isSome = true) : s.elemAt n off = s.elemAt 0 off := by
  have hb : ∀ m m' k, k < elemBytes s.build.fmt → s.byteAt m (off + k) = s.byteAt m' (off + k) := by
    intro m m' k hk
    obtain ⟨b, hb⟩ := Option.isSome_iff_exists.1 (h k hk)
    rw [s.byteAt_of_load _ _ _ hb, s.byteAt_of_load _ _ _ hb]
  unfold State.elemAt
  cases hfmt : s.build.fmt with
  | binary64 =>
    rw [hfmt] at hb
    have hw : ∀ m m' j, j + 4 ≤ 8 → s.wordAt m (off + j) = s.wordAt m' (off + j) := by
      intro m m' j hj
      simp only [State.wordAt, Nat.add_assoc]
      rw [hb (4 * m) (4 * m') j (by show j < 8; omega), hb _ (4 * m' + 1) (j + 1) (by show j + 1 < 8; omega),
        hb _ (4 * m' + 2) (j + 2) (by show j + 2 < 8; omega), hb _ (4 * m' + 3) (j + 3) (by show j + 3 < 8; omega)]
    simp only
    rw [hw (2 * n + 1) (2 * 0 + 1) 4 (by omega), show s.wordAt (2 * n) off = s.wordAt (2 * 0) off from hw _ _ 0 (by omega)]
  | binary32 =>
    rw [hfmt] at hb
    simp only [State.wordAt]
    rw [show s.byteAt (4 * (2 * n)) off = s.byteAt (4 * (2 * 0)) off from hb _ _ 0 (by decide),
      hb _ (4 * (2 * 0) + 1) 1 (by decide), hb _ (4 * (2 * 0) + 2) 2 (by decide), hb _ (4 * (2 * 0) + 3) 3 (by decide)]

/-- A specified slot is read as its element. -/
theorem State.elemAt_of_elem? (s : State) (n off : Nat) (e : Elem) (h : s.elem? off = some e) : s.elemAt n off = e := by
  unfold State.elem? at h
  split at h
  · rename_i hall
    rw [List.all_eq_true] at hall
    rw [s.elemAt_of_specified n off fun k hk => hall k (List.mem_range.2 hk)]
    exact Option.some.inj h
  · cases h

theorem State.readIn_of_in? (s : State) (n r c : Nat) (e : Elem) (h : s.in? r c = some e) : s.readIn n r c = e :=
  s.elemAt_of_elem? n _ e h

/-- The results a completion wrote are what OUT holds, over its result shape. -/
theorem State.writeResult_out? (i : Instr) (v : Nat × Nat → Elem) (s : State) (p : Nat × Nat)
    (hp : p ∈ s.resultPlaces i)
    (hd : (s.resultPlaces i).Pairwise fun p q =>
      ∀ a, ¬ (InOutSlot (elemBytes s.build.fmt) p a ∧ InOutSlot (elemBytes s.build.fmt) q a))
    (hf : Fits s.build.fmt (v p)) : (s.writeResult i v).out? p.1 p.2 = some (v p) :=
  State.elem?_of_bytes _ _ _ hf fun k hk => Memory.load_storeOuts_inside _ _ _ _ hd p hp k hk

theorem elemBytes_le (f : Fmt) : elemBytes f ≤ 8 := by cases f <;> decide

end Sys2Proof.Machine
end

