-- ==== Sys2Proof/Laws/Encode.lean ====
section
/-! SUPPORT. The fields of a packed command word, and the fields as a decomposition of the word (30_encoding.md R69, R70). -/

namespace Sys2Proof

/-- Bit j of a packed word, field by field. -/
theorem getLsbD_packWord (op : BitVec 8) (a b : Nat) (f4 : Bool) (j : Nat) :
    (packWord op a b f4).getLsbD j =
      if j < 8 then op.getLsbD j
      else if j < 16 then (BitVec.ofNat 8 a).getLsbD (j - 8)
      else if j < 24 then (BitVec.ofNat 8 b).getLsbD (j - 16)
      else if j = 24 then f4
      else false := by
  unfold packWord
  simp only [BitVec.getLsbD_append]
  by_cases h1 : j < 8
  · simp [h1]
  · by_cases h2 : j < 16
    · have e1 : j - 8 < 8 := by omega
      simp [h1, h2, e1]
    · by_cases h3 : j < 24
      · have e1 : ¬ j - 8 < 8 := by omega
        have e3 : j - 8 - 8 = j - 16 := by omega
        simp only [h1, h2, h3, e1, e3, if_true, if_false]
        simp [show j - 16 < 8 by omega]
      · have e1 : ¬ j - 8 < 8 := by omega
        have e2 : ¬ j - 8 - 8 < 8 := by omega
        by_cases h4 : j = 24
        · subst h4; simp
        · have e3 : ¬ j - 8 - 8 - 8 < 1 := by omega
          simp [h1, h2, h3, h4, e1, e2, e3]

theorem fieldOp_packWord (op : BitVec 8) (a b : Nat) (f4 : Bool) : fieldOp (packWord op a b f4) = op := by
  apply BitVec.eq_of_getLsbD_eq
  intro j hj
  simp [fieldOp, getLsbD_packWord, hj]

theorem fieldA_packWord (op : BitVec 8) (a b : Nat) (f4 : Bool) (h : a < 256) : fieldA (packWord op a b f4) = a := by
  have : (packWord op a b f4).extractLsb' 8 8 = BitVec.ofNat 8 a := by
    apply BitVec.eq_of_getLsbD_eq
    intro j hj
    have h1 : ¬ 8 + j < 8 := by omega
    have h2 : 8 + j < 16 := by omega
    simp [getLsbD_packWord, hj, h2]
  rw [fieldA, this, BitVec.toNat_ofNat, Nat.mod_eq_of_lt (by simpa using h)]

theorem fieldB_packWord (op : BitVec 8) (a b : Nat) (f4 : Bool) (h : b < 256) : fieldB (packWord op a b f4) = b := by
  have : (packWord op a b f4).extractLsb' 16 8 = BitVec.ofNat 8 b := by
    apply BitVec.eq_of_getLsbD_eq
    intro j hj
    have h1 : ¬ 16 + j < 8 := by omega
    have h2 : ¬ 16 + j < 16 := by omega
    have h3 : 16 + j < 24 := by omega
    simp [getLsbD_packWord, hj, h1, h3]
  rw [fieldB, this, BitVec.toNat_ofNat, Nat.mod_eq_of_lt (by simpa using h)]

theorem fieldF4_packWord (op : BitVec 8) (a b : Nat) (f4 : Bool) : fieldF4 (packWord op a b f4) = f4 := by
  rw [fieldF4, getLsbD_packWord]; simp

theorem fieldRsv_packWord (op : BitVec 8) (a b : Nat) (f4 : Bool) : fieldRsv (packWord op a b f4) = 0 := by
  apply BitVec.eq_of_getLsbD_eq
  intro j hj
  have h1 : ¬ 25 + j < 8 := by omega
  have h2 : ¬ 25 + j < 16 := by omega
  have h3 : ¬ 25 + j < 24 := by omega
  have h4 : ¬ 25 + j = 24 := by omega
  simp [fieldRsv, getLsbD_packWord, h1, h2, h3, h4]

/-- A word with RSV = 0 is packed from its fields. -/
theorem packWord_fields (w : Word) (h : fieldRsv w = 0) :
    packWord (fieldOp w) (fieldA w) (fieldB w) (fieldF4 w) = w := by
  apply BitVec.eq_of_getLsbD_eq
  intro j hj
  rw [getLsbD_packWord]
  by_cases h1 : j < 8
  · simp [h1, fieldOp]
  · by_cases h2 : j < 16
    · have e : 8 + (j - 8) = j := by omega
      have e' : j - 8 < 8 := by omega
      rw [if_neg h1, if_pos h2, fieldA, BitVec.ofNat_toNat, BitVec.setWidth_eq, BitVec.getLsbD_extractLsb', e]; simp [e']
    · by_cases h3 : j < 24
      · have e : 16 + (j - 16) = j := by omega
        have e' : j - 16 < 8 := by omega
        rw [if_neg h1, if_neg h2, if_pos h3, fieldB, BitVec.ofNat_toNat, BitVec.setWidth_eq, BitVec.getLsbD_extractLsb', e]
        simp [e']
      · by_cases h4 : j = 24
        · subst h4; simp [fieldF4]
        · have hr : (fieldRsv w).getLsbD (j - 25) = false := by rw [h]; simp
          have e : 25 + (j - 25) = j := by omega
          have e' : j - 25 < 7 := by omega
          simp only [fieldRsv, BitVec.getLsbD_extractLsb', e, e', decide_true, Bool.true_and] at hr
          simp [h1, h2, h3, h4, hr]

theorem fieldA_lt (w : Word) : fieldA w < 256 := (w.extractLsb' 8 8).isLt

theorem fieldB_lt (w : Word) : fieldB w < 256 := (w.extractLsb' 16 8).isLt

end Sys2Proof
end

