-- ==== Sys2Proof/Laws/Float.lean ====
section
/-! SUPPORT. The fields of the elements the datapath produces: what packing an element gives, the classes of its results,
and that every result is a pattern of W bits. -/

namespace Sys2Proof.Machine

/-! ### Parameters of the formats -/

/-- W = 1 + exponent bits + fraction bits (R96). -/
theorem fmt_width_eq (f : Fmt) : f.width = f.expBits + f.fracBits + 1 := by cases f <;> rfl

theorem two_pow_expBits (f : Fmt) : 2 ^ f.expBits = f.expOnes + 1 := by cases f <;> rfl

theorem infLow_lt (f : Fmt) : f.expOnes * 2 ^ f.fracBits < 2 ^ (f.width - 1) := by cases f <;> decide

/-! ### Packing -/

theorem packElem_toNat (f : Fmt) (neg : Bool) (low : Nat) (h : low < 2 ^ (f.width - 1)) :
    (packElem f neg low).toNat = (if neg then 2 ^ (f.width - 1) else 0) + low := by
  unfold packElem
  rw [BitVec.toNat_ofNat, Nat.mod_eq_of_lt]
  cases f <;> cases neg <;> simp only [Fmt.width, Nat.reduceSub] at h ⊢ <;> simp <;> omega

theorem packElem_fits (f : Fmt) (neg : Bool) (low : Nat) (h : low < 2 ^ (f.width - 1)) : Fits f (packElem f neg low) := by
  unfold Fits
  rw [packElem_toNat f neg low h]
  cases f <;> cases neg <;> simp only [Fmt.width, Nat.reduceSub] at h ⊢ <;> simp <;> omega

@[simp] theorem isNeg_packElem (f : Fmt) (neg : Bool) (low : Nat) (h : low < 2 ^ (f.width - 1)) :
    isNeg f (packElem f neg low) = neg := by
  unfold isNeg
  rw [BitVec.getLsbD, packElem_toNat f neg low h]
  cases neg
  · simpa using Nat.testBit_lt_two_pow h
  · simp only [if_true]
    rw [Nat.testBit_two_pow_add_eq, Nat.testBit_lt_two_pow h]
    rfl

theorem expField_packElem (f : Fmt) (neg : Bool) (low : Nat) (h : low < 2 ^ (f.width - 1)) :
    expField f (packElem f neg low) = low / 2 ^ f.fracBits := by
  unfold expField
  rw [packElem_toNat f neg low h]
  cases f <;> cases neg <;> simp only [Fmt.width, Fmt.fracBits, Fmt.expBits, Nat.reduceSub] at h ⊢ <;> simp <;> omega

theorem fracField_packElem (f : Fmt) (neg : Bool) (low : Nat) (h : low < 2 ^ (f.width - 1)) :
    fracField f (packElem f neg low) = low % 2 ^ f.fracBits := by
  unfold fracField
  rw [packElem_toNat f neg low h]
  cases f <;> cases neg <;> simp only [Fmt.width, Fmt.fracBits, Nat.reduceSub] at h ⊢ <;> simp <;> omega

/-- A pattern of W bits is packed from its sign and the rest. -/
theorem packElem_of_fits (f : Fmt) (e : Elem) (h : Fits f e) :
    ∃ low, low < 2 ^ (f.width - 1) ∧ e = packElem f (isNeg f e) low := by
  unfold Fits at h
  have hsplit : 2 ^ f.width = 2 * 2 ^ (f.width - 1) := by cases f <;> decide
  by_cases hn : e.toNat < 2 ^ (f.width - 1)
  · have hneg : isNeg f e = false := Nat.testBit_lt_two_pow hn
    refine ⟨e.toNat, hn, BitVec.eq_of_toNat_eq ?_⟩
    rw [packElem_toNat f _ _ hn, hneg]
    simp
  · have hlt : e.toNat - 2 ^ (f.width - 1) < 2 ^ (f.width - 1) := by omega
    have heq : e.toNat = 2 ^ (f.width - 1) + (e.toNat - 2 ^ (f.width - 1)) := by omega
    have hneg : isNeg f e = true := by
      unfold isNeg
      rw [BitVec.getLsbD, heq, Nat.testBit_two_pow_add_eq, Nat.testBit_lt_two_pow hlt]
      rfl
    refine ⟨e.toNat - 2 ^ (f.width - 1), hlt, BitVec.eq_of_toNat_eq ?_⟩
    rw [packElem_toNat f _ _ hlt, hneg]
    exact heq

/-! ### RN -/

theorem rn_low (f : Fmt) (neg : Bool) (n d : Nat) :
    ∃ low, low ≤ f.expOnes * 2 ^ f.fracBits ∧ rn f neg n d = packElem f neg low := by
  unfold rn
  split
  · exact ⟨_, Nat.le_of_lt ‹_›, rfl⟩
  · exact ⟨_, Nat.le_refl _, rfl⟩

theorem rn_fits (f : Fmt) (neg : Bool) (n d : Nat) : Fits f (rn f neg n d) := by
  obtain ⟨low, hl, h⟩ := rn_low f neg n d
  rw [h]
  exact packElem_fits f neg low (Nat.lt_of_le_of_lt hl (infLow_lt f))

/-- RN keeps the sign, also of a zero (R97). -/
theorem isNeg_rn (f : Fmt) (neg : Bool) (n d : Nat) : isNeg f (rn f neg n d) = neg := by
  obtain ⟨low, hl, h⟩ := rn_low f neg n d
  rw [h, isNeg_packElem f neg low (Nat.lt_of_le_of_lt hl (infLow_lt f))]

/-- RN never gives a NaN (R97). -/
theorem isNaN_rn (f : Fmt) (neg : Bool) (n d : Nat) : isNaN f (rn f neg n d) = false := by
  obtain ⟨low, hl, h⟩ := rn_low f neg n d
  have hlt := Nat.lt_of_le_of_lt hl (infLow_lt f)
  rw [h, isNaN, expField_packElem f neg low hlt, fracField_packElem f neg low hlt]
  by_cases he : low / 2 ^ f.fracBits = f.expOnes
  · have hp : 0 < 2 ^ f.fracBits := Nat.two_pow_pos _
    have hle : f.expOnes * 2 ^ f.fracBits ≤ low := by
      rw [← he]; exact Nat.div_mul_le_self _ _
    have : low = f.expOnes * 2 ^ f.fracBits := Nat.le_antisymm hl hle
    rw [this]
    simp
  · simp [he]

/-! ### FMUL, FADD and DOT -/

theorem canonNaN_fits (f : Fmt) : Fits f (canonNaN f) := by cases f <;> decide

theorem isNaN_canonNaN (f : Fmt) : isNaN f (canonNaN f) = true := by cases f <;> decide

theorem infElem_fits (f : Fmt) (neg : Bool) : Fits f (infElem f neg) := packElem_fits f neg _ (infLow_lt f)

theorem zeroElem_fits (f : Fmt) (neg : Bool) : Fits f (zeroElem f neg) := packElem_fits f neg 0 (Nat.two_pow_pos _)

theorem isNaN_infElem (f : Fmt) (neg : Bool) : isNaN f (infElem f neg) = false := by cases f <;> cases neg <;> decide

theorem isNaN_zeroElem (f : Fmt) (neg : Bool) : isNaN f (zeroElem f neg) = false := by cases f <;> cases neg <;> decide

theorem isInf_not_isNaN (f : Fmt) (e : Elem) (h : isInf f e = true) : isNaN f e = false := by
  simp only [isInf, isNaN, Bool.and_eq_true, decide_eq_true_eq] at h ⊢
  simp [h.2]

theorem fmul_fits (f : Fmt) (a b : Elem) : Fits f (fmul f a b) := by
  unfold fmul
  split; · exact canonNaN_fits f
  split; · exact canonNaN_fits f
  split; · exact infElem_fits f _
  split; · exact zeroElem_fits f _
  exact rn_fits f _ _ _

theorem fadd_fits (f : Fmt) (a b : Elem) (ha : Fits f a) (hb : Fits f b) : Fits f (fadd f a b) := by
  unfold fadd
  split; · exact canonNaN_fits f
  split; · exact canonNaN_fits f
  split; · exact ha
  split; · exact hb
  split; · exact zeroElem_fits f _
  exact rn_fits f _ _ _

/-- FMUL's NaNs are canonical (R101). -/
theorem fmul_nan (f : Fmt) (a b : Elem) (h : isNaN f (fmul f a b) = true) : fmul f a b = canonNaN f := by
  unfold fmul at h ⊢
  split; · rfl
  split; · rfl
  rename_i h1 h2
  simp only [h1, h2, if_false, Bool.false_eq_true] at h
  split at h; · rw [isNaN_infElem] at h; cases h
  split at h; · rw [isNaN_zeroElem] at h; cases h
  rw [isNaN_rn] at h; cases h

/-- FADD's NaNs are canonical (R101). -/
theorem fadd_nan (f : Fmt) (a b : Elem) (h : isNaN f (fadd f a b) = true) : fadd f a b = canonNaN f := by
  unfold fadd at h ⊢
  split; · rfl
  split; · rfl
  rename_i h1 h2
  simp only [h1, h2, if_false, Bool.false_eq_true] at h
  split at h
  · rename_i hi; rw [isInf_not_isNaN f a hi] at h; cases h
  split at h
  · rename_i hi; rw [isInf_not_isNaN f b hi] at h; cases h
  split at h; · rw [isNaN_zeroElem] at h; cases h
  rw [isNaN_rn] at h; cases h

/-- A NaN operand gives CANON_NAN (R98). -/
theorem fmul_of_nan (f : Fmt) (a b : Elem) (h : isNaN f a = true ∨ isNaN f b = true) : fmul f a b = canonNaN f := by
  unfold fmul
  rw [if_pos (by simpa using h)]

/-- A NaN operand gives CANON_NAN (R99). -/
theorem fadd_of_nan (f : Fmt) (a b : Elem) (h : isNaN f a = true ∨ isNaN f b = true) : fadd f a b = canonNaN f := by
  unfold fadd
  rw [if_pos (by simpa using h)]

theorem dotFrom_fits (f : Fmt) (acc : Elem) (as bs : List Elem) (h : Fits f acc) : Fits f (dotFrom f acc as bs) := by
  induction as generalizing acc bs with
  | nil => cases bs <;> exact h
  | cons a as ih =>
    cases bs with
    | nil => exact h
    | cons b bs => exact ih _ _ (fadd_fits f _ _ h (fmul_fits f a b))

theorem dot_fits (f : Fmt) (as bs : List Elem) : Fits f (dot f as bs) := by
  cases as with
  | nil => cases bs <;> exact zeroElem_fits f false
  | cons a as =>
    cases bs with
    | nil => exact zeroElem_fits f false
    | cons b bs => exact dotFrom_fits f _ _ _ (fmul_fits f a b)

/-- A NaN in the running sum stays, canonical. -/
theorem dotFrom_of_nan (f : Fmt) (as bs : List Elem) : dotFrom f (canonNaN f) as bs = canonNaN f := by
  induction as generalizing bs with
  | nil => cases bs <;> rfl
  | cons a as ih =>
    cases bs with
    | nil => rfl
    | cons b bs =>
      show dotFrom f (fadd f (canonNaN f) (fmul f a b)) as bs = canonNaN f
      rw [fadd_of_nan f _ _ (.inl (isNaN_canonNaN f)), ih]

theorem dotFrom_nan (f : Fmt) (acc : Elem) (as bs : List Elem) (hacc : isNaN f acc = true → acc = canonNaN f)
    (h : isNaN f (dotFrom f acc as bs) = true) : dotFrom f acc as bs = canonNaN f := by
  induction as generalizing acc bs with
  | nil => cases bs <;> exact hacc h
  | cons a as ih =>
    cases bs with
    | nil => exact hacc h
    | cons b bs => exact ih _ _ (fadd_nan f acc (fmul f a b)) h

/-- DOT's NaNs are canonical (R101). -/
theorem dot_nan (f : Fmt) (as bs : List Elem) (h : isNaN f (dot f as bs) = true) : dot f as bs = canonNaN f := by
  cases as with
  | nil => cases bs <;> (rw [show dot f [] _ = zeroElem f false from rfl, isNaN_zeroElem] at h; cases h)
  | cons a as =>
    cases bs with
    | nil => rw [show dot f (a :: as) [] = zeroElem f false from rfl, isNaN_zeroElem] at h; cases h
    | cons b bs => exact dotFrom_nan f _ as bs (fmul_nan f a b) h

end Sys2Proof.Machine
end

