-- ==== Sys2Proof/Laws/PerInstr.lean ====
section
/-! SUPPORT. Statements about every command, one lemma per constructor: the word of a well-formed command carries its opcode
and its operands in their fields (30_encoding.md R69, R70, R76). -/

namespace Sys2Proof.Laws.EncodesItsFields

/-- The word of `i` carries OP, A, B and F4 of `i`, and RSV = 0. -/
def Statement (i : Instr) : Prop :=
  i.wellFormed = true →
    fieldOp (encode i) = opcodeOf i ∧ fieldA (encode i) = i.a ∧ fieldB (encode i) = i.b ∧ fieldF4 (encode i) = i.f4 ∧
      fieldRsv (encode i) = 0

theorem of_fits (i : Instr) : Statement i := by
  intro h
  simp only [Instr.wellFormed, sizeFits, Bool.and_eq_true, decide_eq_true_eq] at h
  exact ⟨fieldOp_packWord .., fieldA_packWord _ _ _ _ h.1, fieldB_packWord _ _ _ _ h.2, fieldF4_packWord ..,
    fieldRsv_packWord ..⟩

theorem config (rows cols : Nat) (f4 : Bool) : Statement (.config rows cols f4) := of_fits _

theorem fwd1d (lenR lenC : Nat) : Statement (.fwd1d lenR lenC) := of_fits _

theorem inv1d (lenR lenC : Nat) : Statement (.inv1d lenR lenC) := of_fits _

theorem fwd2d (lenR lenC : Nat) : Statement (.fwd2d lenR lenC) := of_fits _

theorem inv2d (lenR lenC : Nat) : Statement (.inv2d lenR lenC) := of_fits _

end Sys2Proof.Laws.EncodesItsFields
end

