-- ==== Sys2Proof/Laws/Tables.lean ====
section
/-! SUPPORT. The fixed 4×4 ROM against the generated tables (40_table_generator.md R93). -/

namespace Sys2Proof.Machine

theorem cos4_eq (f : Fmt) : cos4 f = cosTable f 4 := by cases f <;> decide +kernel

theorem alpha4_eq (f : Fmt) : alpha4 f = alphaTable f 4 := by cases f <;> decide +kernel

end Sys2Proof.Machine
end

