-- ==== Sys2Proof/Tests/Slice0.lean ====
section
/-! SUPPORT. The model's own tests: ill-formed terms, words written out from the spec's encodings, single steps with results
from 95_test_vectors.md, and for every obligation with hypotheses a state and operands that meet them. -/

namespace Sys2Proof.Tests

open Sys2Proof Sys2Proof.Machine

/-! ### Small states -/

/-- The state a step goes on to, if it goes on. -/
def after (s : State) : Option State :=
  match step s with
  | .next t => some t
  | .fault _ => none
  | .refused _ => none

/-- The state a run of a command goes on to, if it goes on. -/
def runs (i : Instr) (s : State) : Option State :=
  match exec i s with
  | .next t => some t
  | .fault _ => none
  | .refused _ => none

/-- A block of format `f`, idle and configured for `r` × `c`, with its tables. -/
def block (f : Fmt) (r c : Nat) : State :=
  { State.resetOf { fmt := f, nmax := 32, base := 0x40000 } with
    acfg := { rows := BitVec.ofNat 8 r, cols := BitVec.ofNat 8 c, f4 := false }
    cosr := cosTable f r
    cosc := cosTable f c
    alphar := alphaTable f r
    alphac := alphaTable f c }

/-- `s` with command `i` pending. -/
def pending (i : Instr) (s : State) : State := { s with pend := some i }

/-- `s` with the order of accesses and turns to come. -/
def next (es : List Event) (s : State) : State := { s with order := es }

/-- A read of 32 bits at a window offset of `s`. -/
def rd (s : State) (off : Nat) : Event := .access (.read (s.build.base + off) 32)

/-- A write of 32 bits at a window offset of `s`. -/
def wr (s : State) (off : Nat) (d : Word) : Event := .access (.write (s.build.base + off) 32 0xF d)

/-- `s` with row `r` of IN from column `c` on holding elements. -/
def rowIn (r : Nat) : Nat → List Elem → State → State
  | _, [], s => s
  | c, e :: es, s =>
    rowIn r (c + 1) es
      { s with mem := s.mem.store (matrixSlot inBase r c) (elemByteList (elemBytes s.build.fmt) e) }

/-- The first `n` elements of row `r` of OUT after a step. -/
def rowOut (t : Option State) (r n : Nat) : Option (List (Option Elem)) :=
  t.map fun t => (List.range n).map fun c => t.out? r c

/-! ### WellFormed: an ill-formed term for each check -/

theorem test_wf_size_a : (Instr.config 256 4 false).wellFormed = false := by decide
theorem test_wf_size_b : (Instr.config 4 256 false).wellFormed = false := by decide
theorem test_wf_fwd1d : (Instr.fwd1d 1 256).wellFormed = false := by decide
theorem test_wf_inv1d : (Instr.inv1d 256 1).wellFormed = false := by decide
theorem test_wf_fwd2d : (Instr.fwd2d 4 1000).wellFormed = false := by decide
theorem test_wf_inv2d : (Instr.inv2d 300 4).wellFormed = false := by decide
theorem test_wf_boundary : (Instr.config 255 255 true).wellFormed = true ∧ (Instr.inv2d 0 0).wellFormed = true := by decide

/-! ### Decode: `RRRRRRRF BBBBBBBB AAAAAAAA OOOOOOOO` (30_encoding.md R69; 95_test_vectors.md 2.1) -/

theorem test_decode_config : decode 0b00000000_00000011_00000010_00000001 = .cmd (.config 2 3 false) := by decide
theorem test_decode_config_f4 : decode 0b00000001_00000100_00000100_00000001 = .cmd (.config 4 4 true) := by decide
theorem test_decode_fwd1d : decode 0b00000000_00000100_00000001_00000010 = .cmd (.fwd1d 1 4) := by decide
theorem test_decode_inv1d : decode 0b00000000_00000100_00000001_00000011 = .cmd (.inv1d 1 4) := by decide
theorem test_decode_fwd2d : decode 0b00000000_11111111_11111110_00000100 = .cmd (.fwd2d 254 255) := by decide
theorem test_decode_inv2d : decode 0b00000000_00000011_00000010_00000101 = .cmd (.inv2d 2 3) := by decide
theorem test_decode_opcode_zero : decode 0x00000000 = .illegal .opcode := by decide
theorem test_decode_opcode_six : decode 0x00040406 = .illegal .opcode := by decide
theorem test_decode_opcode_80 : decode 0x00040480 = .illegal .opcode := by decide
theorem test_decode_f4_transform : decode 0x01040404 = .illegal .f4OnTransform := by decide
theorem test_decode_rsv_low : decode 0x02040401 = .illegal .reserved := by decide
theorem test_decode_rsv_high : decode 0x80040404 = .illegal .reserved := by decide
theorem test_table_word : decodeTableWord 32 0x00030205 = some (.inv2d 2 3) ∧ decodeTableWord 32 0x06 = none := by decide

/-! ### Issue verdicts: STATUS right after the CMD write (95_test_vectors.md 2.2) -/

/-- STATUS after the step that issues word `w`. -/
def verdict (s : State) (w : Nat) : Option Word := (after (s.withFetchWord 32 w)).map State.statusValue

theorem test_issue_config : verdict .reset 0x00202001 = some 0x00000001 ∧ verdict .reset 0x00210101 = some 0x00004200 := by decide
theorem test_issue_config_shape : verdict .reset 0x00040001 = some 0x00004200 ∧ verdict .reset 0x01080401 = some 0x00004200 := by
  decide
theorem test_issue_unconfigured : verdict .reset 0x00040102 = some 0x00003200 ∧ verdict .reset 0x01000002 = some 0x00001200 := by
  decide
theorem test_issue_fwd1d : verdict (block .binary64 4 4) 0x00040102 = some 0x00000003 ∧
    verdict (block .binary64 4 4) 0x00080102 = some 0x00005202 := by decide
theorem test_issue_inv1d : verdict (block .binary64 2 3) 0x00030103 = some 0x00000003 ∧
    verdict (block .binary64 2 3) 0x00020103 = some 0x00005202 := by decide
theorem test_issue_fwd2d : verdict (block .binary64 2 3) 0x00030204 = some 0x00000003 ∧
    verdict (block .binary64 2 3) 0x00020304 = some 0x00005202 := by decide
theorem test_issue_inv2d : verdict (block .binary64 4 4) 0x00040405 = some 0x00000003 ∧
    verdict (block .binary64 4 4) 0x00030405 = some 0x00005202 := by decide
theorem test_issue_busy : verdict (pending (.fwd2d 4 4) (block .binary64 4 4)) 0x00040102 = some 0x00002203 ∧
    verdict (pending (.fwd2d 4 4) (block .binary64 4 4)) 0x00000006 = some 0x00002203 := by decide

/-! ### Completions (95_test_vectors.md 1.1, 2.6, 2.7) -/

theorem test_config_completes :
    (after (pending (.config 4 4 false) .reset)).map (fun t => (t.acfgValue, t.statusValue)) =
      some (0x00040400, 0x00000102) := by decide

theorem test_config_tables :
    (after (pending (.config 2 3 false) .reset)).map (fun t => (tableEntry t.cosr 1 1, tableEntry t.cosc 1 2,
      alphaEntry t.alphac 2)) = some (0xBFE6A09E667F3BCD, 0xBFF0000000000000, 0x3FEA20BD700C2C3E) := by decide

theorem test_fwd1d_known_vector :
    rowOut (after (pending (.fwd1d 1 4) (rowIn 0 0 [0x404A000000000000, 0x404B800000000000, 0x404E800000000000,
      0x4050800000000000] (block .binary64 4 4)))) 0 4 =
    some [some 0x405D400000000000, some 0xC02589FFB6556D76, some 0x3FF000000000000E, some 0x3FC0CEF8127C6780] := by
  decide +kernel

theorem test_fwd1d_infinity :
    rowOut (after (pending (.fwd1d 1 3) (rowIn 0 0 [0, 0x7F800000, 0] (block .binary32 3 3)))) 0 3 =
    some [some 0x7F800000, some 0x7FC00000, some 0xFF800000] := by decide +kernel

theorem test_inv1d_known_vector :
    rowOut (after (pending (.inv1d 1 4) (rowIn 0 0 [0x42EA0000, 0xC12C4FFC, 0x3F7FFFE5, 0x3E0677BA]
      (block .binary32 4 4)))) 0 4 =
    some [some 0x42500000, some 0x425C0001, some 0x4273FFFF, some 0x42840000] := by decide +kernel

theorem test_inv1d_three :
    rowOut (after (pending (.inv1d 1 3) (rowIn 0 0 [0x3FF0000000000000, 0x4000000000000000, 0x4008000000000000]
      (block .binary64 3 3)))) 0 3 =
    some [some 0x4009BB000EA83B44, some 0xBFFDF448854A28CE, some 0x3FD8D30D4147FBC0] := by decide +kernel

theorem test_fwd2d_two_by_three :
    (fun t => (rowOut t 0 3, rowOut t 1 3)) (after (pending (.fwd2d 2 3) (rowIn 0 0 [0x3F800000, 0x40000000, 0x40400000]
      (rowIn 1 0 [0x40800000, 0x40A00000, 0x40C00000] (block .binary32 2 3))))) =
    (some [some 0x41092BE2, some 0xBFFFFFFF, some 0], some [some 0xC06B26A8, some 0, some 0]) := by decide +kernel

theorem test_inv2d_two_by_three :
    (fun t => (rowOut t 0 3, rowOut t 1 3)) (after (pending (.inv2d 2 3) (rowIn 0 0 [0x41092BE2, 0xBFFFFFFF, 0]
      (rowIn 1 0 [0xC06B26A8, 0, 0] (block .binary32 2 3))))) =
    (some [some 0x3F7FFFFB, some 0x3FFFFFFD, some 0x403FFFFE], some [some 0x407FFFFE, some 0x409FFFFF, some 0x40BFFFFF]) := by
  decide +kernel

/-! ### The datapath (95_test_vectors.md 2.5) -/

theorem test_fmul_subnormal_tie : fmul .binary64 0x3FE0000000000000 1 = 0 := by decide +kernel
theorem test_fmul_negative_zero : fmul .binary64 0x8000000000000000 0x3FF0000000000000 = 0x8000000000000000 := by decide
theorem test_fadd_tie_even : fadd .binary64 0x3FF0000000000000 0x3CB8000000000000 = 0x3FF0000000000002 := by decide +kernel
theorem test_fadd_overflow : fadd .binary64 0x7FEFFFFFFFFFFFFF 0x7FEFFFFFFFFFFFFF = 0x7FF0000000000000 := by decide +kernel
theorem test_dot_order :
    dot .binary64 [0x3FF0000000000000, 0x4340000000000000, 0xC340000000000000]
      [0x3FF0000000000000, 0x3FF0000000000000, 0x3FF0000000000000] = 0 := by decide +kernel

/-! ### The bus (95_test_vectors.md 2.3) -/

/-- The response to an access at the head of the order. -/
def answer (s : State) (e : Event) : Option (Option BusResp) := (after (next [e] s)).map State.resp

theorem test_bus_registers :
    answer .reset (rd .reset 0x000) = some (some (.data 0x44435432)) ∧
    answer .reset (rd .reset 0x004) = some (some (.data 0x01012001)) ∧
    answer (block .binary32 1 1) (rd (block .binary32 1 1) 0x004) = some (some (.data 0x01012000)) := by decide

theorem test_bus_errors :
    answer .reset (wr .reset 0x000 0) = some (some .error) ∧ answer .reset (rd .reset 0x018) = some (some .error) ∧
    answer .reset (rd .reset 0x002) = some (some .error) ∧ answer .reset (rd .reset 0x0C000) = some (some .error) ∧
    answer .reset (rd .reset 0x08100) = some (some .error) ∧
    answer .reset (.access (.read 0x0000C 16)) = some (some .error) ∧
    answer .reset (.access (.write 0x0000C 32 0b0011 0x300)) = some (some .error) := by decide

theorem test_bus_tables :
    answer (block .binary64 4 4) (rd (block .binary64 4 4) 0x20008) = some (some (.data 0xCF328D46)) ∧
    answer (block .binary64 4 4) (rd (block .binary64 4 4) 0x2000C) = some (some (.data 0x3FED906B)) ∧
    answer (block .binary64 4 4) (rd (block .binary64 4 4) 0x20020) = some (some (.data 0)) ∧
    answer .reset (rd .reset 0x18000) = some (some (.data 0)) := by decide

/-! ### A state and operands that meet the hypotheses of each obligation -/

theorem test_hyp_DecodeOfEncode :
    (Instr.config 255 255 true).wellFormed = true ∧ encode (.config 255 255 true) = 0x01FFFF01 ∧
    (Instr.fwd2d 0 255).wellFormed = true ∧ encode (.fwd2d 0 255) = 0x00FF0004 := by decide

theorem test_hyp_EncodeOfDecode : decode 0x01FFFF01 = .cmd (.config 255 255 true) := by decide

/-- The condition of LegalEncodingsDecode. -/
def legal (w : Word) : Prop :=
  1 ≤ (w.extractLsb' 0 8).toNat ∧ (w.extractLsb' 0 8).toNat ≤ 5 ∧ w.extractLsb' 25 7 = 0 ∧
    (w.getLsbD 24 = false ∨ (w.extractLsb' 0 8).toNat = 1)

/-- The two clauses of LegalEncodingsDecode, at words next to the boundary of each condition. -/
theorem test_hyp_LegalEncodings :
    legal 0x01000001 ∧ legal 0x00FFFF05 ∧ ¬ legal 0x00000000 ∧ ¬ legal 0x00000006 ∧ ¬ legal 0x02000001 ∧
      ¬ legal 0x01000002 := by
  unfold legal; decide

theorem test_hyp_StepRunsTheIssuedCommand :
    let s := next [wr (block .binary64 2 3) 0x014 0x00030204] (block .binary64 2 3)
    s.order = .access (.write (s.build.base + 0x014) 32 0xF 0x00030204) :: [] ∧ decode 0x00030204 = .cmd (.fwd2d 2 3) ∧
      after s = runs (.fwd2d 2 3) s := by decide

theorem test_hyp_StepRunsThePendingCommand :
    let s := pending (.config 1 1 false) .reset
    let s' := next [.engine] s
    (s.order = [] ∧ s.pend = some (.config 1 1 false) ∧ after s = runs (.config 1 1 false) s) ∧
    (s'.order = .engine :: [] ∧ s'.pend = some (.config 1 1 false) ∧ after s' = runs (.config 1 1 false) s') := by decide

theorem test_hyp_IllegalWordIsRejected :
    let s := next [wr .reset 0x014 0x06] .reset
    let b := pending (.config 1 1 false) s
    s.order = .access (.write (s.build.base + 0x014) 32 0xF 0x06) :: [] ∧ decode 0x06 = .illegal .opcode ∧
      (after s).map State.errcode = some .illegalCmd ∧ (after b).map State.errcode = some .busy := by decide

theorem test_hyp_IdleBlockDoesNothing :
    State.reset.pend = none ∧ State.reset.order = [] ∧ (next [.engine] .reset).order = .engine :: [] := by decide

/-- The window's last word is decoded, and the next address faults. -/
theorem test_hyp_StepStops :
    (match step (next [rd .reset 0x3FFFC] .reset) with
      | .next _ => true | .fault _ => false | .refused _ => false) = true ∧
    (match step (next [rd .reset 0x40000] .reset) with
      | .next _ => false | .fault e => decide (e = .outsideWindow) | .refused _ => false) = true := by decide

/-- Each refused size of ConfigIssue, and the largest accepted one. -/
theorem test_hyp_ConfigIssue :
    State.reset.pend = none ∧ State.reset.build.nmax = 32 ∧
    (∀ q ∈ ([(0, 1, false), (1, 0, false), (33, 1, false), (1, 33, false), (4, 3, true), (5, 4, true)] : List (Nat × Nat × Bool)),
      (runs (.config q.1 q.2.1 q.2.2) .reset).map State.errcode = some .invalidConfig) ∧
    (∀ q ∈ ([(1, 1, false), (32, 32, false), (4, 4, true)] : List (Nat × Nat × Bool)),
      (runs (.config q.1 q.2.1 q.2.2) .reset).map State.pend = some (some (.config q.1 q.2.1 q.2.2))) := by decide

theorem test_hyp_OneDimensionalIssue :
    let s := block .binary64 2 3
    s.pend = none ∧ s.acfg.rows ≠ 0 ∧ s.acfg.cols.toNat = 3 ∧
    (runs (.fwd1d 1 3) s).map State.pend = some (some (.fwd1d 1 3)) ∧
    (runs (.inv1d 1 3) s).map State.pend = some (some (.inv1d 1 3)) ∧
    (runs (.fwd1d 2 3) s).map State.errcode = some .dimMismatch ∧
    (runs (.inv1d 1 2) s).map State.errcode = some .dimMismatch := by decide

/-- The sizes 0 and NMAX + 1, with a legal ACFG. -/
theorem test_hyp_OneDimensionalIssue_sizes :
    let s := block .binary64 2 3
    s.acfg.legal s.build.nmax = true ∧ (runs (.fwd1d 0 3) s).map State.errcode = some .dimMismatch ∧
    (runs (.inv1d 1 0) s).map State.errcode = some .dimMismatch ∧
    (runs (.fwd1d 1 33) s).map State.errcode = some .dimMismatch := by decide

theorem test_hyp_TwoDimensionalIssue :
    let s := block .binary64 2 3
    s.pend = none ∧ s.acfg.rows ≠ 0 ∧
    (runs (.fwd2d 2 3) s).map State.pend = some (some (.fwd2d 2 3)) ∧
    (runs (.inv2d 2 3) s).map State.pend = some (some (.inv2d 2 3)) ∧
    (runs (.fwd2d 3 2) s).map State.errcode = some .dimMismatch ∧
    (runs (.inv2d 2 2) s).map State.errcode = some .dimMismatch := by decide

theorem test_hyp_TransformNeedsConfiguration :
    (Instr.inv2d 1 1).isConfig = false ∧ State.reset.pend = none ∧ State.reset.acfg.rows = 0 ∧
    (runs (.inv2d 1 1) .reset).map State.errcode = some .notConfigured := by decide

theorem test_hyp_CommandWhileBusy :
    let s := next [wr .reset 0x014 0x00020201] (pending (.config 1 1 false) .reset)
    s.order = .access (.write (s.build.base + 0x014) 32 0xF 0x00020201) :: [] ∧ s.pend = some (.config 1 1 false) ∧
    (after s).map (fun t => (t.errcode, t.pend)) = some (.busy, some (.config 1 1 false)) := by decide

/-- IssueProcedure, one word for each branch, in the order of the checks. -/
theorem test_hyp_IssueProcedure :
    let b := block .binary64 2 3
    (after (pending (.fwd2d 2 3) b |> next [wr b 0x014 0xFF])).map State.errcode = some .busy ∧
    (after (next [wr b 0x014 0xFF] b)).map State.errcode = some .illegalCmd ∧
    (after (next [wr b 0x014 0x01030401] b)).map State.errcode = some .invalidConfig ∧
    (after (next [wr b 0x014 0x00202001] b)).map (fun t => (t.pend, t.acfgValue)) = some (some (.config 32 32 false), 0) ∧
    (after (next [wr .reset 0x014 0x00010105] .reset)).map State.errcode = some .notConfigured ∧
    (after (next [wr b 0x014 0x00030203] b)).map State.errcode = some .dimMismatch ∧
    (after (next [wr b 0x014 0x00030104] b)).map State.errcode = some .dimMismatch ∧
    (after (next [wr b 0x014 0x00030205] b)).map State.pend = some (some (.inv2d 2 3)) := by decide

theorem test_hyp_ConfigCompletion :
    let s := next [.engine] (pending (.config 4 4 true) .reset)
    s.order = .engine :: [] ∧ s.pend = some (.config 4 4 true) ∧
    (runs (.config 4 4 true) s).map (fun t => (t.acfg.f4, t.done, t.pend)) = some (true, true, none) := by decide

theorem test_hyp_Completions :
    let b := block .binary64 2 3
    (pending (.fwd1d 1 3) b).order = [] ∧ (pending (.fwd1d 1 3) b).pend = some (.fwd1d 1 3) ∧
    (pending (.inv1d 1 3) b).order = [] ∧ (pending (.inv1d 1 3) b).pend = some (.inv1d 1 3) ∧
    (pending (.fwd2d 2 3) b).order = [] ∧ (pending (.fwd2d 2 3) b).pend = some (.fwd2d 2 3) ∧
    (pending (.inv2d 2 3) b).order = [] ∧ (pending (.inv2d 2 3) b).pend = some (.inv2d 2 3) ∧
    (block .binary64 1 64).acfg.cols.toNat ≤ 64 := by decide

/-- Completion with every operand byte unspecified: the transforms still end. -/
theorem test_hyp_Completions_unspecified :
    (∀ i ∈ ([.fwd1d 1 1, .inv1d 1 1, .fwd2d 1 1, .inv2d 1 1] : List Instr), ∃ t, exec i (pending i (block .binary64 1 1)) = .next t) := by
  intro i hi
  simp only [List.mem_cons, List.not_mem_nil, or_false] at hi
  rcases hi with rfl | rfl | rfl | rfl <;> exact ⟨_, rfl⟩

theorem test_hyp_OperandIsTheSlot :
    let s := rowIn 0 0 [0x4008000000000001] (block .binary64 1 1)
    (∀ k, k < elemBytes s.build.fmt → s.mem.load (0x08000 + k) ≠ none) ∧
    s.readIn 0 0 0 = 0x4008000000000001 ∧ s.mem.load 0x08008 = none := by decide

theorem test_hyp_SizeOne :
    let s := rowIn 0 0 [0x7FF0000000000001] (block .binary64 1 1)
    s.acfg.rows = 1 ∧ s.acfg.cols = 1 ∧ s.tablesInstalled = true ∧ s.in? 0 0 = some 0x7FF0000000000001 ∧
    rowOut (after (pending (.inv2d 1 1) s)) 0 1 = some [some 0x7FF8000000000000] := by decide +kernel

theorem test_hyp_SizeOne_negative_zero :
    rowOut (after (pending (.fwd1d 1 1) (rowIn 0 0 [0x80000000] (block .binary32 1 1)))) 0 1 = some [some 0x80000000] := by
  decide +kernel

theorem test_hyp_OneRow :
    let s := block .binary64 1 4
    s.order = [] ∧ s.acfg.rows = 1 ∧ s.acfg.cols.toNat ≤ 64 ∧ s.cosr = cosTable s.build.fmt 1 ∧
      s.alphar = alphaTable s.build.fmt 1 := by decide

theorem test_hyp_NaNOperand :
    let s := pending (.fwd1d 1 3) (rowIn 0 2 [0xFFF8000000000123] (block .binary64 3 3))
    s.order = [] ∧ s.pend = some (.fwd1d 1 3) ∧ 2 < s.acfg.cols.toNat ∧ s.in? 0 2 = some 0xFFF8000000000123 ∧
      isNaN s.build.fmt 0xFFF8000000000123 = true := by decide

theorem test_hyp_FixedPath :
    let s := pending (.fwd2d 4 4) (block .binary64 4 4)
    State.reset.order = [] ∧ (Instr.fwd2d 4 4).isConfig = false ∧ s.order = [] ∧ s.pend = some (.fwd2d 4 4) := by decide

/-- Slot addresses at the first and last backed index, and at the first unbacked one (NMAX = 32, and 64). -/
theorem test_hyp_SlotAddresses :
    target 32 0x08000 = .inSlot 0 0 false ∧ target 32 (0x10000 + 512 * 31 + 8 * 31 + 4) = .outSlot 31 31 true ∧
    target 64 (0x18000 + 512 * 63 + 8 * 63 + 4) = .cosrSlot 63 63 true ∧ target 64 (0x20000 + 8 * 63) = .coscSlot 0 63 false ∧
    target 32 (0x28000 + 8 * 31) = .alpharSlot 31 false ∧ target 32 (0x28200 + 8 * 31 + 4) = .alphacSlot 31 true ∧
    target 32 (0x08000 + 512 * 32) = .reserved ∧ target 32 (0x08000 + 8 * 32) = .reserved ∧
    target 32 (0x28000 + 8 * 32) = .reserved ∧ target 32 (0x28200 + 8 * 63 + 4) = .reserved := by decide

theorem test_hyp_BusErrors :
    let r := next [rd .reset 0x10000] (pending (.config 1 1 false) .reset)
    let w := next [wr .reset 0x08000 0] (pending (.config 1 1 false) .reset)
    (after r).map State.resp = some (some .error) ∧ (after w).map State.resp = some (some .error) ∧
    (after { r with pend := none }).map State.resp ≠ some (some .error) ∧
    (after { w with pend := none }).map State.resp = some (some .written) := by
  refine ⟨by decide, by decide, ?_, by decide⟩
  simp [after, step, next, rd, hostAccess, pending, State.reset, State.resetOf, Config.build, inWindow, readAccess, formOk, target,
    matrixTarget, slotRow, slotCol, slotHi, State.readTarget, State.unlessBusy, State.busy, State.respond]

theorem test_hyp_BusErrorChangesNothing :
    let s := next [wr .reset 0x010 0xFFFFFFFF] .reset
    s.order = .access (.write 0x010 32 0xF 0xFFFFFFFF) :: [] ∧
    after s = some { State.reset with seq := 1, resp := some .error } := by decide

theorem test_hyp_Reads :
    let s := next [rd .reset 0x00C, rd .reset 0x00C] .reset
    s.order = .access (.read (s.build.base + 0x00C) 32) :: .access (.read (s.build.base + 0x00C) 32) :: [] := by decide

/-- A read of a specified word of IN, and a second one. -/
theorem test_hyp_Reads_specified :
    let s := rowIn 0 0 [0x4008000000000001] .reset
    (∀ k, k < 4 → bufferByte s.build (0x08004 + k) = true → s.mem.load (0x08004 + k) ≠ none) ∧
    bufferByte s.build 0x08004 = true ∧
    (after (next [rd s 0x08004, rd s 0x08004] s)).map State.resp = some (some (.data 0x40080000)) := by decide

/-- Reads of the registers at their offsets, with every field of STATUS set. -/
theorem test_hyp_Registers :
    let s := { pending (.fwd1d 1 1) (block .binary64 1 1) with done := true, err := true, errcode := .dimMismatch }
    s.build.ok = true ∧ (next [rd s 0x000] s).order = .access (.read (s.build.base + 0x000) 32) :: [] ∧
    answer s (rd s 0x014) = some (some (.data 0)) ∧ answer s (rd s 0x008) = some (some (.data 0)) ∧
    answer s (rd s 0x00C) = some (some (.data 0x5303)) ∧ answer s (rd s 0x010) = some (some (.data 0x00010100)) := by decide

theorem test_hyp_StatusWrite :
    let s := next [wr .reset 0x00C 0x00000200] { State.reset with done := true, err := true, errcode := .busy }
    s.order = .access (.write (s.build.base + 0x00C) 32 0xF 0x200) :: [] ∧
    (after s).map (fun t => (t.done, t.err, t.errcode)) = some (true, false, .none) := by decide

theorem test_hyp_ControlWrite :
    let s := next [wr .reset 0x008 0x7FFFFFFE] .reset
    s.order = .access (.write (s.build.base + 0x008) 32 0xF 0x7FFFFFFE) :: [] ∧ (0x7FFFFFFE : Word).getLsbD 31 = false ∧
    (after s).map State.ctrlValue = some 0x00000002 := by decide

/-- A soft reset of a running FWD2D: slot (1, 0) becomes unspecified, slot (1, 3) outside its shape keeps its bytes. -/
theorem test_hyp_SoftReset :
    let b := block .binary64 2 3
    let m := (b.mem.store (matrixSlot outBase 1 0) (elemByteList 8 7)).store (matrixSlot outBase 1 3) (elemByteList 8 9)
    let s := next [wr b 0x008 0x80000003] { pending (.fwd2d 2 3) b with mem := m }
    (0x80000003 : Word).getLsbD 31 = true ∧ s.out? 1 0 = some 7 ∧
    (after s).map (fun t => (t.out? 1 0, t.out? 1 3, t.ctrlValue, t.statusValue, t.acfgValue)) = some (none, some 9, 0, 0, 0) := by
  decide

theorem test_hyp_InWindowWrite :
    let b := block .binary64 1 1
    let s := next [wr b (0x08000 + 512 * 31 + 8 * 31 + 4) 0x12345678] b
    31 < b.build.nmax ∧ b.build.nmax ≤ 64 ∧
    (after s).map (fun t => (t.mem.load (0x08000 + 512 * 31 + 8 * 31 + 4), t.mem.load (0x08000 + 512 * 31 + 8 * 31 + 7))) =
      some (some 0x78, some 0x12) ∧
    (after (pending (.fwd1d 1 1) s)).map State.resp = some (some .error) := by decide

theorem test_hyp_InWindowWrite_ignored :
    let b := block .binary32 1 1
    (after (next [wr b 0x08004 0xFFFFFFFF] b)).map (fun t => (t.mem, t.resp)) = some ([], some .written) := by decide

theorem test_hyp_BufferWindowRead :
    let s := rowIn 0 0 [0x4008000000000001] (block .binary64 1 1)
    0 < s.build.nmax ∧ s.build.nmax ≤ 64 ∧
    answer (pending (.fwd1d 1 1) s) (rd s 0x08000) = some (some (.data 1)) ∧
    answer (pending (.fwd1d 1 1) s) (rd s 0x10000) = some (some .error) ∧
    answer (block .binary32 1 1) (rd s 0x10004) = some (some (.data 0)) := by decide

theorem test_hyp_TableWindowRead :
    let s := block .binary64 2 3
    (2 < s.build.nmax ∧ tableEntry s.cosc 2 1 = 0xBFEBB67AE8584CAA ∧
      answer s (rd s (0x20000 + 512 * 2 + 8 * 1 + 4)) = some (some (.data 0xBFEBB67A))) ∧
    answer s (rd s (0x18000 + 512 * 2)) = some (some (.data 0)) ∧
    answer s (rd s (0x28000 + 8)) = some (some (.data 0)) ∧ answer s (rd s (0x28004 + 8)) = some (some (.data 0x3FF00000)) ∧
    answer s (rd s (0x28200 + 8 * 2)) = some (some (.data 0x700C2C3E)) := by decide

theorem test_hyp_PowerOn :
    let s := next [.powerOn] (block .binary64 2 3)
    s.order = .powerOn :: [] ∧ (after s).map State.acfgValue = some 0 := by decide

/-- A configured block with a pending transform meets the invariant, and steps. -/
theorem test_inv_pending : (pending (.fwd2d 2 3) (block .binary64 2 3)).Inv :=
  ⟨by decide, by decide, by decide, by decide, by decide, ⟨List.Pairwise.nil, by intro c hc; cases hc⟩⟩

/-- An unconfigured block with a pending CONFIG meets the invariant. -/
theorem test_inv_config : (pending (.config 4 4 true) .reset).Inv :=
  ⟨by decide, by decide, by decide, by decide, by decide, ⟨List.Pairwise.nil, by intro c hc; cases hc⟩⟩

theorem test_hyp_StepKeepsTheInvariant :
    ∃ t, step (pending (.fwd2d 2 3) (block .binary64 2 3)) = .next t := ⟨_, rfl⟩

theorem test_hyp_WindowRun :
    let s := next [rd .reset 0x3FFFC, .engine, wr .reset 0x014 0x01] (pending (.config 1 1 false) .reset)
    s.inWindowRun = true ∧ s.pend ≠ none := by decide

theorem test_hyp_OnlyTheHostWritesIn :
    let s := next [wr .reset 0x0FFFC 0x12345678] { State.reset with build := { Config.build with nmax := 64 } }
    inWindowByte 0x0FFFF ∧ (after s).map (fun t => t.mem.load 0x0FFFF) = some (some 0x12) ∧ s.mem.load 0x0FFFF = none := by
  refine ⟨by unfold inWindowByte; omega, by decide, by decide⟩

theorem test_hyp_OnlyTheEngineWritesOut :
    let s := pending (.fwd1d 1 1) (rowIn 0 0 [0x3F800000] (block .binary32 1 1))
    outWindowByte 0x10003 ∧ (after s).map (fun t => t.mem.load 0x10003) = some (some 0x3F) ∧ s.mem.load 0x10003 = none := by
  refine ⟨by unfold outWindowByte; omega, by decide +kernel, by decide⟩

/-- The other two ways an OUT byte changes: it becomes unspecified by an aborting soft reset, or by a power-on reset. -/
theorem test_hyp_OnlyTheEngineWritesOut_resets :
    let b := block .binary64 2 3
    let s := pending (.fwd2d 2 3) { b with mem := b.mem.store (matrixSlot outBase 0 0) (elemByteList 8 7) }
    outWindowByte 0x10000 ∧ s.mem.load 0x10000 = some 7 ∧
    (after (next [wr b 0x008 0x80000000] s)).map (fun t => (t.mem.load 0x10000, t.pend, t.acfgValue)) = some (none, none, 0) ∧
    (after (next [.powerOn] s)).map (fun t => (t.mem.load 0x10000, t.pend, t.acfgValue)) = some (none, none, 0) := by
  refine ⟨by unfold outWindowByte; omega, ?_⟩
  decide

/-- A completion of CONFIG. -/
theorem test_hyp_OnlyConfigAndReset :
    let s := pending (.config 1 1 false) .reset
    (after s).map State.acfgValue = some 0x00010100 ∧ s.acfgValue = 0 := by decide

/-- The three events that clear ACFG: a power-on reset, a soft reset, and the acceptance of a CONFIG word at CMD. -/
theorem test_hyp_OnlyConfigAndReset_clears :
    let b := block .binary64 2 3
    b.acfgValue = 0x00030200 ∧
    (after (next [.powerOn] b)).map State.acfgValue = some 0 ∧
    (after (next [wr b 0x008 0x80000000] b)).map State.acfgValue = some 0 ∧
    (after (next [wr b 0x014 0x00010101] b)).map (fun t => (t.acfgValue, t.pend)) = some (0, some (.config 1 1 false)) := by
  decide

theorem test_hyp_FlagsAreSticky :
    let s := next [wr .reset 0x00C 0x300] { State.reset with done := true, err := true, errcode := .busy }
    s.done = true ∧ s.err = true ∧ (after s).map (fun t => (t.done, t.err)) = some (false, false) := by decide

/-- The two resets clear both flags, whatever else is in flight. -/
theorem test_hyp_FlagsAreSticky_resets :
    let s := pending (.fwd1d 1 1) { block .binary32 1 1 with done := true, err := true, errcode := .busy }
    (after (next [.powerOn] s)).map (fun t => (t.statusValue, t.errcode)) = some (0, .none) ∧
    (after (next [wr s 0x008 0x80000003] s)).map (fun t => (t.statusValue, t.errcode)) = some (0, .none) := by decide

theorem test_hyp_IntermediateBuffer :
    (∃ t, step (pending (.inv1d 1 3) (block .binary64 2 3)) = .next t) ∧
    (∃ t, step (pending (.fwd2d 2 3) (block .binary64 2 3)) = .next t) := ⟨⟨_, rfl⟩, ⟨_, rfl⟩⟩

theorem test_hyp_TablesAreHidden :
    (pending (.config 4 4 true) State.reset).acfg.rows = 0 ∧ (after (pending (.config 4 4 true) .reset)).isSome = true := by
  decide

/-- RN at the overflow threshold, and just below it. -/
theorem test_hyp_RN :
    rn .binary64 true ((2 ^ 54 - 1) * 2 ^ 2044) 0 = 0xFFF0000000000000 ∧
    rn .binary64 true ((2 ^ 54 - 1) * 2 ^ 2044 - 1) 0 = 0xFFEFFFFFFFFFFFFF ∧
    rn .binary32 false ((2 ^ 25 - 1) * 2 ^ 252) 0 = 0x7F800000 ∧ rn .binary32 true 1 1 = 0x80000000 ∧
    isFinite .binary32 0x7F7FFFFF = true := by decide +kernel

/-- The classes of the operands in FmulByTheRule, clause by clause. -/
theorem test_hyp_Fmul :
    isNaN .binary64 0x7FF0000000000001 = true ∧ isNaN .binary32 0xFFFFFFFF = true ∧
    isInf .binary64 0xFFF0000000000000 = true ∧ isZero .binary64 0x8000000000000000 = true ∧
    isNaN .binary64 0xFFF0000000000000 = false ∧ isFinite .binary64 0x7FEFFFFFFFFFFFFF = true ∧
    fmul .binary64 0xFFF0000000000000 0x3FE0000000000000 = 0xFFF0000000000000 ∧
    fmul .binary64 0x7FF0000000000000 0 = 0x7FF8000000000000 := by decide

/-- The classes of the operands in FaddByTheRule, clause by clause. -/
theorem test_hyp_Fadd :
    isInf .binary32 0x7F800000 = true ∧ isInf .binary32 0xFF800000 = true ∧ isNeg .binary32 0xFF800000 = true ∧
    isFinite .binary32 0x7F7FFFFF = true ∧ exactValue .binary32 1 + exactValue .binary32 0x80000001 = 0 ∧
    exactValue .binary32 1 + exactValue .binary32 1 ≠ 0 ∧
    fadd .binary32 0x80000000 0x80000000 = 0x80000000 ∧ fadd .binary32 1 0x80000001 = 0 := by decide

theorem test_hyp_FaddIsCommutative : (0xFFFFFFFF : Elem).toNat < 2 ^ Fmt.binary32.width := by decide

theorem test_hyp_EveryNaN :
    isNaN .binary32 (fmul .binary32 0x7F800000 0) = true ∧ isNaN .binary32 (fadd .binary32 0x7F800000 0xFF800000) = true ∧
    isNaN .binary32 (dot .binary32 [0x7F800001] [0]) = true ∧ isNaN .binary32 0x7F800001 = true := by decide

theorem test_hyp_Dot : ([0x3F800000] : List Elem).length = ([0] : List Elem).length ∧ ([0x3F800000] : List Elem) ≠ [] := by decide

/-- The table statements at the largest size and at each exact entry. -/
theorem test_hyp_Tables :
    isFinite .binary64 0x7FEFFFFFFFFFFFFF = true ∧
    cosEntry .binary64 5 2 4 = 0x3FF0000000000000 ∧ (2 * 2 + 1) * 4 % (4 * 5) = 0 ∧
    cosEntry .binary64 3 1 2 = 0xBFF0000000000000 ∧ (2 * 1 + 1) * 2 % (4 * 3) = 2 * 3 ∧
    cosEntry .binary64 6 1 2 = 0 ∧ (2 * 1 + 1) * 2 % (2 * 6) = 6 ∧
    cosEntry .binary64 3 0 2 = 0x3FE0000000000000 ∧ (63 : Nat) < 64 := by decide

end Sys2Proof.Tests
end

section
/-! SUPPORT. The machine's invariant: the reset state meets it and every step keeps it (10_state.md R23, R25, R32, R36). -/

namespace Sys2Proof.Machine

/-! ### What each part of the invariant says -/

theorem nmax_of_ok (b : Build) (h : b.ok = true) : 4 ≤ b.nmax ∧ b.nmax ≤ 64 := by
  simp only [Build.ok, Bool.and_eq_true, decide_eq_true_eq] at h
  exact h.1

theorem State.errLegal_iff (s : State) : s.errLegal = true ↔ (s.err = true ↔ s.errcode ≠ .none) := by
  simp only [State.errLegal, decide_eq_true_eq]

theorem State.tablesInstalled_iff (s : State) :
    s.tablesInstalled = true ↔ (s.configured = true →
      s.cosr = cosTable s.build.fmt s.sizeR ∧ s.cosc = cosTable s.build.fmt s.sizeC ∧
      s.alphar = alphaTable s.build.fmt s.sizeR ∧ s.alphac = alphaTable s.build.fmt s.sizeC) := by
  cases h : s.configured <;> simp [State.tablesInstalled, h, and_assoc]

/-- An unconfigured block owes nothing to its tables. -/
theorem State.tablesInstalled_of_unconfigured (s : State) (h : s.acfg = .unconfigured) : s.tablesInstalled = true :=
  s.tablesInstalled_iff.2 fun hc => absurd (by rw [h]; rfl) (s.configured_iff.1 hc)

/-- The sizes of a legal configuration, which are 0 while unconfigured, are at most NMAX. -/
theorem Acfg.legal_sizes (n : Nat) (a : Acfg) (h : a.legal n = true) : a.rows.toNat ≤ n ∧ a.cols.toNat ≤ n := by
  simp only [Acfg.legal, Bool.or_eq_true, Bool.and_eq_true, decide_eq_true_eq] at h
  rcases h with rfl | ⟨⟨⟨⟨-, hr⟩, -⟩, hc⟩, -⟩
  · exact ⟨Nat.zero_le n, Nat.zero_le n⟩
  · exact ⟨hr, hc⟩

/-- What the checks of CONFIG let through (40_table_generator.md R82). -/
theorem badConfig_eq_false_iff (n r c : Nat) (f4 : Bool) :
    badConfig n r c f4 = false ↔ 1 ≤ r ∧ r ≤ n ∧ 1 ≤ c ∧ c ≤ n ∧ (f4 = true → r = 4 ∧ c = 4) := by
  rw [← Bool.not_eq_true, badConfig_iff]
  cases f4 <;> simp <;> omega

/-- A size up to NMAX fits its field of ACFG. -/
theorem toNat_sizeField (n r : Nat) (hn : n ≤ 64) (hr : r ≤ n) : (BitVec.ofNat 8 r).toNat = r := by
  rw [BitVec.toNat_ofNat]
  omega

/-- The sizes a CONFIG passed its checks with make a legal configuration (R25, R82). -/
theorem Acfg.legal_of_config (n r c : Nat) (f4 : Bool) (hn : n ≤ 64) (h : badConfig n r c f4 = false) :
    Acfg.legal n { rows := BitVec.ofNat 8 r, cols := BitVec.ofNat 8 c, f4 := f4 } = true := by
  obtain ⟨hr0, hrn, hc0, hcn, h4⟩ := (badConfig_eq_false_iff n r c f4).1 h
  simp only [Acfg.legal, toNat_sizeField n r hn hrn, toNat_sizeField n c hn hcn, Bool.or_eq_true, Bool.and_eq_true,
    decide_eq_true_eq, Bool.not_eq_true']
  refine .inr ⟨⟨⟨⟨hr0, hrn⟩, hc0⟩, hcn⟩, ?_⟩
  cases f4 with
  | false => exact .inl rfl
  | true => exact .inr (by rw [(h4 rfl).1, (h4 rfl).2]; exact ⟨rfl, rfl⟩)

/-- A command accepted after its checks is legally pending (60_exceptions.md R124, R126). -/
theorem State.accept_pendLegal (i : Instr) (s : State) (h : Acceptable i s) : (s.accept i).pendLegal = true := by
  cases i with
  | config r c f4 =>
    have hb : badConfig s.build.nmax r c f4 = false := h
    simp [State.pendLegal, Instr.isConfig, hb]
  | fwd1d a b => exact Bool.and_eq_true_iff.2 h
  | inv1d a b => exact Bool.and_eq_true_iff.2 h
  | fwd2d a b => exact Bool.and_eq_true_iff.2 h
  | inv2d a b => exact Bool.and_eq_true_iff.2 h

/-- A pending CONFIG passed its checks. -/
theorem State.goodConfig_of_pendLegal (s : State) (r c : Nat) (f4 : Bool) (hp : s.pend = some (.config r c f4))
    (h : s.pendLegal = true) : badConfig s.build.nmax r c f4 = false := by
  simp only [State.pendLegal, hp, Bool.and_eq_true, Bool.not_eq_true'] at h
  exact h.1

/-- Only a CONFIG can be pending while the block is unconfigured. -/
theorem State.isConfig_of_pendLegal (s : State) (i : Instr) (hp : s.pend = some i) (h : s.pendLegal = true)
    (hu : s.configured = false) : i.isConfig = true := by
  cases i with
  | config r c f4 => rfl
  | _ => simp [State.pendLegal, hp, hu] at h

/-! ### Which bytes the memory lists -/

theorem four_le_elemBytes (f : Fmt) : 4 ≤ elemBytes f := by cases f <;> decide

/-- The bytes of the element in a backed IN or OUT slot are buffer bytes (20_memory.md R47 to R50). -/
theorem bufferByte_matrixSlot (b : Build) (base r c k : Nat) (hb : base = inBase ∨ base = outBase) (hn : b.nmax ≤ 64)
    (hr : r < b.nmax) (hc : c < b.nmax) (hk : k < elemBytes b.fmt) : bufferByte b (matrixSlot base r c + k) = true := by
  have h8 := elemBytes_le b.fmt
  simp only [bufferByte, Bool.and_eq_true, decide_eq_true_eq]
  simp only [slotRow, slotCol, matrixSlot, cosrBase, inBase, outBase] at hb ⊢
  omega

/-- Storing buffer bytes keeps the memory legal. -/
theorem State.memLegal_store (s : State) (off : Nat) (bs : List Byte) (h : s.memLegal)
    (hb : ∀ k, k < bs.length → bufferByte s.build (off + k) = true) :
    ({ s with mem := s.mem.store off bs } : State).memLegal := by
  refine ⟨s.mem.wf_store off bs h.1, fun c hc => ?_⟩
  rcases Memory.mem_store _ _ _ _ hc with hc | ⟨h1, h2⟩
  · exact h.2 c hc
  · have := hb (c.1 - off) (by omega)
    rwa [Nat.add_sub_cancel' h1] at this

/-- A write to an IN slot changes nothing but the memory. -/
theorem State.writeIn_eq_mem (s : State) (r c : Nat) (hi : Bool) (d : Word) : ∃ m, s.writeIn r c hi d = { s with mem := m } := by
  unfold State.writeIn
  split <;> exact ⟨_, rfl⟩

theorem State.memLegal_writeIn (s : State) (r c : Nat) (hi : Bool) (d : Word) (h : s.memLegal) (hn : s.build.nmax ≤ 64)
    (hr : r < s.build.nmax) (hc : c < s.build.nmax) : (s.writeIn r c hi d).memLegal := by
  unfold State.writeIn
  split
  · rename_i hf
    refine s.memLegal_store _ _ h fun k hk => ?_
    rw [Nat.add_assoc]
    exact bufferByte_matrixSlot _ _ _ _ _ (.inl rfl) hn hr hc (by rw [hf]; exact Nat.add_lt_add_left hk 4)
  · exact h
  · refine s.memLegal_store _ _ h fun k hk => ?_
    exact bufferByte_matrixSlot _ _ _ _ _ (.inl rfl) hn hr hc
      (Nat.lt_of_lt_of_le hk (four_le_elemBytes _))

/-- The places a command writes are backed (R48), since the configured sizes are at most NMAX. -/
theorem State.resultPlaces_backed (s : State) (i : Instr) (p : Nat × Nat) (hb : s.build.ok = true)
    (ha : s.acfg.legal s.build.nmax = true) (hp : p ∈ s.resultPlaces i) : p.1 < s.build.nmax ∧ p.2 < s.build.nmax := by
  obtain ⟨h4, -⟩ := nmax_of_ok _ hb
  obtain ⟨hr, hc⟩ : s.sizeR ≤ s.build.nmax ∧ s.sizeC ≤ s.build.nmax := Acfg.legal_sizes _ _ ha
  cases i with
  | config r c f4 => cases hp
  | _ =>
    simp only [State.resultPlaces, mem_blockPlaces] at hp
    omega

/-! ### Each operation keeps the invariant -/

theorem State.Inv.respond {s : State} (h : s.Inv) (r : BusResp) : (s.respond r).Inv :=
  ⟨h.build, h.acfg, h.pend, h.tables, h.err, h.mem⟩

theorem State.Inv.setEnables {s : State} (h : s.Inv) (d : Word) : (s.setEnables d).Inv :=
  ⟨h.build, h.acfg, h.pend, h.tables, h.err, h.mem⟩

theorem State.Inv.clearStatus {s : State} (h : s.Inv) (d : Word) : (s.clearStatus d).Inv := by
  refine ⟨h.build, h.acfg, h.pend, h.tables, (State.errLegal_iff _).2 ?_, h.mem⟩
  have he := s.errLegal_iff.1 h.err
  cases h9 : d.getLsbD 9
  · simpa only [State.clearStatus_err, State.clearStatus_errcode, h9, Bool.not_false, Bool.and_true, Bool.false_eq_true,
      if_false] using he
  · simp only [State.clearStatus_err, State.clearStatus_errcode, h9, Bool.not_true, Bool.and_false, if_true]
    decide

theorem State.Inv.writeIn {s : State} (h : s.Inv) (r c : Nat) (hi : Bool) (d : Word) (hr : r < s.build.nmax)
    (hc : c < s.build.nmax) : (s.writeIn r c hi d).Inv := by
  have hm := s.memLegal_writeIn r c hi d h.mem (nmax_of_ok _ h.build).2 hr hc
  obtain ⟨m, hw⟩ := s.writeIn_eq_mem r c hi d
  rw [hw] at hm ⊢
  exact ⟨h.build, h.acfg, h.pend, h.tables, h.err, hm⟩

theorem State.Inv.reject {s : State} (h : s.Inv) (code : ErrCode) (hc : code ≠ .none) : (s.reject code).Inv :=
  ⟨h.build, h.acfg, h.pend, h.tables, (State.errLegal_iff _).2 (by simp [hc]), h.mem⟩

theorem State.Inv.accept {s : State} (h : s.Inv) (i : Instr) (hi : Acceptable i s) : (s.accept i).Inv := by
  have hp := s.accept_pendLegal i hi
  cases i with
  | config r c f4 => exact ⟨h.build, rfl, hp, State.tablesInstalled_of_unconfigured _ rfl, h.err, h.mem⟩
  | _ => exact ⟨h.build, h.acfg, hp, h.tables, h.err, h.mem⟩

theorem State.Inv.softReset {s : State} (h : s.Inv) : s.softReset.Inv :=
  ⟨h.build, rfl, rfl, State.tablesInstalled_of_unconfigured _ rfl, rfl,
    s.mem.wf_forgetOuts _ h.mem.1, fun c hc => h.mem.2 c (Memory.mem_forgetOuts _ _ c hc)⟩

/-- A block after power-on reset meets the invariant, whatever its legal build. -/
theorem State.inv_resetOf (b : Build) (h : b.ok = true) : (State.resetOf b).Inv :=
  ⟨h, rfl, rfl, State.tablesInstalled_of_unconfigured _ rfl, rfl, List.Pairwise.nil, nofun⟩

theorem State.Inv.powerOn {s : State} (h : s.Inv) : s.powerOn.Inv :=
  let ⟨hb, ha, hp, ht, he, hm⟩ := State.inv_resetOf s.build h.build
  ⟨hb, ha, hp, ht, he, hm⟩

/-- A transform's results lie in backed OUT slots, and no register it changes is part of the invariant but PEND. -/
theorem State.Inv.writeResult {s : State} (h : s.Inv) (i : Instr) (v : Nat × Nat → Elem) : (s.writeResult i v).Inv := by
  refine ⟨h.build, h.acfg, rfl, h.tables, h.err, s.mem.wf_storeOuts _ _ _ h.mem.1, fun c hc => ?_⟩
  rcases Memory.mem_storeOuts _ _ _ _ _ hc with hc | ⟨p, hp, h1, h2⟩
  · exact h.mem.2 c hc
  · obtain ⟨hr, hcol⟩ := s.resultPlaces_backed i p h.build h.acfg hp
    have := bufferByte_matrixSlot s.build outBase p.1 p.2 (c.1 - matrixSlot outBase p.1 p.2) (.inr rfl)
      (nmax_of_ok _ h.build).2 hr hcol (by omega)
    rwa [Nat.add_sub_cancel' h1] at this

/-- A CONFIG with good sizes installs a legal ACFG and its tables, on either path (R84, R93). -/
theorem State.Inv.completeConfig {s : State} (h : s.Inv) (r c : Nat) (f4 : Bool)
    (hg : badConfig s.build.nmax r c f4 = false) : (completeConfig r c f4 s).Inv := by
  have hn := (nmax_of_ok _ h.build).2
  have ha := Acfg.legal_of_config _ r c f4 hn hg
  obtain ⟨-, hrn, -, hcn, h4⟩ := (badConfig_eq_false_iff _ r c f4).1 hg
  cases f4 with
  | true =>
    obtain ⟨rfl, rfl⟩ := h4 rfl
    exact ⟨h.build, ha, rfl, (State.tablesInstalled_iff _).2 fun _ =>
      ⟨cos4_eq s.build.fmt, cos4_eq s.build.fmt, alpha4_eq s.build.fmt, alpha4_eq s.build.fmt⟩, h.err, h.mem⟩
  | false =>
    refine ⟨h.build, ha, rfl, (State.tablesInstalled_iff _).2 fun _ => ?_, h.err, h.mem⟩
    change cosTable _ r = cosTable _ (BitVec.ofNat 8 r).toNat ∧ cosTable _ c = cosTable _ (BitVec.ofNat 8 c).toNat ∧
      alphaTable _ r = alphaTable _ (BitVec.ofNat 8 r).toNat ∧ alphaTable _ c = alphaTable _ (BitVec.ofNat 8 c).toNat
    rw [toNat_sizeField _ r hn hrn, toNat_sizeField _ c hn hcn]
    exact ⟨rfl, rfl, rfl, rfl⟩

theorem State.Inv.completeTransform {s : State} (h : s.Inv) (i : Instr) (hi : i.isConfig = false) :
    (Machine.completion i s).Inv := by
  obtain ⟨t, v, ht⟩ := completion_transform i s hi
  obtain ⟨hb, ha, hp, htab, he, hm⟩ := h.writeResult i v
  rw [ht]
  exact ⟨hb, ha, hp, htab, he, hm⟩

theorem State.Inv.completion {s : State} (h : s.Inv) (i : Instr) (hp : s.pend = some i) : (completion i s).Inv := by
  cases i with
  | config r c f4 => exact h.completeConfig r c f4 (s.goodConfig_of_pendLegal r c f4 hp h.pend)
  | _ => exact h.completeTransform _ rfl

/-! ### The obligations -/

/-- Settles O41: the default build is legal. -/
theorem resetMeetsTheInvariant : Obligations.ResetMeetsTheInvariant := State.inv_resetOf Config.build (by decide)

/-- Settles O42, by the cases of a step: each operation keeps the invariant. -/
theorem stepKeepsTheInvariant : Obligations.StepKeepsTheInvariant := by
  intro s t hs hstep
  cases step_cases s t hstep with
  | idle => exact hs
  | skip => exact ⟨hs.build, hs.acfg, hs.pend, hs.tables, hs.err, hs.mem⟩
  | complete i _ hp => exact hs.completion i hp
  | powerOn => exact hs.powerOn
  | read _ _ _ r => exact hs.respond r
  | refusedWrite => exact hs.respond .error
  | reject _ _ code _ hc => exact hs.reject code hc
  | accept _ _ i _ _ _ hi => exact hs.accept i hi
  | softReset => exact hs.softReset
  | enables d => exact (hs.setEnables d).respond .written
  | clear d => exact (hs.clearStatus d).respond .written
  | writeIn d _ r c hi _ _ hr hc => exact (hs.writeIn r c hi d hr hc).respond .written

end Sys2Proof.Machine
end

section
/-! SUPPORT. Which step changes what: the bytes of IN and OUT, ACFG, and the flags (10_state.md R25, R28, R29, R39). -/

namespace Sys2Proof.Machine

/-! ### Where each operation changes the memory -/

/-- Every OUT slot starts in the OUT window or after it. -/
theorem outBase_le_of_inOutSlot (n : Nat) (p : Nat × Nat) (o : Nat) (h : InOutSlot n p o) : outBase ≤ o :=
  Nat.le_trans (by rw [matrixSlot, Nat.add_assoc]; exact Nat.le_add_right _ _) h.1

theorem not_inOutSlot_of_inWindowByte (n : Nat) (p : Nat × Nat) (o : Nat) (ho : inWindowByte o) : ¬ InOutSlot n p o :=
  fun h => Nat.not_lt.2 (outBase_le_of_inOutSlot n p o h) ho.2

/-- The completion of a CONFIG writes no byte. -/
theorem completion_mem_of_isConfig (i : Instr) (s : State) (h : i.isConfig = true) : (completion i s).mem = s.mem := by
  cases i with
  | config r c f4 => cases f4 <;> rfl
  | _ => cases h

/-- No completion writes a byte of IN. -/
theorem completion_load_in (i : Instr) (s : State) (o : Nat) (ho : inWindowByte o) :
    (completion i s).mem.load o = s.mem.load o := by
  cases hi : i.isConfig
  · obtain ⟨t, v, h⟩ := completion_transform i s hi
    rw [h]
    exact s.writeResult_frame i v o fun p _ => not_inOutSlot_of_inWindowByte _ p o ho
  · rw [completion_mem_of_isConfig i s hi]

/-- A soft reset keeps a byte, or makes it unspecified, and then it aborts a transform (R150). -/
theorem softReset_load_cases (s : State) (o : Nat) :
    s.softReset.mem.load o = s.mem.load o ∨
    (s.softReset.mem.load o = none ∧ outBase ≤ o ∧ ∃ i, s.pend = some i ∧ i.isConfig = false) := by
  by_cases h : ∃ p ∈ s.abortedPlaces, InOutSlot 8 p o
  · obtain ⟨p, hp, hslot⟩ := h
    refine .inr ⟨Memory.load_forgetOuts_inside _ _ p hp o hslot, outBase_le_of_inOutSlot 8 p o hslot, ?_⟩
    unfold State.abortedPlaces at hp
    split at hp
    · cases hp
    · rename_i i hi
      refine ⟨i, hi, ?_⟩
      cases i with
      | config r c f4 => cases hp
      | _ => rfl
  · exact .inl (Memory.load_forgetOuts _ _ o fun p hp hslot => h ⟨p, hp, hslot⟩)

/-- A bus word stored: its byte lane inside the word's four bytes, the old byte outside. -/
theorem Memory.load_storeWord_cases (m : Memory) (off : Nat) (w : Word) (o : Nat) :
    (m.storeWord off w).load o = m.load o ∨
    (off ≤ o ∧ o < off + 4 ∧ (m.storeWord off w).load o = some (w.lane (o - off))) := by
  by_cases h : off ≤ o ∧ o < off + 4
  · refine .inr ⟨h.1, h.2, ?_⟩
    obtain ⟨k, rfl⟩ := Nat.exists_eq_add_of_le h.1
    obtain hk : k < 4 := by omega
    rw [Memory.storeWord, Memory.load_store_inside _ _ _ _ hk, Nat.add_sub_cancel_left]
    interval_cases k <;> rfl
  · exact .inl (Memory.load_store_outside _ _ _ _ (by simp only [List.length_cons, List.length_nil]; omega))

/-- A word of an IN slot is aligned and lies below the OUT window (R47). -/
theorem inWord_offset (r c : Nat) (hi : Bool) :
    (matrixSlot inBase r c + if hi then 4 else 0) % 4 = 0 ∧
    (r < 64 → c < 64 → matrixSlot inBase r c + (if hi then 4 else 0) + 4 ≤ 0x10000) := by
  cases hi <;> simp only [matrixSlot, inBase, if_true, if_false, Bool.false_eq_true] <;> omega

/-- A write to word `hi` of an IN slot keeps a byte, or stores the byte lane of it that lies in that word (R51). -/
theorem writeIn_load_cases (s : State) (r c : Nat) (hi : Bool) (d : Word) (o : Nat) :
    (s.writeIn r c hi d).mem.load o = s.mem.load o ∨
    (matrixSlot inBase r c + (if hi then 4 else 0) ≤ o ∧ o < matrixSlot inBase r c + (if hi then 4 else 0) + 4 ∧
      (s.writeIn r c hi d).mem.load o = some (d.lane (o - (matrixSlot inBase r c + if hi then 4 else 0)))) := by
  unfold State.writeIn
  split
  · exact s.mem.load_storeWord_cases _ d o
  · exact .inl rfl
  · exact s.mem.load_storeWord_cases _ d o

/-! ### IN -/

/-- Settles O45, by the cases of a step: only a power-on reset and a write to IN reach a byte of IN. -/
theorem onlyTheHostWritesIn : Obligations.OnlyTheHostWritesIn := by
  intro s t o ho hstep hne
  cases step_cases s t hstep with
  | powerOn rest hord => exact .inl ⟨rest, hord⟩
  | complete i => exact absurd (completion_load_in i s o ho) hne
  | softReset =>
    rcases softReset_load_cases s o with h | ⟨-, hout, -⟩
    · exact absurd h hne
    · exact absurd ho.2 (Nat.not_lt.2 hout)
  | writeIn d rest r c hi hord hb =>
    rcases writeIn_load_cases s r c hi d o with h | ⟨h1, h2, h⟩
    · exact absurd h hne
    · have hal := (inWord_offset r c hi).1
      refine .inr ⟨by simpa [State.busy] using hb, _, d, rest, hord, by omega, h.trans ?_⟩
      rw [show o - _ = o % 4 by omega]
      rfl
  | _ => exact absurd rfl hne

/-! ### OUT -/

/-- Settles O46, by the cases of a step: a completion, an aborting soft reset and a power-on reset. -/
theorem onlyTheEngineWritesOut : Obligations.OnlyTheEngineWritesOut := by
  intro s t o ho hstep hne
  cases step_cases s t hstep with
  | powerOn rest hord => exact .inr ⟨rfl, rfl, (powerOn_registers s).2.2, .inr ⟨rest, hord⟩⟩
  | complete i hturn hp =>
    cases hi : i.isConfig
    · obtain ⟨hpend, hdone, -⟩ := completion_ends i s
      exact .inl ⟨i, hp, hi, hpend, hdone, s.engineTurn_iff.1 hturn⟩
    · exact absurd (by rw [completion_mem_of_isConfig i s hi]) hne
  | softReset d rest hord hd =>
    rcases softReset_load_cases s o with h | ⟨hnone, -, i, hp, hi⟩
    · exact absurd h hne
    · exact .inr ⟨hnone, rfl, (softReset_registers s).2.2, .inl ⟨i, d, rest, hp, hi, hord, hd⟩⟩
  | writeIn d rest r c hi hord hb hr hc hr64 hc64 =>
    rcases writeIn_load_cases s r c hi d o with h | ⟨-, h2, -⟩
    · exact absurd h hne
    · exact absurd ho.1 (Nat.not_le.2 (Nat.lt_of_lt_of_le h2 ((inWord_offset r c hi).2 hr64 hc64)))
  | _ => exact absurd rfl hne

/-! ### ACFG -/

/-- A completion changes ACFG only if it is that of a CONFIG. -/
theorem completion_acfg_cases (i : Instr) (s : State) :
    (completion i s).acfg = s.acfg ∨ ∃ r c f4, i = .config r c f4 ∧
      (completion i s).acfg = { rows := BitVec.ofNat 8 r, cols := BitVec.ofNat 8 c, f4 := f4 } := by
  cases i with
  | config r c f4 => exact .inr ⟨r, c, f4, rfl, completion_acfg _ s⟩
  | _ => exact .inl (completion_acfg _ s)

/-- Settles O47, by the cases of a step: the two resets, and the acceptance and the completion of a CONFIG. -/
theorem onlyConfigAndResetChangeAcfg : Obligations.OnlyConfigAndResetChangeAcfg := by
  intro s t hstep hne
  cases step_cases s t hstep with
  | powerOn rest hord => exact .inl ⟨rfl, .inl ⟨rest, hord⟩⟩
  | softReset d rest hord hd => exact .inl ⟨rfl, .inr (.inl ⟨d, rest, hord, hd⟩)⟩
  | accept d rest i hord hd hp =>
    cases i with
    | config r c f4 => exact .inl ⟨rfl, .inr (.inr ⟨d, rest, r, c, f4, hord, hd, hp, rfl⟩)⟩
    | _ => exact absurd rfl hne
  | complete i hturn hp =>
    rcases completion_acfg_cases i s with h | ⟨r, c, f4, rfl, h⟩
    · exact absurd h hne
    · obtain ⟨hpend, hdone, -⟩ := completion_ends (.config r c f4) s
      exact .inr ⟨r, c, f4, s.engineTurn_iff.1 hturn, hp, hpend, hdone, h⟩
  | writeIn => exact absurd (State.writeIn_acfg ..) hne
  | _ => exact absurd rfl hne

/-! ### The flags -/

/-- Settles O48, by the cases of a step: the two resets and the STATUS write are the only ones that clear a flag. -/
theorem flagsAreSticky : Obligations.FlagsAreSticky := by
  intro s t hstep reset
  cases step_cases s t hstep with
  | powerOn rest hord =>
    obtain ⟨hctrl, hstatus, -⟩ := powerOn_registers s
    exact ⟨fun _ _ => .inl ⟨hstatus, hctrl, .inl ⟨rest, hord⟩⟩, fun _ _ => ⟨rfl, .inl ⟨hstatus, hctrl, .inl ⟨rest, hord⟩⟩⟩⟩
  | softReset d rest hord hd =>
    obtain ⟨hctrl, hstatus, -⟩ := softReset_registers s
    exact ⟨fun _ _ => .inl ⟨hstatus, hctrl, .inr ⟨d, rest, hord, hd⟩⟩,
      fun _ _ => ⟨rfl, .inl ⟨hstatus, hctrl, .inr ⟨d, rest, hord, hd⟩⟩⟩⟩
  | clear d rest hord =>
    refine ⟨fun hs ht => .inr ⟨d, rest, hord, ?_⟩, fun hs ht => ?_⟩
    · simpa [hs] using ht
    · have h9 : d.getLsbD 9 = true := by simpa [hs] using ht
      exact ⟨if_pos h9, .inr ⟨d, rest, hord, h9⟩⟩
  | complete i =>
    obtain ⟨-, hdone, herr, -⟩ := completion_ends i s
    exact ⟨fun _ ht => absurd ht (by simp [hdone]), fun hs ht => absurd ht (by simp [herr, hs])⟩
  | _ => exact ⟨fun hs ht => absurd ht (by simp [hs]), fun hs ht => absurd ht (by simp [hs])⟩

end Sys2Proof.Machine
end

section
/-! SUPPORT. What is hidden: T always, the tables while the block is unconfigured (10_state.md R32, R37). -/

namespace Sys2Proof.Machine

/-! ### The hidden part of the state -/

/-- T and the table RAMs: the part of the state that is not always observable. -/
structure Hidden where
  tbuf : List (List Elem)
  cosr : List (List Elem)
  cosc : List (List Elem)
  alphar : List Elem
  alphac : List Elem

/-- The hidden part of a state. -/
def State.hidden (s : State) : Hidden where
  tbuf := s.tbuf
  cosr := s.cosr
  cosc := s.cosc
  alphar := s.alphar
  alphac := s.alphac

/-- `s` with another hidden part. -/
def State.withHidden (h : Hidden) (s : State) : State :=
  { s with tbuf := h.tbuf, cosr := h.cosr, cosc := h.cosc, alphar := h.alphar, alphac := h.alphac }

/-- The hidden part after a host access: a soft reset empties T, and no other access touches it. -/
def Hidden.afterAccess (h : Hidden) (reset : Bool) : Hidden :=
  { h with tbuf := if reset then [] else h.tbuf }

@[simp] theorem State.withHidden_build (h : Hidden) (s : State) : (s.withHidden h).build = s.build := rfl
@[simp] theorem State.withHidden_order (h : Hidden) (s : State) : (s.withHidden h).order = s.order := rfl

theorem State.withHidden_issueTransform (h : Hidden) (i : Instr) (ok : Bool) (s : State) :
    (s.withHidden h).issueTransform i ok = (s.issueTransform i ok).withHidden h := by
  simp only [State.issueTransform, apply_ite (State.withHidden h)]
  rfl

theorem withHidden_issueConfig (h : Hidden) (r c : Nat) (f4 : Bool) (s : State) :
    issueConfig r c f4 (s.withHidden h) = (issueConfig r c f4 s).withHidden h := by
  simp only [issueConfig, apply_ite (State.withHidden h)]
  rfl

/-- The checks of an issue read nothing hidden. -/
theorem withHidden_issue (h : Hidden) (i : Instr) (s : State) : issue i (s.withHidden h) = (issue i s).withHidden h := by
  cases i with
  | config r c f4 => exact withHidden_issueConfig h r c f4 s
  | _ => exact s.withHidden_issueTransform h _ _

theorem State.withHidden_writeIn (h : Hidden) (r c : Nat) (hi : Bool) (d : Word) (s : State) :
    (s.withHidden h).writeIn r c hi d = (s.writeIn r c hi d).withHidden h := by
  unfold State.writeIn
  rw [State.withHidden_build]
  split <;> rfl

/-! ### Host accesses -/

/-- The outcomes `o` from `s` and `o'` from `s` with the hidden part `h` go on alike: to states that differ at most in the
hidden part, which an access has touched in both alike. -/
def Alike (h : Hidden) (s : State) (o o' : Host.Outcome State Fault Refusal) : Prop :=
  ∀ t, o = .next t →
    ∃ reset, t.hidden = s.hidden.afterAccess reset ∧ o' = .next (t.withHidden (h.afterAccess reset))

theorem alike_fault (h : Hidden) (s : State) (r : Fault) (o' : Host.Outcome State Fault Refusal) :
    Alike h s (.fault r) o' := by
  intro t ht
  cases ht

theorem alike_next (h : Hidden) (s t t' : State) (ht : t.hidden = s.hidden) (ht' : t' = t.withHidden h) :
    Alike h s (.next t) (.next t') := by
  intro u hu
  cases hu
  exact ⟨false, ht, congrArg _ ht'⟩

/-- An operation that commutes with every change of the hidden part goes on alike. -/
theorem alike_of_comm (h : Hidden) (s : State) (op : State → State)
    (hop : ∀ h, op (s.withHidden h) = (op s).withHidden h) : Alike h s (.next (op s)) (.next (op (s.withHidden h))) := by
  have hsame : op s = (op s).withHidden s.hidden := hop s.hidden
  exact alike_next h s _ _ (by rw [hsame]; rfl) (hop h)

theorem alike_softReset (h : Hidden) (s : State) : Alike h s (.next s.softReset) (.next (s.withHidden h).softReset) := by
  intro t ht
  cases ht
  exact ⟨true, rfl, rfl⟩

theorem alike_issueWord (h : Hidden) (w : Word) (s : State) (hturn : s.engineTurn = false) :
    Alike h s (issueWord w s) (issueWord w (s.withHidden h)) := by
  unfold issueWord
  cases decode w with
  | cmd i =>
    have hturn' : (s.withHidden h).engineTurn = false := hturn
    simp only [exec_issues i s (by simp [hturn]), exec_issues i (s.withHidden h) (by simp [hturn'])]
    exact alike_of_comm h s (issue i) fun h => withHidden_issue h i s
  | illegal why => exact alike_of_comm h s (fun s => s.reject (if s.busy then .busy else .illegalCmd)) fun _ => rfl

/-- A write reads nothing hidden. -/
theorem alike_writeTarget (h : Hidden) (d : Word) (s : State) (tg : Target) (hturn : s.engineTurn = false) :
    Alike h s (writeTarget d s tg) (writeTarget d (s.withHidden h) tg) := by
  cases tg with
  | cmd => exact alike_issueWord h d s hturn
  | ctrl =>
    simp only [writeTarget]
    cases d.getLsbD 31
    · exact alike_of_comm h s (fun s => (s.setEnables d).respond .written) fun _ => rfl
    · exact alike_softReset h s
  | status => exact alike_of_comm h s (fun s => (s.clearStatus d).respond .written) fun _ => rfl
  | inSlot r c hi =>
    refine alike_of_comm h s (fun s => if s.busy then s.busError else (s.writeIn r c hi d).respond .written) fun h => ?_
    simp only [State.withHidden_writeIn, apply_ite (State.withHidden h)]
    rfl
  | _ => exact alike_of_comm h s State.busError fun _ => rfl

theorem alike_writeAccess (h : Hidden) (width off : Nat) (st : BitVec 4) (d : Word) (s : State)
    (hturn : s.engineTurn = false) :
    Alike h s (writeAccess width off st d s) (writeAccess width off st d (s.withHidden h)) := by
  unfold writeAccess
  split
  · exact alike_writeTarget h d s _ hturn
  · exact alike_of_comm h s State.busError fun _ => rfl

/-- The hidden part `h` reads like that of `s`: every register and window gives the same data. -/
def ReadsAlike (h : Hidden) (s : State) : Prop := ∀ tg, (s.withHidden h).readTarget tg = s.readTarget tg

theorem withHidden_readAccess (h : Hidden) (width off : Nat) (s : State) (hr : ReadsAlike h s) :
    readAccess width off (s.withHidden h) = (readAccess width off s).withHidden h := by
  simp only [readAccess, State.withHidden_build, hr (target s.build.nmax off)]
  split
  · cases s.readTarget (target s.build.nmax off) <;> rfl
  · rfl

theorem hidden_readAccess (width off : Nat) (s : State) : (readAccess width off s).hidden = s.hidden := by
  obtain ⟨r, hr⟩ := readAccess_eq width off s
  rw [hr]
  rfl

theorem alike_hostAccess (h : Hidden) (a : Access) (s : State) (hr : ReadsAlike h s) (hturn : s.engineTurn = false) :
    Alike h s (hostAccess a s) (hostAccess a (s.withHidden h)) := by
  cases a with
  | read addr width =>
    cases hw : inWindow s.build addr <;>
      simp only [hostAccess, State.withHidden_build, hw, if_true, if_false, Bool.false_eq_true]
    · exact alike_fault h s _ _
    · exact alike_next h s _ _ (hidden_readAccess width _ s) (withHidden_readAccess h width _ s hr)
  | write addr width st d =>
    cases hw : inWindow s.build addr <;>
      simp only [hostAccess, State.withHidden_build, hw, if_true, if_false, Bool.false_eq_true]
    · exact alike_fault h s _ _
    · exact alike_writeAccess h _ _ _ _ s hturn

/-! ### Steps -/

theorem step_completes (i : Instr) (s : State) (hturn : s.engineTurn = true) (hp : s.pend = some i) :
    step s = .next (completion i s) := by
  rw [← exec_completes i s hturn hp]
  rcases s.engineTurn_iff.1 hturn with ho | ⟨rest, ho⟩ <;> simp only [step, ho, engineStep, hp]

theorem step_skips (s : State) (hturn : s.engineTurn = true) (hp : s.pend = none) :
    step s = .next (if s.order = [] then s else s.advance) := by
  rcases s.engineTurn_iff.1 hturn with ho | ⟨rest, ho⟩ <;> simp [step, ho, engineStep, hp]

/-- A step from `s` and one from `s` with a hidden part that reads alike: both are a power-on reset, both complete the same
command, or neither completes one and they go on alike. -/
theorem step_withHidden_cases (h : Hidden) (s t : State) (hr : ReadsAlike h s) (hstep : step s = .next t) :
    step (s.withHidden h) = .next t ∨
    (∃ i, s.pend = some i ∧ t = completion i s ∧ step (s.withHidden h) = .next (completion i (s.withHidden h))) ∨
    ((s.engineTurn = true → s.pend = none) ∧
      ∃ reset, t.hidden = s.hidden.afterAccess reset ∧ step (s.withHidden h) = .next (t.withHidden (h.afterAccess reset))) := by
  cases hturn : s.engineTurn with
  | true =>
    refine .inr ?_
    cases hp : s.pend with
    | some i =>
      have ht := (step_completes i s hturn hp).symm.trans hstep
      cases ht
      exact .inl ⟨i, rfl, rfl, step_completes i (s.withHidden h) hturn hp⟩
    | none =>
      have hskip := alike_of_comm h s (fun s => if s.order = [] then s else s.advance) fun h => by
        simp only [apply_ite (State.withHidden h)]
        rfl
      rw [← step_skips s hturn hp, ← step_skips (s.withHidden h) hturn hp] at hskip
      exact .inr ⟨fun _ => rfl, hskip t hstep⟩
  | false =>
    cases ho : s.order with
    | nil => simp [State.engineTurn, ho] at hturn
    | cons e rest =>
      simp only [step, State.withHidden_order, ho] at hstep ⊢
      cases e with
      | engine => simp [State.engineTurn, ho] at hturn
      | powerOn => exact .inl hstep
      | access a => exact .inr (.inr ⟨nofun, alike_hostAccess h a s hr hturn t hstep⟩)

/-- A step that is no completion does not configure the block. -/
theorem step_keeps_unconfigured (s t : State) (hstep : step s = .next t) (hn : s.engineTurn = true → s.pend = none)
    (hu : s.acfg.rows = 0) : t.acfg.rows = 0 := by
  cases step_cases s t hstep with
  | complete i hturn hp => rw [hn hturn] at hp; cases hp
  | powerOn => rfl
  | softReset => rfl
  | accept _ _ i =>
    rw [State.accept_acfg]
    split
    · rfl
    · exact hu
  | writeIn d _ r c hi => rw [State.respond_acfg, State.writeIn_acfg]; exact hu
  | _ => exact hu

/-- No read returns anything of T. -/
theorem readsAlike_tbuf (s : State) (x : List (List Elem)) : ReadsAlike { s.hidden with tbuf := x } s := by
  intro tg
  cases tg <;> rfl

/-- While unconfigured no read returns anything of the tables: their active regions are empty (R53, R54). -/
theorem readsAlike_unconfigured (h : Hidden) (s : State) (hu : s.configured = false) : ReadsAlike h s := by
  intro tg
  have hactive (n x u : Nat) : s.active n x u = false := by simp [State.active, hu]
  have hactive' : (s.withHidden h).active = s.active := rfl
  cases tg with
  | cosrSlot | coscSlot | alpharSlot | alphacSlot =>
    simp only [State.readTarget, hactive, hactive']
    rfl
  | _ => rfl

/-- A completion reads nothing of T that it has not written. -/
theorem completion_hides_tbuf (i : Instr) (s : State) (x : List (List Elem)) :
    ∃ y, completion i { s with tbuf := x } = { completion i s with tbuf := y } := by
  cases i with
  | config r c f4 => cases f4 <;> exact ⟨x, rfl⟩
  | _ => exact ⟨_, rfl⟩

/-- The completion of a CONFIG overwrites every table. -/
theorem completion_overwrites_tables (i : Instr) (s : State) (cr cc : List (List Elem)) (ar ac : List Elem)
    (hi : i.isConfig = true) :
    completion i { s with cosr := cr, cosc := cc, alphar := ar, alphac := ac } = completion i s := by
  cases i with
  | config r c f4 => cases f4 <;> rfl
  | _ => cases hi

/-! ### The obligations -/

/-- Settles O49: an access touches T at most to empty it, and a completion reads T only where it has just written it. -/
theorem intermediateBufferIsHidden : Obligations.IntermediateBufferIsHidden := by
  intro s t x hstep
  rcases step_withHidden_cases { s.hidden with tbuf := x } s t (readsAlike_tbuf s x) hstep with
    h | ⟨i, -, rfl, h⟩ | ⟨-, reset, ht, h⟩
  · exact ⟨t.tbuf, h⟩
  · obtain ⟨y, hy⟩ := completion_hides_tbuf i s x
    exact ⟨y, h.trans (congrArg _ hy)⟩
  · refine ⟨if reset then [] else x, h.trans (congrArg _ ?_)⟩
    change t.withHidden { s.hidden.afterAccess reset with tbuf := if reset then [] else x } = _
    rw [← ht]
    rfl

/-- Settles O50: while unconfigured an access reads and writes no table, and only a CONFIG can be pending (the
invariant), whose completion overwrites them all. -/
theorem tablesAreHiddenWhileUnconfigured : Obligations.TablesAreHiddenWhileUnconfigured := by
  intro s t cr cc ar ac hs hu hstep
  have huc : s.configured = false := by simp [State.configured, hu]
  rcases step_withHidden_cases ⟨s.tbuf, cr, cc, ar, ac⟩ s t (readsAlike_unconfigured _ s huc) hstep with
    h | ⟨i, hp, rfl, h⟩ | ⟨hn, reset, ht, h⟩
  · exact ⟨t.cosr, t.cosc, t.alphar, t.alphac, h, fun _ => ⟨rfl, rfl, rfl, rfl⟩⟩
  · have hi := s.isConfig_of_pendLegal i hp hs.pend huc
    exact ⟨_, _, _, _, h.trans (congrArg _ (completion_overwrites_tables i s cr cc ar ac hi)), fun _ => ⟨rfl, rfl, rfl, rfl⟩⟩
  · have htbuf : t.tbuf = if reset then [] else s.tbuf := congrArg Hidden.tbuf ht
    refine ⟨cr, cc, ar, ac, h.trans (congrArg _ ?_), fun hc => absurd (step_keeps_unconfigured s t hstep hn hu) hc⟩
    change t.withHidden ⟨if reset then [] else s.tbuf, cr, cc, ar, ac⟩ = _
    rw [← htbuf]
    rfl

end Sys2Proof.Machine
end

section
/-! SUPPORT. The registers as the host reads and writes them (10_state.md R19 to R27, R38). -/

namespace Sys2Proof.Machine

/-! ### A step that is a register access -/

theorem target_register (nmax off : Nat) (h : off < 0x100) : target nmax off = registerTarget off := if_pos h

/-- A 32-bit read at an aligned register offset returns the register, and only the access is over. -/
theorem step_readRegister (s : State) (off : Nat) (rest : List Event) (w : Word) (h4 : off % 4 = 0) (h : off < 0x100)
    (ho : s.order = .access (.read (s.build.base + off) 32) :: rest) (hw : s.readTarget (registerTarget off) = some w) :
    step s = .next { s with order := rest, seq := s.seq + 1, resp := some (.data w) } := by
  rw [step_read s off 32 rest (by omega) ho, readAccess, if_pos ((formOk_iff 32 off).2 ⟨rfl, h4⟩), target_register _ _ h, hw]
  simp only [State.respond, State.advance, ho, List.tail_cons]

/-- A 32-bit write with all strobes at an aligned register offset is a write to that register. -/
theorem step_writeRegister (s : State) (off : Nat) (d : Word) (rest : List Event) (h4 : off % 4 = 0) (h : off < 0x100)
    (ho : s.order = .access (.write (s.build.base + off) 32 0xF d) :: rest) :
    step s = writeTarget d s (registerTarget off) := by
  rw [step_write s off 32 0xF d rest (by omega) ho, writeAccess, (formOk_iff 32 off).2 ⟨rfl, h4⟩, target_register _ _ h]
  rfl

/-! ### The fields of the register words

Each proof first picks, for a field at fixed bit positions, the one part of the register word that it lies in. -/

theorem capValue_fields (b : Build) (hb : b.nmax < 256) :
    (capValue b).getLsbD 0 = decide (b.fmt = .binary64) ∧ (capValue b).extractLsb' 1 7 = 0 ∧
    ((capValue b).extractLsb' 8 8).toNat = b.nmax ∧ (capValue b).getLsbD 16 = true ∧
    (capValue b).extractLsb' 17 7 = 0 ∧ (capValue b).extractLsb' 24 8 = 1 := by
  simp (disch := decide) only [capValue, BitVec.extractLsb'_append_eq_of_le, BitVec.extractLsb'_append_eq_of_add_le,
    BitVec.getLsbD_append]
  simp [Nat.mod_eq_of_lt hb]

theorem State.ctrlValue_fields (s : State) :
    s.ctrlValue.getLsbD 0 = s.doneIE ∧ s.ctrlValue.getLsbD 1 = s.errIE ∧ s.ctrlValue.extractLsb' 2 30 = 0 := by
  simp (disch := decide) only [State.ctrlValue, BitVec.extractLsb'_append_eq_of_le, BitVec.getLsbD_append]
  simp

theorem State.acfgValue_fields (s : State) :
    s.acfgValue.extractLsb' 0 8 = 0 ∧ s.acfgValue.extractLsb' 8 8 = s.acfg.rows ∧
    s.acfgValue.extractLsb' 16 8 = s.acfg.cols ∧ s.acfgValue.getLsbD 24 = s.acfg.f4 ∧
    s.acfgValue.extractLsb' 25 7 = 0 := by
  simp (disch := decide) only [State.acfgValue, BitVec.extractLsb'_append_eq_of_le, BitVec.extractLsb'_append_eq_of_add_le,
    BitVec.getLsbD_append]
  simp

theorem State.statusValue_fields (s : State) :
    s.statusValue.getLsbD 0 = s.pend.isSome ∧ s.statusValue.getLsbD 1 = decide (s.acfg.rows ≠ 0) ∧
    s.statusValue.extractLsb' 2 6 = 0 ∧ s.statusValue.getLsbD 8 = s.done ∧ s.statusValue.getLsbD 9 = s.err ∧
    s.statusValue.extractLsb' 10 2 = 0 ∧ s.statusValue.extractLsb' 12 4 = s.errcode.bits ∧
    s.statusValue.extractLsb' 16 16 = 0 := by
  simp (disch := decide) only [State.statusValue, BitVec.extractLsb'_append_eq_of_le,
    BitVec.extractLsb'_append_eq_of_add_le, BitVec.getLsbD_append]
  simp [State.busy, State.configured]

/-! ### The obligations -/

/-- Settles O5: the write reaches CMD, and decoding picks the command. -/
theorem stepRunsTheIssuedCommand : Obligations.StepRunsTheIssuedCommand := by
  intro s w i rest ho hd
  rw [step_writeRegister s 0x014 w rest rfl (by decide) ho]
  simp only [registerTarget, writeTarget, issueWord, hd]

/-- Settles O32: the write reaches STATUS, in every state. -/
theorem statusWriteClearsFlags : Obligations.StatusWriteClearsFlags := by
  intro s d rest ho
  rw [step_writeRegister s 0x00C d rest rfl (by decide) ho]
  simp only [registerTarget, writeTarget, State.clearStatus, State.respond, State.advance, ho, List.tail_cons]
  cases d.getLsbD 8 <;> cases d.getLsbD 9 <;> simp

/-- Settles O33: the write reaches CTRL and carries no SRST. -/
theorem controlWriteSetsEnables : Obligations.ControlWriteSetsEnables := by
  intro s d rest ho hd
  rw [step_writeRegister s 0x008 d rest rfl (by decide) ho]
  simp only [registerTarget, writeTarget, hd, State.setEnables, State.respond, State.advance, ho, List.tail_cons,
    Bool.false_eq_true, if_false]

/-- Settles O38, from the fields of STATUS and CTRL. -/
theorem irqFollowsStatusAndControl : Obligations.IrqFollowsStatusAndControl := by
  intro s
  obtain ⟨hdoneIE, herrIE, -⟩ := s.ctrlValue_fields
  obtain ⟨-, -, -, hdone, herr, -⟩ := s.statusValue_fields
  rw [hdoneIE, herrIE, hdone, herr]
  rfl

/-- Settles O30, register by register; CAP's NMAX field holds any legal NMAX (R8). -/
theorem constantRegistersRead : Obligations.ConstantRegistersRead := by
  intro s off rest hb ho
  refine ⟨?_, ?_, ?_⟩ <;> rintro rfl
  · exact step_readRegister s 0x000 rest _ rfl (by decide) ho rfl
  · have hn : s.build.nmax < 256 := Nat.lt_of_le_of_lt (nmax_of_ok _ hb).2 (by decide)
    exact ⟨_, step_readRegister s 0x004 rest _ rfl (by decide) ho rfl, capValue_fields s.build hn⟩
  · exact step_readRegister s 0x014 rest _ rfl (by decide) ho rfl

/-- Settles O31, register by register, from the fields of each. -/
theorem stateRegistersRead : Obligations.StateRegistersRead := by
  intro s off rest ho hoff
  rcases hoff with rfl | rfl | rfl
  · exact ⟨_, step_readRegister s 0x008 rest _ rfl (by decide) ho rfl, fun _ => s.ctrlValue_fields, nofun, nofun⟩
  · obtain ⟨h0, h1, h2, h8, h9, h10, h12, h16⟩ := s.statusValue_fields
    refine ⟨_, step_readRegister s 0x00C rest _ rfl (by decide) ho rfl, nofun, fun _ => ?_, nofun⟩
    exact ⟨h0, h1, h2, h8, h9, h10, by rw [h12]; cases s.errcode <;> rfl, h16⟩
  · exact ⟨_, step_readRegister s 0x010 rest _ rfl (by decide) ho rfl, nofun, nofun, fun _ => s.acfgValue_fields⟩

end Sys2Proof.Machine
end

section
/-! SUPPORT. The slots of the windows: where each stands, and the words of a slot, read and written (20_memory.md R43 to R51). -/

namespace Sys2Proof.Machine

/-! ### Outcomes of a step -/

/-- An access the block does not decode is the machine's fault. -/
theorem hostAccess_of_not_decoded (a : Access) (s : State) (h : Event.decoded s.build (.access a) = false) :
    hostAccess a s = .fault .outsideWindow := by
  cases a with
  | read addr width => exact if_neg (Bool.eq_false_iff.1 h)
  | write addr width strobes d => exact if_neg (Bool.eq_false_iff.1 h)

/-- A step goes on, or it stops at an access outside the window. -/
theorem step_outcome (s : State) :
    (∃ t, step s = .next t) ∨
    (step s = .fault .outsideWindow ∧
      ∃ a rest, s.order = .access a :: rest ∧ Event.decoded s.build (.access a) = false) := by
  cases hturn : s.engineTurn with
  | true =>
    cases hp : s.pend with
    | some i => exact .inl ⟨_, step_completes i s hturn hp⟩
    | none => exact .inl ⟨_, step_skips s hturn hp⟩
  | false =>
    cases ho : s.order with
    | nil => simp [State.engineTurn, ho] at hturn
    | cons e rest =>
      simp only [step, ho]
      cases e with
      | engine => simp [State.engineTurn, ho] at hturn
      | powerOn => exact .inl ⟨_, rfl⟩
      | access a => exact (hostAccess_outcome a s).imp id fun ⟨hf, hd⟩ => ⟨hf, a, rest, rfl, hd⟩

/-! ### The address map on slots -/

theorem target_inRegion (nmax off : Nat) (h : inBase ≤ off) (h' : off < inBase + 0x8000) :
    target nmax off = matrixTarget nmax off .inSlot := by
  unfold inBase at h h'
  simp (disch := omega) only [target, if_neg, if_pos]

theorem target_outRegion (nmax off : Nat) (h : outBase ≤ off) (h' : off < outBase + 0x8000) :
    target nmax off = matrixTarget nmax off .outSlot := by
  unfold outBase at h h'
  simp (disch := omega) only [target, if_neg, if_pos]

theorem target_cosrRegion (nmax off : Nat) (h : cosrBase ≤ off) (h' : off < cosrBase + 0x8000) :
    target nmax off = matrixTarget nmax off .cosrSlot := by
  unfold cosrBase at h h'
  simp (disch := omega) only [target, if_neg, if_pos]

theorem target_coscRegion (nmax off : Nat) (h : coscBase ≤ off) (h' : off < coscBase + 0x8000) :
    target nmax off = matrixTarget nmax off .coscSlot := by
  unfold coscBase at h h'
  simp (disch := omega) only [target, if_neg, if_pos]

theorem target_alpharRegion (nmax off : Nat) (h : alpharBase ≤ off) (h' : off < alpharBase + 0x200) :
    target nmax off = vectorTarget nmax off .alpharSlot := by
  unfold alpharBase at h h'
  simp (disch := omega) only [target, if_neg, if_pos]

theorem target_alphacRegion (nmax off : Nat) (h : alphacBase ≤ off) (h' : off < alphacBase + 0x200) :
    target nmax off = vectorTarget nmax off .alphacSlot := by
  unfold alphacBase at h h'
  simp (disch := omega) only [target, if_neg, if_pos]

/-- The first offset of word `hi` of the slot at `slot` (R47). -/
def slotWordOffset (slot : Nat) (hi : Bool) : Nat := slot + if hi then 4 else 0

theorem slotHi_slotWordOffset (slot : Nat) (hi : Bool) (h8 : slot % 8 = 0) : slotHi (slotWordOffset slot hi) = hi := by
  cases hi <;> simp [slotHi, slotWordOffset] <;> omega

theorem slotWordOffset_bounds (slot : Nat) (hi : Bool) :
    slot ≤ slotWordOffset slot hi ∧ slotWordOffset slot hi ≤ slot + 4 := by
  cases hi <;> simp [slotWordOffset]

/-- In a window of matrix slots, slot (r, c) is the one of its indices, if it is backed (R47, R48). -/
theorem target_matrixSlot (nmax base r c : Nat) (hi : Bool) (mk : Nat → Nat → Bool → Target)
    (hwin : ∀ off, base ≤ off → off < base + 0x8000 → target nmax off = matrixTarget nmax off mk)
    (hbase : base % 0x8000 = 0) (hr : r < 64) (hc : c < 64) :
    target nmax (slotWordOffset (matrixSlot base r c) hi) = if r < nmax ∧ c < nmax then mk r c hi else .reserved := by
  obtain ⟨hlo, hhi⟩ := slotWordOffset_bounds (matrixSlot base r c) hi
  have h8 : matrixSlot base r c % 8 = 0 := by unfold matrixSlot; omega
  have hslot := slotHi_slotWordOffset (matrixSlot base r c) hi h8
  generalize slotWordOffset (matrixSlot base r c) hi = off at hlo hhi hslot ⊢
  unfold matrixSlot at hlo hhi
  have hrow : slotRow off = r := by unfold slotRow; omega
  have hcol : slotCol off = c := by unfold slotCol; omega
  rw [hwin off (by omega) (by omega), matrixTarget, hrow, hcol, hslot]

/-- In a window of vector slots, slot u is the one of its index, if it is backed (R47, R48). -/
theorem target_vectorSlot (nmax base u : Nat) (hi : Bool) (mk : Nat → Bool → Target)
    (hwin : ∀ off, base ≤ off → off < base + 0x200 → target nmax off = vectorTarget nmax off mk)
    (hbase : base % 0x200 = 0) (hu : u < 64) :
    target nmax (slotWordOffset (vectorSlot base u) hi) = if u < nmax then mk u hi else .reserved := by
  obtain ⟨hlo, hhi⟩ := slotWordOffset_bounds (vectorSlot base u) hi
  have h8 : vectorSlot base u % 8 = 0 := by unfold vectorSlot; omega
  have hslot := slotHi_slotWordOffset (vectorSlot base u) hi h8
  generalize slotWordOffset (vectorSlot base u) hi = off at hlo hhi hslot ⊢
  unfold vectorSlot at hlo hhi
  have hcol : slotCol off = u := by unfold slotCol; omega
  rw [hwin off (by omega) (by omega), vectorTarget, hcol, hslot]

section
variable (nmax r c : Nat) (hi : Bool) (hr : r < 64) (hc : c < 64)
include hr hc

theorem target_inSlot : target nmax (slotWordOffset (matrixSlot inBase r c) hi) =
    if r < nmax ∧ c < nmax then .inSlot r c hi else .reserved :=
  target_matrixSlot nmax inBase r c hi _ (target_inRegion nmax) rfl hr hc

theorem target_outSlot : target nmax (slotWordOffset (matrixSlot outBase r c) hi) =
    if r < nmax ∧ c < nmax then .outSlot r c hi else .reserved :=
  target_matrixSlot nmax outBase r c hi _ (target_outRegion nmax) rfl hr hc

theorem target_cosrSlot : target nmax (slotWordOffset (matrixSlot cosrBase r c) hi) =
    if r < nmax ∧ c < nmax then .cosrSlot r c hi else .reserved :=
  target_matrixSlot nmax cosrBase r c hi _ (target_cosrRegion nmax) rfl hr hc

theorem target_coscSlot : target nmax (slotWordOffset (matrixSlot coscBase r c) hi) =
    if r < nmax ∧ c < nmax then .coscSlot r c hi else .reserved :=
  target_matrixSlot nmax coscBase r c hi _ (target_coscRegion nmax) rfl hr hc

end

theorem target_alpharSlot (nmax u : Nat) (hi : Bool) (hu : u < 64) :
    target nmax (slotWordOffset (vectorSlot alpharBase u) hi) = if u < nmax then .alpharSlot u hi else .reserved :=
  target_vectorSlot nmax alpharBase u hi _ (target_alpharRegion nmax) rfl hu

theorem target_alphacSlot (nmax u : Nat) (hi : Bool) (hu : u < 64) :
    target nmax (slotWordOffset (vectorSlot alphacBase u) hi) = if u < nmax then .alphacSlot u hi else .reserved :=
  target_vectorSlot nmax alphacBase u hi _ (target_alphacRegion nmax) rfl hu

/-! ### A step that is a host access to a target -/

theorem State.respond_eq (s : State) (r : BusResp) (e : Event) (rest : List Event) (ho : s.order = e :: rest) :
    s.respond r = { s with order := rest, seq := s.seq + 1, resp := some r } := by
  simp only [State.respond, State.advance, ho, List.tail_cons]

/-- What a read that a target may refuse is answered with. -/
def BusResp.ofRead (data : Option Word) : BusResp := data.elim .error .data

/-- The response to a read (60_exceptions.md R129, R130). -/
def State.readResponse (s : State) (width off : Nat) : BusResp :=
  if formOk width off then .ofRead (s.readTarget (target s.build.nmax off)) else .error

theorem readAccess_eq_respond (width off : Nat) (s : State) :
    readAccess width off s = s.respond (s.readResponse width off) := by
  unfold readAccess State.readResponse
  split
  · cases s.readTarget (target s.build.nmax off) <;> rfl
  · rfl

/-- A read in the window: only the access is over, with its response. -/
theorem step_readResponse (s : State) (off width : Nat) (rest : List Event) (h : off < 0x40000)
    (ho : s.order = .access (.read (s.build.base + off) width) :: rest) :
    step s = .next { s with order := rest, seq := s.seq + 1, resp := some (s.readResponse width off) } := by
  rw [step_read s off width rest h ho, readAccess_eq_respond, s.respond_eq _ _ rest ho]

/-- A 32-bit read at the aligned offset of a target is answered with the target's data. -/
theorem step_readTarget (s : State) (off : Nat) (tg : Target) (rest : List Event) (h4 : off % 4 = 0) (h : off < 0x40000)
    (ht : target s.build.nmax off = tg) (ho : s.order = .access (.read (s.build.base + off) 32) :: rest) :
    step s = .next { s with order := rest, seq := s.seq + 1, resp := some (.ofRead (s.readTarget tg)) } := by
  rw [step_readResponse s off 32 rest h ho, State.readResponse, if_pos ((formOk_iff 32 off).2 ⟨rfl, h4⟩), ht]

/-- A 32-bit write with all strobes at the aligned offset of a target is a write to it. -/
theorem step_writeTarget (s : State) (off : Nat) (d : Word) (tg : Target) (rest : List Event) (h4 : off % 4 = 0)
    (h : off < 0x40000) (ht : target s.build.nmax off = tg)
    (ho : s.order = .access (.write (s.build.base + off) 32 0xF d) :: rest) : step s = writeTarget d s tg := by
  rw [step_write s off 32 0xF d rest h ho, writeAccess, (formOk_iff 32 off).2 ⟨rfl, h4⟩, ht]
  rfl

/-- A word of a slot is aligned, and in the block's window. -/
theorem matrixWord_bounds (base r c : Nat) (hi : Bool) (hbase : base % 4 = 0) (hle : base ≤ 0x38000) (hr : r < 64)
    (hc : c < 64) :
    slotWordOffset (matrixSlot base r c) hi % 4 = 0 ∧ slotWordOffset (matrixSlot base r c) hi < 0x40000 := by
  cases hi <;> simp only [slotWordOffset, matrixSlot, if_true, if_false, Bool.false_eq_true] <;> omega

theorem vectorWord_bounds (base u : Nat) (hi : Bool) (hbase : base % 4 = 0) (hle : base ≤ 0x38000) (hu : u < 64) :
    slotWordOffset (vectorSlot base u) hi % 4 = 0 ∧ slotWordOffset (vectorSlot base u) hi < 0x40000 := by
  cases hi <;> simp only [slotWordOffset, vectorSlot, if_true, if_false, Bool.false_eq_true] <;> omega

/-- A read of a word of a backed matrix slot is answered with the slot's data. -/
theorem step_readMatrixSlot (s : State) (base r c : Nat) (hi : Bool) (mk : Nat → Nat → Bool → Target) (rest : List Event)
    (hwin : ∀ off, base ≤ off → off < base + 0x8000 → target s.build.nmax off = matrixTarget s.build.nmax off mk)
    (hbase : base % 0x8000 = 0) (hle : base ≤ 0x38000) (hn : s.build.nmax ≤ 64) (hr : r < s.build.nmax)
    (hc : c < s.build.nmax)
    (ho : s.order = .access (.read (s.build.base + slotWordOffset (matrixSlot base r c) hi) 32) :: rest) :
    step s = .next { s with
      order := rest, seq := s.seq + 1, resp := some (.ofRead (s.readTarget (mk r c hi))) } := by
  have hr64 : r < 64 := Nat.lt_of_lt_of_le hr hn
  have hc64 : c < 64 := Nat.lt_of_lt_of_le hc hn
  obtain ⟨h4, h⟩ := matrixWord_bounds base r c hi (by omega) hle hr64 hc64
  have ht := target_matrixSlot s.build.nmax base r c hi mk hwin hbase hr64 hc64
  exact step_readTarget s _ _ rest h4 h (ht.trans (if_pos ⟨hr, hc⟩)) ho

/-- A read of a word of a backed vector slot is answered with the slot's data. -/
theorem step_readVectorSlot (s : State) (base u : Nat) (hi : Bool) (mk : Nat → Bool → Target) (rest : List Event)
    (hwin : ∀ off, base ≤ off → off < base + 0x200 → target s.build.nmax off = vectorTarget s.build.nmax off mk)
    (hbase : base % 0x200 = 0) (hle : base ≤ 0x38000) (hn : s.build.nmax ≤ 64) (hu : u < s.build.nmax)
    (ho : s.order = .access (.read (s.build.base + slotWordOffset (vectorSlot base u) hi) 32) :: rest) :
    step s = .next { s with
      order := rest, seq := s.seq + 1, resp := some (.ofRead (s.readTarget (mk u hi))) } := by
  have hu64 : u < 64 := Nat.lt_of_lt_of_le hu hn
  obtain ⟨h4, h⟩ := vectorWord_bounds base u hi (by omega) hle hu64
  have ht := target_vectorSlot s.build.nmax base u hi mk hwin hbase hu64
  exact step_readTarget s _ _ rest h4 h (ht.trans (if_pos hu)) ho

/-! ### The words of a slot -/

/-- A word's byte lanes are the bytes it is made of (R49). -/
theorem extract_ofLanes (b0 b1 b2 b3 : Byte) :
    (Word.ofLanes b0 b1 b2 b3).extractLsb' 0 8 = b0 ∧ (Word.ofLanes b0 b1 b2 b3).extractLsb' 8 8 = b1 ∧
    (Word.ofLanes b0 b1 b2 b3).extractLsb' 16 8 = b2 ∧ (Word.ofLanes b0 b1 b2 b3).extractLsb' 24 8 = b3 := by
  simp (disch := decide) only [Word.ofLanes, BitVec.extractLsb'_append_eq_of_le, BitVec.extractLsb'_append_eq_of_add_le]
  simp

theorem State.lane_wordAt (s : State) (n off k : Nat) (hk : k < 4) :
    (s.wordAt n off).extractLsb' (8 * k) 8 = s.byteAt (4 * n + k) (off + k) := by
  obtain ⟨h0, h1, h2, h3⟩ := extract_ofLanes (s.byteAt (4 * n) off) (s.byteAt (4 * n + 1) (off + 1))
    (s.byteAt (4 * n + 2) (off + 2)) (s.byteAt (4 * n + 3) (off + 3))
  match k, hk with
  | 0, _ => exact h0
  | 1, _ => exact h1
  | 2, _ => exact h2
  | 3, _ => exact h3

/-- A word of a slot is the one stored there; the high word of a binary32 slot is not stored, and reads 0 (R50). -/
theorem State.slotWord_eq (s : State) (slot : Nat) (hi : Bool) :
    s.slotWord slot hi = if s.build.fmt = .binary32 ∧ hi = true then 0 else s.wordAt 0 (slotWordOffset slot hi) := by
  cases hf : s.build.fmt <;> cases hi <;> simp [State.slotWord, hf, slotWordOffset]

/-- Byte lane `k` of a word of a slot is its byte `k`, a free value if it is unspecified (R41, R49, R50). -/
theorem State.lane_slotWord (s : State) (slot : Nat) (hi : Bool) (k : Nat) (hk : k < 4) :
    (s.slotWord slot hi).extractLsb' (8 * k) 8 =
      if s.build.fmt = .binary32 ∧ hi = true then 0 else s.byteAt k (slotWordOffset slot hi + k) := by
  rw [s.slotWord_eq]
  split
  · simp
  · rw [s.lane_wordAt 0 _ k hk, Nat.mul_zero, Nat.zero_add]

/-- A write to word `hi` of an IN slot stores that word; in binary32 one to word 1 is ignored (R50, R51). -/
theorem State.writeIn_eq (s : State) (r c : Nat) (hi : Bool) (d : Word) :
    s.writeIn r c hi d = if s.build.fmt = .binary32 ∧ hi = true then s
      else { s with mem := s.mem.storeWord (slotWordOffset (matrixSlot inBase r c) hi) d } := by
  cases hf : s.build.fmt <;> cases hi <;> simp [State.writeIn, hf, slotWordOffset]

/-- A stored word holds its byte lanes, little-endian (R49). -/
theorem Memory.load_storeWord_inside (m : Memory) (off : Nat) (d : Word) (k : Nat) (hk : k < 4) :
    (m.storeWord off d).load (off + k) = some (d.lane k) := by
  rw [Memory.storeWord, Memory.load_store_inside _ _ _ _ hk]
  match k, hk with
  | 0, _ | 1, _ | 2, _ | 3, _ => rfl

theorem Memory.load_storeWord_outside (m : Memory) (off : Nat) (d : Word) (a : Nat) (h : a < off ∨ off + 4 ≤ a) :
    (m.storeWord off d).load a = m.load a :=
  m.load_store_outside off _ a h

end Sys2Proof.Machine
end

section
/-! SUPPORT. Accesses to the buffers and the tables: what the answer to a read depends on, and the obligations (20_memory.md
R47 to R56). -/

namespace Sys2Proof.Machine

/-! ### What a read depends on -/

/-- A stored byte is read alike in two states with the same memory. -/
theorem State.byteAt_congr (s t : State) (n off : Nat) (hm : t.mem = s.mem) (h : s.mem.load off ≠ none) :
    t.byteAt n off = s.byteAt n off := by
  obtain ⟨b, hb⟩ := Option.ne_none_iff_exists'.1 h
  rw [s.byteAt_of_load n off b hb, t.byteAt_of_load n off b (hm ▸ hb)]

/-- A word of a slot is read alike in two states with the same memory and format, if the bytes stored of it are
specified. -/
theorem State.slotWord_congr (s t : State) (slot : Nat) (hi : Bool) (hf : t.build = s.build) (hm : t.mem = s.mem)
    (h : ¬ (s.build.fmt = .binary32 ∧ hi = true) → ∀ k, k < 4 → s.mem.load (slotWordOffset slot hi + k) ≠ none) :
    t.slotWord slot hi = s.slotWord slot hi := by
  rw [s.slotWord_eq, t.slotWord_eq, hf]
  split
  · rfl
  · rename_i hstored
    have hb n k (hk : k < 4) := s.byteAt_congr t n _ hm (h hstored k hk)
    have hb0 : t.byteAt (4 * 0) (slotWordOffset slot hi) = s.byteAt (4 * 0) (slotWordOffset slot hi) := hb _ 0 (by decide)
    simp only [State.wordAt, hb0, hb _ 1, hb _ 2, hb _ 3, Nat.reduceLT]

/-- The stored bytes of a word of a backed IN or OUT slot are buffer bytes (R47 to R50). -/
theorem bufferByte_slotWord (b : Build) (off k : Nat) (hlo : inBase ≤ off) (hhi : off < cosrBase) (h4 : off % 4 = 0)
    (hr : slotRow off < b.nmax) (hc : slotCol off < b.nmax) (hstored : ¬ (b.fmt = .binary32 ∧ slotHi off = true))
    (hk : k < 4) : bufferByte b (off + k) = true := by
  have hbytes : off % 8 + k < elemBytes b.fmt := by
    cases hf : b.fmt with
    | binary64 => simp only [elemBytes]; omega
    | binary32 => simp only [hf, slotHi, true_and, decide_eq_true_eq] at hstored; simp only [elemBytes]; omega
  have hrow : slotRow (off + k) = slotRow off := by unfold slotRow; omega
  have hcol : slotCol (off + k) = slotCol off := by unfold slotCol; omega
  simp only [bufferByte, Bool.and_eq_true, decide_eq_true_eq, hrow, hcol]
  simp only [inBase, cosrBase] at hlo hhi ⊢
  omega

/-- Reading the address map backwards on a matrix window (R47). -/
theorem slotWordOffset_fields (base off : Nat) (hbase : base % 0x8000 = 0) (hlo : base ≤ off) (hhi : off < base + 0x8000)
    (h4 : off % 4 = 0) : slotWordOffset (matrixSlot base (slotRow off) (slotCol off)) (slotHi off) = off := by
  simp only [slotWordOffset, matrixSlot, slotRow, slotCol, slotHi, decide_eq_true_eq]
  split <;> omega

/-- A matrix slot that is not reserved is backed (R48, R55). -/
theorem backed_of_not_reserved (nmax off : Nat) (h : ¬ reservedOffset nmax off) (hlo : inBase ≤ off) (hhi : off < alpharBase) :
    slotRow off < nmax ∧ slotCol off < nmax := by
  simp only [reservedOffset, slotRow, slotCol, inBase, alpharBase] at *
  omega

/-- No byte of IN or OUT in the word at `off` is unspecified (10_state.md R41). -/
def State.WordSpecified (s : State) (off : Nat) : Prop :=
  ∀ k, k < 4 → bufferByte s.build (off + k) = true → s.mem.load (off + k) ≠ none

/-- A specified word of a backed IN or OUT slot is read alike in two states with the same memory and format. -/
theorem State.bufferWord_congr (s t : State) (base off : Nat) (hf : t.build = s.build) (hm : t.mem = s.mem)
    (hbase : base = inBase ∨ base = outBase) (hlo : base ≤ off) (hhi : off < base + 0x8000) (h4 : off % 4 = 0)
    (hres : ¬ reservedOffset s.build.nmax off) (hspec : s.WordSpecified off) :
    t.slotWord (matrixSlot base (slotRow off) (slotCol off)) (slotHi off) =
      s.slotWord (matrixSlot base (slotRow off) (slotCol off)) (slotHi off) := by
  have hwin : base % 0x8000 = 0 ∧ inBase ≤ base ∧ base + 0x8000 ≤ cosrBase := by
    rcases hbase with rfl | rfl <;> decide
  obtain ⟨hmod, hin, hcosr⟩ := hwin
  have hoff := slotWordOffset_fields base off hmod hlo hhi h4
  have hbuf : inBase ≤ off ∧ off < cosrBase := by omega
  obtain ⟨hr, hc⟩ := backed_of_not_reserved _ _ hres hbuf.1 (Nat.lt_trans hbuf.2 (by decide))
  refine s.slotWord_congr t _ _ hf hm fun hstored k hk => ?_
  rw [hoff]
  exact hspec k hk (bufferByte_slotWord s.build off k hbuf.1 hbuf.2 h4 hr hc hstored hk)

/-- The data of a read of a specified word does not depend on the accesses to come, the last response and the count of steps
(R56). -/
theorem State.readTarget_congr (s : State) (off : Nat) (o : List Event) (q : Option BusResp) (n : Nat) (h4 : off % 4 = 0)
    (h : off < 0x40000) (hspec : s.WordSpecified off) :
    ({ s with order := o, resp := q, seq := n } : State).readTarget (target s.build.nmax off) =
      s.readTarget (target s.build.nmax off) := by
  have hmap := target_cases s.build.nmax off h4 h
  cases htg : target s.build.nmax off with
  | inSlot r c hi =>
    obtain ⟨hres, hlo, hhi, rfl, rfl, rfl⟩ : ¬ reservedOffset s.build.nmax off ∧ 0x8000 ≤ off ∧ off < 0x10000 ∧
        r = slotRow off ∧ c = slotCol off ∧ hi = slotHi off := by simpa [htg] using hmap
    exact congrArg some (s.bufferWord_congr _ inBase off rfl rfl (.inl rfl) hlo hhi h4 hres hspec)
  | outSlot r c hi =>
    obtain ⟨hres, hlo, hhi, rfl, rfl, rfl⟩ : ¬ reservedOffset s.build.nmax off ∧ 0x10000 ≤ off ∧ off < 0x18000 ∧
        r = slotRow off ∧ c = slotCol off ∧ hi = slotHi off := by simpa [htg] using hmap
    exact congrArg s.unlessBusy (s.bufferWord_congr _ outBase off rfl rfl (.inr rfl) hlo hhi h4 hres hspec)
  | _ => rfl

theorem State.readResponse_congr (s : State) (width off : Nat) (o : List Event) (q : Option BusResp) (n : Nat)
    (h : off < 0x40000) (hspec : width = 32 → off % 4 = 0 → s.WordSpecified off) :
    ({ s with order := o, resp := q, seq := n } : State).readResponse width off = s.readResponse width off := by
  unfold State.readResponse
  split
  · rename_i hform
    obtain ⟨hw, h4⟩ := (formOk_iff width off).1 hform
    exact congrArg BusResp.ofRead (s.readTarget_congr off o q n h4 h (hspec hw h4))
  · rfl

/-! ### The answers that BUSY decides -/

/-- The answer to a read that depends on BUSY = 0 (R52 to R54). -/
theorem State.ofRead_unlessBusy (s : State) (w : Word) :
    BusResp.ofRead (s.unlessBusy w) = if s.pend ≠ none then .error else .data w := by
  cases hp : s.pend <;> simp [State.unlessBusy, State.busy, hp, BusResp.ofRead]

/-- The answer to a read of a table window (R53, R54). -/
theorem State.ofRead_tableWord (s : State) (n x u : Nat) (e : Elem) (hi : Bool) :
    BusResp.ofRead (s.unlessBusy (tableWord (s.active n x u) e hi)) =
      if s.pend ≠ none then .error
      else if s.acfg.rows ≠ 0 ∧ x < n ∧ u < n then .data (e.extractLsb' (if hi then 32 else 0) 32)
      else .data 0 := by
  have hactive : s.active n x u = decide (s.acfg.rows ≠ 0 ∧ x < n ∧ u < n) := by
    simp [State.active, State.configured, Bool.and_assoc]
  rw [s.ofRead_unlessBusy, tableWord, hactive]
  by_cases h : s.acfg.rows ≠ 0 ∧ x < n ∧ u < n
  · rw [decide_eq_true h, if_pos rfl, if_pos h, Elem.word]
  · rw [decide_eq_false h, if_neg Bool.false_ne_true, if_neg h]

/-! ### The obligations -/

/-- Settles O9, from the outcomes of a step. -/
theorem stepStopsOnlyOutsideTheWindow : Obligations.StepStopsOnlyOutsideTheWindow := by
  intro s
  refine ⟨fun r hr => ?_, fun e => ⟨fun he => ?_, ?_⟩⟩
  · rcases step_outcome s with ⟨t, ht⟩ | ⟨ht, -⟩ <;> cases ht.symm.trans hr
  · rcases step_outcome s with ⟨t, ht⟩ | ⟨ht, hout⟩ <;> cases ht.symm.trans he
    exact ⟨rfl, hout⟩
  · rintro ⟨rfl, a, rest, ho, hd⟩
    simp only [step, ho, hostAccess_of_not_decoded a s hd]

/-- Settles O26, from the target of each window's slots. -/
theorem slotAddressesDecode : Obligations.SlotAddressesDecode := by
  intro nmax r c hi hn
  refine ⟨fun hr hc => ?_, fun hr hc hun => ?_, fun hc hun => ?_⟩
  · have hr64 : r < 64 := Nat.lt_of_lt_of_le hr hn
    have hc64 : c < 64 := Nat.lt_of_lt_of_le hc hn
    exact ⟨(target_inSlot nmax r c hi hr64 hc64).trans (if_pos ⟨hr, hc⟩),
      (target_outSlot nmax r c hi hr64 hc64).trans (if_pos ⟨hr, hc⟩),
      (target_cosrSlot nmax r c hi hr64 hc64).trans (if_pos ⟨hr, hc⟩),
      (target_coscSlot nmax r c hi hr64 hc64).trans (if_pos ⟨hr, hc⟩),
      (target_alpharSlot nmax c hi hc64).trans (if_pos hc), (target_alphacSlot nmax c hi hc64).trans (if_pos hc)⟩
  · have hbacked : ¬ (r < nmax ∧ c < nmax) := by omega
    exact ⟨(target_inSlot nmax r c hi hr hc).trans (if_neg hbacked),
      (target_outSlot nmax r c hi hr hc).trans (if_neg hbacked),
      (target_cosrSlot nmax r c hi hr hc).trans (if_neg hbacked),
      (target_coscSlot nmax r c hi hr hc).trans (if_neg hbacked)⟩
  · have hbacked : ¬ c < nmax := Nat.not_lt.2 hun
    exact ⟨(target_alpharSlot nmax c hi hc).trans (if_neg hbacked), (target_alphacSlot nmax c hi hc).trans (if_neg hbacked)⟩

/-- Settles O29: a read's response is all it leaves, and only an unspecified buffer byte draws on the count of steps. -/
theorem readsHaveNoSideEffect : Obligations.ReadsHaveNoSideEffect := by
  intro s off width rest h ho
  refine ⟨s.readResponse width off, step_readResponse s off width rest h ho, fun hspec rest' q n => ?_⟩
  rw [← s.readResponse_congr width off (.access (.read (s.build.base + off) width) :: rest') q n h hspec]
  exact step_readResponse { s with order := _, resp := q, seq := n } off width rest' h rfl

/-- Settles O35: BUSY decides whether the write is taken, and the word written is what `State.writeIn_eq` says. -/
theorem inWindowWrite : Obligations.InWindowWrite := by
  intro s r c hi d rest hn hr hc off ho
  have hr64 : r < 64 := Nat.lt_of_lt_of_le hr hn
  have hc64 : c < 64 := Nat.lt_of_lt_of_le hc hn
  obtain ⟨h4, h⟩ := matrixWord_bounds inBase r c hi rfl (by decide) hr64 hc64
  have hstep := step_writeTarget s off d _ rest h4 h ((target_inSlot _ r c hi hr64 hc64).trans (if_pos ⟨hr, hc⟩)) ho
  refine ⟨_, hstep, fun hp => ?_, fun hp => ?_⟩
  · have hb : s.busy = true := Option.isSome_iff_ne_none.2 hp
    rw [if_pos hb]
    exact s.respond_eq .error _ rest ho
  · have hb : s.busy = false := by rw [State.busy, hp]; rfl
    simp only [hb, Bool.false_eq_true, if_false, State.respond_mem]
    refine ⟨?_, fun hf hhi => ?_, fun hstored => ?_⟩
    · obtain ⟨m, hm⟩ := s.writeIn_eq_mem r c hi d
      rw [hm]
      exact State.respond_eq { s with mem := m } .written _ rest ho
    · rw [s.writeIn_eq, if_pos ⟨hf, hhi⟩]
    · have hw : ¬ (s.build.fmt = .binary32 ∧ hi = true) := by
        rintro ⟨hf, rfl⟩
        simp [hf] at hstored
      rw [s.writeIn_eq, if_neg hw]
      exact ⟨fun k hk => s.mem.load_storeWord_inside off d k hk, fun o hout => s.mem.load_storeWord_outside off d o hout⟩

/-- Settles O36: the answer is the slot's word, which an OUT slot gives only while BUSY = 0. -/
theorem bufferWindowRead : Obligations.BufferWindowRead := by
  intro s r c hi out rest hn hr hc off ho
  refine ⟨s.slotWord (matrixSlot (if out then outBase else inBase) r c) hi, fun k hk => ?_, ?_⟩
  · rw [s.lane_slotWord _ hi k hk]
    change (if _ then _ else s.byteAt k (off + k)) = _
    unfold State.byteAt
    cases s.mem.load (off + k) <;> rfl
  · cases out with
    | false => exact step_readMatrixSlot s inBase r c hi _ rest (target_inRegion _) rfl (by decide) hn hr hc ho
    | true =>
      rw [step_readMatrixSlot s outBase r c hi _ rest (target_outRegion _) rfl (by decide) hn hr hc ho]
      simp only [State.readTarget, s.ofRead_unlessBusy, true_and, if_true]

/-- Settles O37, window by window. -/
theorem tableWindowRead : Obligations.TableWindowRead := by
  intro s x u off n hi e rest hn hx hu hwin ho
  rw [Nat.add_assoc] at ho
  rw [← s.ofRead_tableWord n x u e hi]
  rcases hwin with ⟨rfl, rfl, rfl⟩ | ⟨rfl, rfl, rfl⟩ | ⟨rfl, rfl, rfl, rfl⟩ | ⟨rfl, rfl, rfl, rfl⟩
  · exact step_readMatrixSlot s cosrBase x u hi _ rest (target_cosrRegion _) rfl (by decide) hn hx hu ho
  · exact step_readMatrixSlot s coscBase x u hi _ rest (target_coscRegion _) rfl (by decide) hn hx hu ho
  · exact step_readVectorSlot s alpharBase x hi _ rest (target_alpharRegion _) rfl (by decide) hn hx ho
  · exact step_readVectorSlot s alphacBase x hi _ rest (target_alphacRegion _) rfl (by decide) hn hx ho

end Sys2Proof.Machine
end

section
/-! SUPPORT. The decoder and the encoder against each other: a word decodes to the one command whose fields it carries
(30_encoding.md R69 to R74). -/

namespace Sys2Proof

/-! ### The decoder, as a relation between words and commands -/

/-- A transform command decodes exactly from a word with F4 = 0, with the sizes of the word. -/
theorem decodeTransform_eq_cmd_iff (w : Word) (mk : Nat → Nat → Instr) (i : Instr) :
    decodeTransform w mk = .cmd i ↔ fieldF4 w = false ∧ mk (fieldA w) (fieldB w) = i := by
  cases hf : fieldF4 w <;> simp [decodeTransform, hf]

/-- With RSV set aside, a word decodes to a command exactly when it carries its opcode and operands (R70, R72). -/
theorem decodeOp_eq_cmd_iff (w : Word) (i : Instr) :
    decodeOp w = .cmd i ↔ fieldOp w = opcodeOf i ∧ fieldA w = i.a ∧ fieldB w = i.b ∧ fieldF4 w = i.f4 := by
  constructor
  · intro h
    unfold decodeOp at h
    split at h
    case h_1 hop =>
      cases h
      exact ⟨BitVec.eq_of_toNat_eq hop, rfl, rfl, rfl⟩
    case h_6 => cases h
    all_goals
      rename_i hop
      obtain ⟨hf4, rfl⟩ := (decodeTransform_eq_cmd_iff w _ i).1 h
      exact ⟨BitVec.eq_of_toNat_eq hop, rfl, rfl, hf4⟩
  · rintro ⟨hop, ha, hb, hf4⟩
    unfold decodeOp
    rw [hop]
    cases i with
    | config rows cols f4 => exact congrArg Decoded.cmd (congr (congrArg₂ Instr.config ha hb) hf4)
    | _ => exact (decodeTransform_eq_cmd_iff w _ _).2 ⟨hf4, congrArg₂ _ ha hb⟩

/-- A word decodes to a command exactly when it carries the command's opcode and operands, and RSV = 0 (R70, R73). -/
theorem decode_eq_cmd_iff (w : Word) (i : Instr) :
    decode w = .cmd i ↔
      fieldOp w = opcodeOf i ∧ fieldA w = i.a ∧ fieldB w = i.b ∧ fieldF4 w = i.f4 ∧ fieldRsv w = 0 := by
  unfold decode
  split
  case isTrue hrsv => simp only [decodeOp_eq_cmd_iff, hrsv, and_true]
  case isFalse hrsv => simp only [hrsv, and_false, reduceCtorEq]

/-! ### The commands, by their fields -/

/-- What R72 and R69 leave to a command: an opcode from 1 to 5, and F4 = 1 on CONFIG only. -/
theorem opcodeOf_legal (i : Instr) :
    1 ≤ (opcodeOf i).toNat ∧ (opcodeOf i).toNat ≤ 5 ∧ (i.f4 = false ∨ (opcodeOf i).toNat = 1) := by
  cases i <;> simp [opcodeOf, Instr.f4]

/-- Every opcode from 1 to 5 has its command, with any operands the opcode allows (R69, R72). -/
theorem exists_instr_of_fields (op : BitVec 8) (a b : Nat) (f4 : Bool) (h1 : 1 ≤ op.toNat) (h5 : op.toNat ≤ 5)
    (hf4 : f4 = false ∨ op.toNat = 1) : ∃ i : Instr, op = opcodeOf i ∧ a = i.a ∧ b = i.b ∧ f4 = i.f4 := by
  have hop : op.toNat = 1 ∨ op.toNat = 2 ∨ op.toNat = 3 ∨ op.toNat = 4 ∨ op.toNat = 5 := by omega
  rcases hop with h | h | h | h | h
  · exact ⟨.config a b f4, BitVec.eq_of_toNat_eq h, rfl, rfl, rfl⟩
  all_goals have hf : f4 = false := hf4.resolve_right (by omega)
  · exact ⟨.fwd1d a b, BitVec.eq_of_toNat_eq h, rfl, rfl, hf⟩
  · exact ⟨.inv1d a b, BitVec.eq_of_toNat_eq h, rfl, rfl, hf⟩
  · exact ⟨.fwd2d a b, BitVec.eq_of_toNat_eq h, rfl, rfl, hf⟩
  · exact ⟨.inv2d a b, BitVec.eq_of_toNat_eq h, rfl, rfl, hf⟩

/-! ### The obligations on encoding -/

/-- Settles O2: the encoder puts every operand of a well-formed command in its field, and the fields fix the command. -/
theorem decodeOfEncodeIsTheCommand : Obligations.DecodeOfEncodeIsTheCommand := fun i hi =>
  (decode_eq_cmd_iff (encode i) i).2 (Laws.EncodesItsFields.of_fits i hi)

/-- Settles O3: the word is packed from its fields, which are the command's, and the sizes fit as fields of 8 bits. -/
theorem encodeOfDecodeIsTheWord : Obligations.EncodeOfDecodeIsTheWord := by
  intro w i hd
  obtain ⟨hop, ha, hb, hf4, hrsv⟩ := (decode_eq_cmd_iff w i).1 hd
  constructor
  · rw [encode, ← hop, ← ha, ← hb, ← hf4, packWord_fields w hrsv]
  · rw [Instr.wellFormed, ← ha, ← hb]
    simp [sizeFits, fieldA_lt, fieldB_lt]

/-- Settles O4: fields as R73 asks are those of a command, and the fields of a command are as R73 asks. -/
theorem legalEncodingsDecode : Obligations.LegalEncodingsDecode := by
  intro w
  constructor
  · rintro ⟨h1, h5, hrsv, hf4⟩
    obtain ⟨i, hop, ha, hb, hf⟩ := exists_instr_of_fields (fieldOp w) (fieldA w) (fieldB w) (fieldF4 w) h1 h5 hf4
    exact ⟨i, (decode_eq_cmd_iff w i).2 ⟨hop, ha, hb, hf, hrsv⟩, hop.symm, ha.symm, hb.symm, hf.symm⟩
  · intro hbad
    cases hd : decode w with
    | illegal why => exact ⟨why, rfl⟩
    | cmd i =>
      obtain ⟨hop, -, -, hf4, hrsv⟩ := (decode_eq_cmd_iff w i).1 hd
      obtain ⟨h1, h5, hf⟩ := opcodeOf_legal i
      rw [← hop] at h1 h5 hf
      rw [← hf4] at hf
      exact absurd ⟨h1, h5, hrsv, hf⟩ hbad

/-- Settles O1: the ten words, decoded. -/
theorem commandWordsDecode : Obligations.CommandWordsDecode := by
  unfold Obligations.CommandWordsDecode
  decide

end Sys2Proof
end

section
/-! SUPPORT. The rejection of an illegal word written to CMD (30_encoding.md R74; 60_exceptions.md R124, R125). -/

namespace Sys2Proof.Machine

/-- What `reject` leaves of a state whose next event is `e` (60_exceptions.md R125). -/
theorem State.reject_eq (s : State) (code : ErrCode) (e : Event) (rest : List Event) (ho : s.order = e :: rest) :
    s.reject code =
      { s with order := rest, seq := s.seq + 1, resp := some .written, err := true, errcode := code } := by
  rw [State.reject, s.respond_eq .written e rest ho]

/-- The issue of an illegal word is a rejection, with BUSY first (30_encoding.md R74; 60_exceptions.md R124). -/
theorem issueWord_illegal (w : Word) (why : Illegal) (s : State) (hd : decode w = .illegal why) :
    issueWord w s = .next (s.reject (if s.pend = none then .illegalCmd else .busy)) := by
  cases hp : s.pend <;> simp [issueWord, hd, State.busy, hp]

/-- Settles O7: the write reaches CMD, whose issue of the word is a rejection. -/
theorem illegalWordIsRejected : Obligations.IllegalWordIsRejected := by
  intro s w why rest ho hd
  calc step s
      = issueWord w s := step_writeRegister s 0x014 w rest rfl (by decide) ho
    _ = .next (s.reject (if s.pend = none then .illegalCmd else .busy)) := issueWord_illegal w why s hd
    _ = _ := by rw [s.reject_eq _ _ rest ho]

end Sys2Proof.Machine
end

section
/-! SUPPORT. CONFIG (40_table_generator.md R81 to R84): its issue on an idle block, its completion, and the fixed 4×4 path
against the generic one (R93, R120). -/

namespace Sys2Proof.Machine

/-- CONFIG's issue on an idle block turns on its size and shape checks alone (R82, R124). -/
theorem issueConfig_idle (r c : Nat) (f4 : Bool) (s : State) (hp : s.pend = none) :
    issue (.config r c f4) s =
      if badConfig s.build.nmax r c f4 then s.reject .invalidConfig else s.accept (.config r c f4) := by
  simp [issue, issueConfig, State.busy, hp]

/-- Settles O10: the idle block issues the command, and `badConfig` is the list of R82. -/
theorem configIssue : Obligations.ConfigIssue := by
  intro s r c f4 hp
  rw [exec_issues_idle _ s hp, issueConfig_idle r c f4 s hp, ← badConfig_iff]
  exact ⟨fun hbad => by rw [if_pos hbad]; rfl, fun hgood => by rw [if_neg hgood]; rfl⟩

/-- The alpha table is ALUT[N][0] once and ALUT[N][1] from then on (R81). -/
theorem alphaTable_eq (f : Fmt) (n : Nat) :
    alphaTable f n = (List.range n).map fun u => if u = 0 then alphaLut f n 0 else alphaLut f n 1 := by
  simp only [alphaTable, apply_ite (alphaLut f n)]

/-- Settles O16: at the ENGINE's turn the pending CONFIG completes, on the path its F4 names. -/
theorem configCompletion : Obligations.ConfigCompletion := by
  intro s r c f4 hturn hp
  rw [exec_completes _ s (s.engineTurn_iff.2 hturn) hp, ← alphaTable_eq, ← alphaTable_eq]
  cases f4 <;> rfl

/-- The fixed path of CONFIG 4, 4 differs from the generic one in ACFG.F4 only, since the ROM holds C_4 and α_4 (R93);
what is pending is gone on both. -/
theorem completion_config_fixed (s : State) (i j : Instr) :
    completion (.config 4 4 true) { s with pend := some i } =
      { completion (.config 4 4 false) { s with pend := some j } with acfg := { rows := 4, cols := 4, f4 := true } } := by
  simp only [completion, completeConfig, State.installFixed, cos4_eq, alpha4_eq]
  rfl

/-- The completion of a transform reads the sizes of ACFG, never its F4, and keeps ACFG (R120). -/
theorem completion_ignores_f4 (i : Instr) (s : State) (b : Bool) (hi : i.isConfig = false) :
    completion i { s with acfg := { s.acfg with f4 := b } } =
      { completion i s with acfg := { (completion i s).acfg with f4 := b } } := by
  cases i with
  | config r c f4 => cases hi
  | _ => rfl

/-- Settles O25: both paths install the same tables, and no transform reads F4. -/
theorem fixedPathEqualsGenericPath : Obligations.FixedPathEqualsGenericPath := by
  constructor
  · intro s hturn
    have hturn := s.engineTurn_iff.2 hturn
    have hrun (b : Bool) := exec_completes (.config 4 4 b) { s with pend := some (.config 4 4 b) } hturn rfl
    exact ⟨_, hrun false, (hrun true).trans (congrArg _ (completion_config_fixed s _ _))⟩
  · intro s i hi hturn hp
    have hturn := s.engineTurn_iff.2 hturn
    have hrun (b : Bool) := (exec_completes i { s with acfg := { s.acfg with f4 := b } } hturn hp).trans
      (congrArg _ (completion_ignores_f4 i s b hi))
    exact ⟨completion i s, hrun false, hrun true⟩

end Sys2Proof.Machine
end

section
/-! SUPPORT. An element by its sign and the bits below it (41_datapath.md R96), the negation of an element, and what it
is to be RN of a real number within the range of FMT (R97). -/

namespace Sys2Proof.Machine

/-! ### The low bits -/

/-- The bits of an element below its sign. -/
def lowBits (f : Fmt) (e : Elem) : Nat := e.toNat % 2 ^ (f.width - 1)

/-- The magnitude of an element with the low bits `b`, for every natural `b`. -/
def magnitudeOfLow (f : Fmt) (b : Nat) : Nat :=
  if b / 2 ^ f.fracBits = 0 then b % 2 ^ f.fracBits
  else (2 ^ f.fracBits + b % 2 ^ f.fracBits) * 2 ^ (b / 2 ^ f.fracBits - 1)

/-- The low bits are the exponent and the fraction. -/
theorem two_pow_lowBits (f : Fmt) : 2 ^ (f.width - 1) = 2 ^ f.fracBits * 2 ^ f.expBits := by cases f <;> rfl

theorem lowBits_lt (f : Fmt) (e : Elem) : lowBits f e < 2 ^ (f.width - 1) := Nat.mod_lt _ (Nat.two_pow_pos _)

theorem lowBits_eq_toNat (f : Fmt) (e : Elem) (h : e.toNat < 2 ^ (f.width - 1)) : lowBits f e = e.toNat :=
  Nat.mod_eq_of_lt h

theorem expField_eq_lowBits (f : Fmt) (e : Elem) : expField f e = lowBits f e / 2 ^ f.fracBits := by
  rw [lowBits, two_pow_lowBits, Nat.mod_mul_right_div_self, expField]

theorem fracField_eq_lowBits (f : Fmt) (e : Elem) : fracField f e = lowBits f e % 2 ^ f.fracBits := by
  rw [lowBits, two_pow_lowBits, Nat.mod_mul_right_mod, fracField]

theorem magnitude_eq_magnitudeOfLow (f : Fmt) (e : Elem) : magnitude f e = magnitudeOfLow f (lowBits f e) := by
  rw [magnitude, magnitudeOfLow, expField_eq_lowBits, fracField_eq_lowBits]

theorem isFinite_iff_lowBits (f : Fmt) (e : Elem) : isFinite f e = true ↔ lowBits f e < f.expOnes * 2 ^ f.fracBits := by
  have hlt : lowBits f e / 2 ^ f.fracBits < f.expOnes + 1 := by
    rw [← two_pow_expBits, Nat.div_lt_iff_lt_mul (Nat.two_pow_pos _), Nat.mul_comm, ← two_pow_lowBits]
    exact lowBits_lt f e
  rw [isFinite, decide_eq_true_eq, expField_eq_lowBits, ← Nat.div_lt_iff_lt_mul (Nat.two_pow_pos _)]
  omega

theorem isZero_iff_lowBits (f : Fmt) (e : Elem) : isZero f e = true ↔ lowBits f e = 0 := by
  rw [isZero, Bool.and_eq_true, decide_eq_true_eq, decide_eq_true_eq, expField_eq_lowBits, fracField_eq_lowBits]
  constructor
  · rintro ⟨hexp, hfrac⟩
    rw [← Nat.div_add_mod (lowBits f e) (2 ^ f.fracBits), hexp, hfrac, Nat.mul_zero]
  · intro h
    rw [h, Nat.zero_div, Nat.zero_mod]
    exact ⟨rfl, rfl⟩

theorem isNeg_eq_false_of_lt (f : Fmt) (e : Elem) (h : e.toNat < 2 ^ (f.width - 1)) : isNeg f e = false :=
  Nat.testBit_lt_two_pow h

/-- Counting the low bits up by one goes to the next magnitude: within a binade, or over its end into the exponent. -/
theorem magnitudeOfLow_strictMono (f : Fmt) : StrictMono (magnitudeOfLow f) := by
  refine strictMono_nat_of_lt_succ fun b => ?_
  have hp : 0 < 2 ^ f.fracBits := Nat.two_pow_pos _
  have hr : b % 2 ^ f.fracBits < 2 ^ f.fracBits := Nat.mod_lt b hp
  have hb := Nat.div_add_mod b (2 ^ f.fracBits)
  unfold magnitudeOfLow
  generalize 2 ^ f.fracBits = p at hp hr hb ⊢
  generalize b % p = r at hr hb ⊢
  generalize b / p = q at hb ⊢
  subst hb
  by_cases hcarry : r + 1 = p
  · have hnext : p * q + r + 1 = p * (q + 1) := by rw [Nat.mul_add]; omega
    rw [hnext, Nat.mul_div_cancel_left _ hp, Nat.mul_mod_right, if_neg (Nat.succ_ne_zero q)]
    cases q with
    | zero => simp; omega
    | succ q =>
      have h2 : 0 < 2 ^ q := Nat.two_pow_pos q
      simp only [Nat.succ_ne_zero, if_false, Nat.add_sub_cancel, Nat.pow_succ, Nat.add_zero]
      nlinarith
  · have hr' : r + 1 < p := by omega
    rw [Nat.add_assoc, Nat.mul_add_div hp, Nat.mul_add_mod, Nat.div_eq_of_lt hr', Nat.mod_eq_of_lt hr', Nat.add_zero]
    split
    · omega
    · exact Nat.mul_lt_mul_of_pos_right (by omega) (Nat.two_pow_pos _)

/-! ### Negation -/

theorem lowBits_zeroElem (f : Fmt) (neg : Bool) : lowBits f (zeroElem f neg) = 0 := by
  cases f <;> cases neg <;> decide

/-- Flipping the sign keeps the bits below it. -/
theorem lowBits_flipSign (f : Fmt) (e : Elem) : lowBits f (e ^^^ packElem f true 0) = lowBits f e := by
  rw [lowBits, BitVec.toNat_xor, Nat.xor_mod_two_pow, packElem_toNat f true 0 (Nat.two_pow_pos _)]
  simp [lowBits]

theorem isNeg_flipSign (f : Fmt) (e : Elem) : isNeg f (e ^^^ packElem f true 0) = !isNeg f e := by
  have hsign : isNeg f (packElem f true 0) = true := isNeg_packElem f true 0 (Nat.two_pow_pos _)
  rw [isNeg] at hsign ⊢
  rw [BitVec.getLsbD_xor, hsign, Bool.xor_true, isNeg]

theorem negEntry_of_zero (f : Fmt) (e : Elem) (h : isZero f e = true) : negEntry f e = zeroElem f false := if_pos h

theorem negEntry_of_nonzero (f : Fmt) (e : Elem) (h : isZero f e = false) :
    negEntry f e = e ^^^ packElem f true 0 := if_neg (by simp [h])

@[simp] theorem lowBits_negEntry (f : Fmt) (e : Elem) : lowBits f (negEntry f e) = lowBits f e := by
  cases hz : isZero f e
  · rw [negEntry_of_nonzero f e hz, lowBits_flipSign]
  · rw [negEntry_of_zero f e hz, lowBits_zeroElem, (isZero_iff_lowBits f e).1 hz]

@[simp] theorem isFinite_negEntry (f : Fmt) (e : Elem) : isFinite f (negEntry f e) = isFinite f e := by
  rw [Bool.eq_iff_iff, isFinite_iff_lowBits, isFinite_iff_lowBits, lowBits_negEntry]

@[simp] theorem magnitude_negEntry (f : Fmt) (e : Elem) : magnitude f (negEntry f e) = magnitude f e := by
  simp only [magnitude_eq_magnitudeOfLow, lowBits_negEntry]

theorem magnitude_of_zero (f : Fmt) (e : Elem) (h : isZero f e = true) : magnitude f e = 0 := by
  rw [magnitude_eq_magnitudeOfLow, (isZero_iff_lowBits f e).1 h]
  simp [magnitudeOfLow]

theorem exactValue_negEntry (f : Fmt) (e : Elem) : exactValue f (negEntry f e) = -exactValue f e := by
  rw [exactValue, exactValue, magnitude_negEntry]
  cases hz : isZero f e
  · rw [negEntry_of_nonzero f e hz, isNeg_flipSign]
    cases isNeg f e <;> simp
  · simp [magnitude_of_zero f e hz]

/-- Negation undoes itself but on −0.0. -/
theorem negEntry_negEntry (f : Fmt) (e : Elem) (h : isZero f e = false) : negEntry f (negEntry f e) = e := by
  have hz : isZero f (negEntry f e) = false := by
    rw [← Bool.not_eq_true, isZero_iff_lowBits, lowBits_negEntry, ← isZero_iff_lowBits, h]
    exact Bool.false_ne_true
  rw [negEntry_of_nonzero f _ hz, negEntry_of_nonzero f e h, BitVec.xor_assoc, BitVec.xor_self, BitVec.xor_zero]

theorem negEntry_fits (f : Fmt) (e : Elem) (h : Fits f e) : Fits f (negEntry f e) := by
  unfold negEntry
  split
  · exact zeroElem_fits f false
  · rw [Fits, BitVec.toNat_xor]
    exact Nat.xor_lt_two_pow h (packElem_fits f true 0 (Nat.two_pow_pos _))

/-! ### The nearest element -/

/-- `a` is a finite element, and none is nearer to `y`: RN of `y` where no two elements are at the same distance (R97). -/
def IsNearest (f : Fmt) (a : Elem) (y : ℝ) : Prop :=
  isFinite f a = true ∧ ∀ e, isFinite f e = true →
    |(exactValue f a : ℝ) / 2 ^ f.quantum - y| ≤ |(exactValue f e : ℝ) / 2 ^ f.quantum - y|

theorem magnitude_of_lt (f : Fmt) (e : Elem) (h : e.toNat < 2 ^ (f.width - 1)) :
    magnitude f e = magnitudeOfLow f e.toNat := by
  rw [magnitude_eq_magnitudeOfLow, lowBits_eq_toNat f e h]

theorem exactValue_of_lt (f : Fmt) (e : Elem) (h : e.toNat < 2 ^ (f.width - 1)) :
    exactValue f e = magnitudeOfLow f e.toNat := by
  rw [exactValue, isNeg_eq_false_of_lt f e h, magnitude_of_lt f e h]
  rfl

/-- The value of an element lies in no gap between two neighbouring magnitudes. -/
theorem exactValue_outside_gap (f : Fmt) (e : Elem) (b : Nat) :
    exactValue f e ≤ magnitudeOfLow f b ∨ (magnitudeOfLow f (b + 1) : Int) ≤ exactValue f e := by
  have hmono := (magnitudeOfLow_strictMono f).monotone
  rw [exactValue, magnitude_eq_magnitudeOfLow]
  split
  · left; omega
  · rcases Nat.lt_or_ge b (lowBits f e) with h | h
    · exact .inr (Int.ofNat_le.2 (hmono h))
    · exact .inl (Int.ofNat_le.2 (hmono h))

/-- The sum of the magnitudes at the low bits `b` and `b + 1`: twice their midpoint. -/
def midpoint (f : Fmt) (b : Nat) : Nat := magnitudeOfLow f b + magnitudeOfLow f (b + 1)

/-- A real number between the midpoints to the neighbours below and above is nearest to the element between them. -/
theorem isNearest_of_midpoints (f : Fmt) (a : Elem) (y : ℝ) (hpos : 0 < a.toNat)
    (hfin : a.toNat < f.expOnes * 2 ^ f.fracBits)
    (hlow : midpoint f (a.toNat - 1) ≤ 2 ^ (f.quantum + 1) * y) (hhigh : 2 ^ (f.quantum + 1) * y ≤ midpoint f a.toNat) :
    IsNearest f a y := by
  have hsmall := hfin.trans (infLow_lt f)
  refine ⟨(isFinite_iff_lowBits f a).2 (by rwa [lowBits_eq_toNat f a hsmall]), fun e _ => ?_⟩
  have hq : (0 : ℝ) < 2 ^ f.quantum := by positivity
  have hscale (v : ℝ) : |v / 2 ^ f.quantum - y| = |v - 2 ^ f.quantum * y| / 2 ^ f.quantum := by
    rw [← abs_of_pos hq, ← abs_div, abs_of_pos hq, sub_div, mul_div_cancel_left₀ _ hq.ne']
  rw [hscale, hscale, exactValue_of_lt f a hsmall]
  refine div_le_div_of_nonneg_right ?_ hq.le
  rw [midpoint, Nat.cast_add, pow_succ] at hlow hhigh
  have hgap (b : Nat) : (exactValue f e : ℝ) ≤ magnitudeOfLow f b ∨ (magnitudeOfLow f (b + 1) : ℝ) ≤ exactValue f e :=
    (exactValue_outside_gap f e b).imp (fun h => by exact_mod_cast h) (fun h => by exact_mod_cast h)
  have hmono (b : Nat) : (magnitudeOfLow f b : ℝ) ≤ magnitudeOfLow f (b + 1) := by
    exact_mod_cast (magnitudeOfLow_strictMono f).monotone (Nat.le_succ b)
  have hup := hmono a.toNat
  have hdown := hmono (a.toNat - 1)
  have hbelow := hgap (a.toNat - 1)
  rw [Nat.sub_add_cancel hpos] at hlow hdown hbelow
  rw [Int.cast_natCast]
  rcases hbelow with hbelow | hbelow
  · rw [abs_of_nonpos (by linarith : (exactValue f e : ℝ) - 2 ^ f.quantum * y ≤ 0), abs_le]
    constructor <;> linarith
  · rcases hgap a.toNat with habove | habove
    · rw [le_antisymm habove hbelow]
    · rw [abs_of_nonneg (by linarith : 0 ≤ (exactValue f e : ℝ) - 2 ^ f.quantum * y), abs_le]
      constructor <;> linarith

/-- RN of 0. -/
theorem isNearest_zero (f : Fmt) : IsNearest f 0 0 := by
  have hz : exactValue f 0 = 0 := by cases f <;> decide
  refine ⟨by cases f <;> decide, fun e _ => ?_⟩
  rw [hz]
  simp

/-- The finite elements lie symmetrically about 0. -/
theorem IsNearest.neg {f : Fmt} {a : Elem} {y : ℝ} (h : IsNearest f a y) : IsNearest f (negEntry f a) (-y) := by
  obtain ⟨hfin, hnear⟩ := h
  have hneg (e : Elem) : |(exactValue f (negEntry f e) : ℝ) / 2 ^ f.quantum - y| =
      |(exactValue f e : ℝ) / 2 ^ f.quantum - -y| := by
    rw [exactValue_negEntry, Int.cast_neg, neg_div, ← abs_neg]
    ring_nf
  refine ⟨by rwa [isFinite_negEntry], fun e he => ?_⟩
  have h := hnear (negEntry f e) (by rwa [isFinite_negEntry])
  rw [hneg] at h
  rw [exactValue_negEntry, Int.cast_neg, neg_div, ← neg_sub', abs_neg]
  exact h

end Sys2Proof.Machine
end

section
/-! SUPPORT. Rational bounds of cos(π·j/(2N)), without a value of π: cos(kφ) is the Chebyshev polynomial T_k at cos φ, and
φ lies below π/(2N) exactly where none of T_1 to T_N is 0 or less at cos φ. -/

namespace Sys2Proof.Machine

/-! ### Chebyshev polynomials at a fraction -/

/-- 2^(80·k) · T_k(c / 2^80), with the like for k + 1, up to the first k where T_k is 0 or less: there the truncated
subtraction gives 0. -/
def chebyshevPair (c : Nat) : Nat → Nat × Nat
  | 0 => (1, c)
  | k + 1 => ((chebyshevPair c k).2, 2 * c * (chebyshevPair c k).2 - 2 ^ 160 * (chebyshevPair c k).1)

/-- 2^(80·k) · T_k(c / 2^80). -/
def chebyshev (c k : Nat) : Nat := (chebyshevPair c k).1

theorem chebyshev_add_two (c k : Nat) :
    chebyshev c (k + 2) = 2 * c * chebyshev c (k + 1) - 2 ^ 160 * chebyshev c k := rfl

/-- A truncated subtraction, as a real number. -/
theorem cast_sub_eq_max (a b : Nat) : ((a - b : Nat) : ℝ) = max ((a : ℝ) - b) 0 := by
  rcases Nat.le_total b a with h | h
  · rw [Nat.cast_sub h, max_eq_left (sub_nonneg.2 (Nat.cast_le.2 h))]
  · rw [Nat.sub_eq_zero_of_le h, max_eq_right (sub_nonpos.2 (Nat.cast_le.2 h)), Nat.cast_zero]

/-- The recurrence of the Chebyshev polynomials, for cosines. -/
theorem cos_add_two_mul (k : Nat) (φ : ℝ) :
    Real.cos ((k + 2 : Nat) * φ) = 2 * Real.cos φ * Real.cos ((k + 1 : Nat) * φ) - Real.cos (k * φ) := by
  have hup : ((k + 2 : Nat) : ℝ) * φ = (k + 1 : Nat) * φ + φ := by push_cast; ring
  have hdown : (k : ℝ) * φ = (k + 1 : Nat) * φ - φ := by push_cast; ring
  rw [hup, hdown, Real.cos_add, Real.cos_sub]
  ring

section
variable {c : Nat} {φ : ℝ} (hφ : (c : ℝ) = 2 ^ 80 * Real.cos φ)
include hφ

/-- The values are scaled cosines up to the first that is not positive. -/
theorem chebyshev_eq_max (k : Nat) (hpos : ∀ i < k, 0 < chebyshev c i) :
    (chebyshev c k : ℝ) = max (2 ^ (80 * k) * Real.cos (k * φ)) 0 := by
  induction k using Nat.twoStepInduction with
  | zero => simp [chebyshev, chebyshevPair]
  | one =>
    have hc : (0 : ℝ) ≤ c := Nat.cast_nonneg c
    rw [Nat.mul_one, Nat.cast_one, one_mul, ← hφ, max_eq_left hc]
    rfl
  | more k ih ih' =>
    have hexact (i : Nat) (hi : 0 < chebyshev c i)
        (h : (chebyshev c i : ℝ) = max (2 ^ (80 * i) * Real.cos (i * φ)) 0) :
        (chebyshev c i : ℝ) = 2 ^ (80 * i) * Real.cos (i * φ) := by
      rcases max_choice (2 ^ (80 * i) * Real.cos (i * φ)) 0 with hm | hm
      · rw [h, hm]
      · rw [hm] at h
        exact absurd h (by exact_mod_cast hi.ne')
    have h0 := hexact k (hpos k (by omega)) (ih fun i hi => hpos i (by omega))
    have h1 := hexact (k + 1) (hpos (k + 1) (by omega)) (ih' fun i hi => hpos i (by omega))
    rw [chebyshev_add_two, cast_sub_eq_max, cos_add_two_mul]
    push_cast at h1 ⊢
    rw [h0, h1, hφ]
    ring_nf

theorem cos_pos_of_chebyshev (k : Nat) (hpos : ∀ i < k + 1, 0 < chebyshev c i) : 0 < Real.cos (k * φ) := by
  have h := chebyshev_eq_max hφ k fun i hi => hpos i (by omega)
  have hk : (0 : ℝ) < chebyshev c k := Nat.cast_pos.2 (hpos k (Nat.lt_succ_self k))
  rw [h, lt_max_iff] at hk
  exact pos_of_mul_pos_right (hk.resolve_right (lt_irrefl 0)) (by positivity)

theorem chebyshev_eq_cos (k : Nat) (hpos : ∀ i < k + 1, 0 < chebyshev c i) :
    (chebyshev c k : ℝ) = 2 ^ (80 * k) * Real.cos (k * φ) := by
  rw [chebyshev_eq_max hφ k fun i hi => hpos i (by omega), max_eq_left]
  exact mul_nonneg (by positivity) (cos_pos_of_chebyshev hφ k hpos).le

theorem cos_nonpos_of_chebyshev (k : Nat) (hpos : ∀ i < k, 0 < chebyshev c i) (hk : chebyshev c k = 0) :
    Real.cos (k * φ) ≤ 0 := by
  have h := chebyshev_eq_max hφ k hpos
  rw [hk, Nat.cast_zero] at h
  exact nonpos_of_mul_nonpos_right (max_eq_right_iff.1 h.symm) (by positivity)

/-- While all the values are positive the angle stays below a right angle. -/
theorem mul_angle_lt_pi_div_two (h0 : 0 ≤ φ) (h1 : φ ≤ Real.pi / 2) (k : Nat) (hpos : ∀ i < k + 1, 0 < chebyshev c i) :
    k * φ < Real.pi / 2 := by
  induction k with
  | zero => simpa using Real.pi_div_two_pos
  | succ k ih =>
    have hk := ih fun i hi => hpos i (by omega)
    have hcos := cos_pos_of_chebyshev hφ (k + 1) hpos
    by_contra hge
    refine absurd (Real.cos_nonpos_of_pi_div_two_le_of_le (not_lt.1 hge) ?_) (not_le.2 hcos)
    push_cast
    linarith

/-- Where the values become 0 the angle has reached a right angle. -/
theorem pi_div_two_le_mul_angle (h0 : 0 ≤ φ) (k : Nat) (hpos : ∀ i < k, 0 < chebyshev c i) (hk : chebyshev c k = 0) :
    Real.pi / 2 ≤ k * φ := by
  by_contra hlt
  have hφk : 0 ≤ k * φ := by positivity
  exact absurd (cos_nonpos_of_chebyshev hφ k hpos hk)
    (not_le.2 (Real.cos_pos_of_mem_Ioo ⟨by linarith [Real.pi_div_two_pos], not_le.1 hlt⟩))

end

/-- The angle of the first quadrant whose cosine is `c / 2^80`. -/
noncomputable def chebyshevAngle (c : Nat) : ℝ := Real.arccos (c / 2 ^ 80)

theorem chebyshevAngle_spec (c : Nat) (hc : c ≤ 2 ^ 80) :
    (c : ℝ) = 2 ^ 80 * Real.cos (chebyshevAngle c) ∧ 0 ≤ chebyshevAngle c ∧ chebyshevAngle c ≤ Real.pi / 2 := by
  have h0 : (0 : ℝ) ≤ c / 2 ^ 80 := by positivity
  have h1 : (c : ℝ) / 2 ^ 80 ≤ 1 := (div_le_one (by positivity)).2 (by exact_mod_cast hc)
  refine ⟨?_, Real.arccos_nonneg _, Real.arccos_le_pi_div_two.2 h0⟩
  rw [chebyshevAngle, Real.cos_arccos (by linarith) h1]
  ring

/-- A bound of cos(jθ) from above, by an angle that reaches a right angle later than θ. -/
theorem cos_le_chebyshev (c n j : Nat) (θ : ℝ) (hθ : n * θ = Real.pi / 2) (hc : c ≤ 2 ^ 80)
    (hpos : ∀ i < n + 1, 0 < chebyshev c i) (hj : j < n) : 2 ^ (80 * j) * Real.cos (j * θ) ≤ chebyshev c j := by
  obtain ⟨hφ, h0, h1⟩ := chebyshevAngle_spec c hc
  have hn : (0 : ℝ) < n := Nat.cast_pos.2 (by omega)
  have hjn : (j : ℝ) ≤ n := Nat.cast_le.2 hj.le
  have hlt := mul_angle_lt_pi_div_two hφ h0 h1 n hpos
  have hle : chebyshevAngle c ≤ θ := le_of_mul_le_mul_left (by linarith) hn
  have hθ0 := h0.trans hle
  rw [chebyshev_eq_cos hφ j fun i hi => hpos i (by omega)]
  refine mul_le_mul_of_nonneg_left (Real.cos_le_cos_of_nonneg_of_le_pi (by positivity) ?_ ?_) (by positivity)
  · nlinarith [Real.pi_pos]
  · exact mul_le_mul_of_nonneg_left hle (Nat.cast_nonneg j)

/-- A bound of cos(jθ) from below, by an angle that reaches a right angle no later than θ. -/
theorem chebyshev_le_cos (c n j : Nat) (θ : ℝ) (hθ : n * θ = Real.pi / 2) (hc : c ≤ 2 ^ 80)
    (hpos : ∀ i < n, 0 < chebyshev c i) (hn : chebyshev c n = 0) (hj : j < n) :
    chebyshev c j ≤ 2 ^ (80 * j) * Real.cos (j * θ) := by
  obtain ⟨hφ, h0, h1⟩ := chebyshevAngle_spec c hc
  have hposn : (0 : ℝ) < n := Nat.cast_pos.2 (by omega)
  have hge := pi_div_two_le_mul_angle hφ h0 n hpos hn
  have hle : θ ≤ chebyshevAngle c := le_of_mul_le_mul_left (by linarith) hposn
  have hθ0 : 0 ≤ θ := le_of_mul_le_mul_left (by linarith [Real.pi_pos]) hposn
  have hposj : ∀ i < j + 1, 0 < chebyshev c i := fun i hi => hpos i (by omega)
  rw [chebyshev_eq_cos hφ j hposj]
  refine mul_le_mul_of_nonneg_left (Real.cos_le_cos_of_nonneg_of_le_pi (by positivity) ?_ ?_) (by positivity)
  · linarith [mul_angle_lt_pi_div_two hφ h0 h1 j hposj, Real.pi_pos]
  · exact mul_le_mul_of_nonneg_left hle (Nat.cast_nonneg j)

/-! ### The fractions -/

/-- ⌊2^80 · cos(π/(2N))⌋ for N = 1 to 64: a guess, which `cosFloor_brackets` confirms. -/
def cosFloors : List Nat := [
   0x00000000000000000000, 0xB504F333F9DE6484597D, 0xDDB3D742C265539D92BA, 0xEC835E79946A31457E61, 0xF378709A22A7FAF31BB7,
   0xF746EA3A45F8A62A45CB, 0xF994E02AC74B471CAA52, 0xFB14BE7FBAE581562172, 0xFC1C5C6408E0BAD05D8D, 0xFCD924A17F22DCD16372,
   0xFD64F021C2177B784EF5, 0xFDCF54976344DA16C4ED, 0xFE222B34B33B49725D74, 0xFE63EC63209AF686E8F5, 0xFE98FCA7C33E336420E8,
   0xFEC46D1E89292CF04139, 0xFEE86F5AB25913E78DEA, 0xFF069DA0C0AD0F11F806, 0xFF20294D2A1550331DC9, 0xFF35F971330578E3D873,
   0xFF48BF805716695C2FC3, 0xFF59059393BBB1E2F4EA, 0xFF67386FE9F7DB6E28DB, 0xFF73AEB154E231FE3DD1, 0xFF7EADFF221FF0370BD3,
   0xFF886EE10E4A6E2F3253, 0xFF911F9B1AE71A55F782, 0xFF98E655F3725CF0F3E5, 0xFF9FE2C4742CEB4A9B49, 0xFFA62F689730EAEC0B8F,
   0xFFABE2904667CB7EFC3E, 0xFFB10F1BCB6BEF1D421E, 0xFFB5C51AD56418FE8034, 0xFFBA1249AC1419C5BA2A, 0xFFBE0275B9C75C2DC697,
   0xFFC19FCED22FB56B08FE, 0xFFC4F3295107341514F2, 0xFFC8043435E848B21468, 0xFFCAD9A5AB7E43ABB540, 0xFFCD795FDE14BA6F0417,
   0xFFCFE88F9CAEE9951DD1, 0xFFD22BC5EF989BFF2105, 0xFFD4470D9196A6ABD0BD, 0xFFD63DFD08F11BD884AD, 0xFFD813C5F82B35AFA3A6,
   0xFFD9CB4220E0005F7C9A, 0xFFDB66FE7C0B079A79F1, 0xFFDCE944B89B6D1C2542, 0xFFDE5423627E4E21D8BA, 0xFFDFA974E8842CE6858B,
   0xFFE0EAE5AE0556190762, 0xFFE219F94D785DB22082, 0xFFE3380F2AECB8188170, 0xFFE44666703FF664215C, 0xFFE5462188B41FFAAEDD,
   0xFFE638492E1B39747451, 0xFFE71DCF16F2FF4B3B8B, 0xFFE7F790526F5F7B18CC, 0xFFE8C6575D7B4C6A5CC9, 0xFFE98ADDFA13A973C5D3,
   0xFFEA45CED10073C697F4, 0xFFEAF7C6E4C8E822806E, 0xFFEBA156DBC682C978C3, 0xFFEC4304266865D95657
  ]

/-- The entry of `cosFloors` for N. -/
def cosFloor (n : Nat) : Nat := cosFloors.getD (n - 1) 0

/-- cos(π/(2N)) lies between `cosFloor N / 2^80` and the next multiple of 2^(−80). -/
theorem cosFloor_brackets : ∀ n < 65, 1 ≤ n → cosFloor n + 1 ≤ 2 ^ 80 ∧ (∀ i < n, 0 < chebyshev (cosFloor n) i) ∧
    chebyshev (cosFloor n) n = 0 ∧ ∀ i < n + 1, 0 < chebyshev (cosFloor n + 1) i := by decide +kernel

/-- The exact cosine of the basis entry B_N[j] (40_table_generator.md R87). -/
noncomputable def basisCos (n j : Nat) : ℝ := Real.cos (Real.pi * j / (2 * n))

theorem basisCos_bounds (n j : Nat) (hn : 1 ≤ n) (hn64 : n ≤ 64) (hj : j < n) :
    chebyshev (cosFloor n) j ≤ 2 ^ (80 * j) * basisCos n j ∧
      2 ^ (80 * j) * basisCos n j ≤ chebyshev (cosFloor n + 1) j := by
  obtain ⟨hle, hpos, hzero, hpos'⟩ := cosFloor_brackets n (by omega) hn
  have hn0 : (n : ℝ) ≠ 0 := Nat.cast_ne_zero.2 (by omega)
  have hθ : n * (Real.pi / (2 * n)) = Real.pi / 2 := by field_simp
  have hangle : Real.pi * j / (2 * n) = j * (Real.pi / (2 * n)) := by ring
  rw [basisCos, hangle]
  exact ⟨chebyshev_le_cos _ n j _ hθ (by omega) hpos hzero hj, cos_le_chebyshev _ n j _ hθ hle hpos' hj⟩

end Sys2Proof.Machine
end

section
/-! SUPPORT. The stored tables, entry by entry (40_table_generator.md R85, R86, R88 to R90, R94): finitely many constants,
each with its real number between the midpoints to its neighbours. -/

namespace Sys2Proof.Machine

/-! ### The checks of one entry -/

/-- The low bits of 1.0. -/
def oneBits (f : Fmt) : Nat := (2 ^ (f.expBits - 1) - 1) * 2 ^ f.fracBits

/-- The low bits of 0.5. -/
def halfBits (f : Fmt) : Nat := oneBits f - 2 ^ f.fracBits

/-- What is computed of the stored B_N[j], j < N, with the low bits `b`: its sign, its place to 1.0 and 0.5, and that the
two bounds of its cosine (`basisCos_bounds`) lie between the midpoints to its neighbours. -/
def BasisEntryChecks (f : Fmt) (n j b : Nat) : Prop :=
  0 < b ∧ (if j = 0 then b = oneBits f else b < oneBits f) ∧ (b = halfBits f ↔ 3 * j = 2 * n) ∧
    midpoint f (b - 1) * 2 ^ (80 * j) ≤ 2 ^ (f.quantum + 1) * chebyshev (cosFloor n) j ∧
    2 ^ (f.quantum + 1) * chebyshev (cosFloor n + 1) j ≤ midpoint f b * 2 ^ (80 * j)

/-- What is computed of the stored ALUT[N][i] with the low bits `b`: its sign, its place to 1.0, and that (i + 1)/N lies
between the squares of the midpoints to its neighbours. -/
def AlphaLutChecks (f : Fmt) (n i b : Nat) : Prop :=
  0 < b ∧ b ≤ oneBits f ∧ midpoint f (b - 1) ^ 2 * n ≤ (2 ^ (f.quantum + 1)) ^ 2 * (i + 1) ∧
    (2 ^ (f.quantum + 1)) ^ 2 * (i + 1) ≤ midpoint f b ^ 2 * n

/-! ### Every entry passes -/

theorem cosBasis_entry (f : Fmt) (n j : Nat) (hn : n ≤ 64) (hj : j < n) :
    BasisEntryChecks f n j (cosBasis f n j).toNat := by
  have hall : ∀ m < 65, ∀ i < m, BasisEntryChecks f m i (cosBasis f m i).toNat := by
    unfold BasisEntryChecks
    cases f <;> decide +kernel
  exact hall n (by omega) j hj

theorem cosBasis_last (f : Fmt) (n : Nat) (hn : 1 ≤ n) (hn64 : n ≤ 64) : cosBasis f n n = 0 := by
  have hall : ∀ m < 65, 1 ≤ m → cosBasis f m m = 0 := by cases f <;> decide +kernel
  exact hall n (by omega) hn

theorem alphaLut_entry (f : Fmt) (n i : Nat) (hn : n ≤ 64) (hi : i < 2) (hin : i < n) :
    AlphaLutChecks f n i (alphaLut f n i).toNat := by
  have hall : ∀ m < 65, ∀ k < 2, k < m → AlphaLutChecks f m k (alphaLut f m k).toNat := by
    unfold AlphaLutChecks
    cases f <;> decide +kernel
  exact hall n (by omega) i hi hin

/-! ### 1.0, 0.5 and the range of the entries -/

theorem oneBits_finite (f : Fmt) : oneBits f < f.expOnes * 2 ^ f.fracBits := by cases f <;> decide

theorem magnitudeOfLow_one (f : Fmt) : magnitudeOfLow f (oneBits f) = 2 ^ f.quantum := by
  cases f <;> decide +kernel

theorem two_mul_magnitudeOfLow_half (f : Fmt) : 2 * magnitudeOfLow f (halfBits f) = 2 ^ f.quantum := by
  cases f <;> decide +kernel

theorem magnitudeOfLow_zero (f : Fmt) : magnitudeOfLow f 0 = 0 := by cases f <;> decide

/-- A pattern up to 1.0 has its sign bit clear. -/
theorem lt_signBit_of_le_one (f : Fmt) (e : Elem) (h : e.toNat ≤ oneBits f) : e.toNat < 2 ^ (f.width - 1) :=
  h.trans_lt ((oneBits_finite f).trans (infLow_lt f))

/-- A finite pattern of W bits in [-1, 1] (R94). -/
def InUnitRange (f : Fmt) (e : Elem) : Prop := isFinite f e = true ∧ magnitude f e ≤ 2 ^ f.quantum ∧ e.toNat < 2 ^ f.width

theorem inUnitRange_of_le_one (f : Fmt) (e : Elem) (h : e.toNat ≤ oneBits f) : InUnitRange f e := by
  have hlt := lt_signBit_of_le_one f e h
  refine ⟨?_, ?_, hlt.trans_le (Nat.pow_le_pow_right Nat.two_pos (Nat.sub_le _ _))⟩
  · rw [isFinite_iff_lowBits, lowBits_eq_toNat f e hlt]
    exact h.trans_lt (oneBits_finite f)
  · rw [magnitude_of_lt f e hlt, ← magnitudeOfLow_one]
    exact (magnitudeOfLow_strictMono f).monotone h

theorem InUnitRange.neg {f : Fmt} {e : Elem} (h : InUnitRange f e) : InUnitRange f (negEntry f e) := by
  obtain ⟨hfin, hmag, hfits⟩ := h
  exact ⟨by rwa [isFinite_negEntry], by rwa [magnitude_negEntry], negEntry_fits f e hfits⟩

/-! ### The cosine basis -/

theorem cosBasis_le_one (f : Fmt) (n j : Nat) (hn : 1 ≤ n) (hn64 : n ≤ 64) (hj : j ≤ n) :
    (cosBasis f n j).toNat ≤ oneBits f := by
  rcases hj.lt_or_eq with hlt | rfl
  · obtain ⟨-, hone, -⟩ := cosBasis_entry f n j hn64 hlt
    split at hone
    · exact hone.le
    · exact hone.le
  · rw [cosBasis_last f j hn hn64]
    exact Nat.zero_le _

theorem cosBasis_first (f : Fmt) (n : Nat) (hn : 1 ≤ n) (hn64 : n ≤ 64) :
    cosBasis f n 0 = BitVec.ofNat 64 (oneBits f) := by
  obtain ⟨-, hone, -⟩ := cosBasis_entry f n 0 hn64 hn
  rw [if_pos rfl] at hone
  rw [← hone, BitVec.ofNat_toNat, BitVec.setWidth_eq]

theorem isZero_cosBasis (f : Fmt) (n j : Nat) (hn64 : n ≤ 64) (hj : j < n) : isZero f (cosBasis f n j) = false := by
  obtain ⟨hpos, -⟩ := cosBasis_entry f n j hn64 hj
  have hlt := lt_signBit_of_le_one f _ (cosBasis_le_one f n j (by omega) hn64 hj.le)
  rw [← Bool.not_eq_true, isZero_iff_lowBits, lowBits_eq_toNat f _ hlt]
  exact hpos.ne'

/-- The inner entries of the basis lie strictly between 0 and 1, and 0.5 stands exactly at j/N = 2/3 (R86). -/
theorem magnitude_cosBasis (f : Fmt) (n j : Nat) (hn64 : n ≤ 64) (hj0 : 0 < j) (hj : j < n) :
    magnitude f (cosBasis f n j) ≠ 0 ∧ magnitude f (cosBasis f n j) < 2 ^ f.quantum ∧
      (2 * magnitude f (cosBasis f n j) = 2 ^ f.quantum ↔ 3 * j = 2 * n) := by
  obtain ⟨hpos, hone, hhalf, -⟩ := cosBasis_entry f n j hn64 hj
  rw [if_neg hj0.ne'] at hone
  have hmono := magnitudeOfLow_strictMono f
  have h0 := hmono hpos
  have h1 := hmono hone
  rw [magnitudeOfLow_zero] at h0
  rw [magnitudeOfLow_one] at h1
  rw [magnitude_of_lt f _ (lt_signBit_of_le_one f _ hone.le)]
  refine ⟨h0.ne', h1, ?_⟩
  rw [← hhalf, ← two_mul_magnitudeOfLow_half, Nat.mul_right_inj two_ne_zero, hmono.injective.eq_iff]

/-- Every entry of the basis is RN of its cosine (R85, R88). -/
theorem isNearest_cosBasis (f : Fmt) (n j : Nat) (hn : 1 ≤ n) (hn64 : n ≤ 64) (hj : j ≤ n) :
    IsNearest f (cosBasis f n j) (basisCos n j) := by
  rcases hj.lt_or_eq with hlt | rfl
  · obtain ⟨hpos, -, -, hlow, hhigh⟩ := cosBasis_entry f n j hn64 hlt
    obtain ⟨hcos, hcos'⟩ := basisCos_bounds n j hn hn64 hlt
    have hs : (0 : ℝ) < 2 ^ (80 * j) := by positivity
    have hq : (0 : ℝ) ≤ 2 ^ (f.quantum + 1) := by positivity
    have hlow : (midpoint f ((cosBasis f n j).toNat - 1) : ℝ) * 2 ^ (80 * j) ≤
        2 ^ (f.quantum + 1) * chebyshev (cosFloor n) j := by exact_mod_cast hlow
    have hhigh : 2 ^ (f.quantum + 1) * (chebyshev (cosFloor n + 1) j : ℝ) ≤
        midpoint f (cosBasis f n j).toNat * 2 ^ (80 * j) := by exact_mod_cast hhigh
    refine isNearest_of_midpoints f _ _ hpos ((cosBasis_le_one f n j hn hn64 hj).trans_lt (oneBits_finite f)) ?_ ?_
    · refine le_of_mul_le_mul_right (hlow.trans ?_) hs
      calc _ ≤ 2 ^ (f.quantum + 1) * (2 ^ (80 * j) * basisCos n j) := mul_le_mul_of_nonneg_left hcos hq
        _ = _ := by ring
    · refine le_of_mul_le_mul_right (le_trans ?_ hhigh) hs
      calc _ = 2 ^ (f.quantum + 1) * (2 ^ (80 * j) * basisCos n j) := by ring
        _ ≤ _ := mul_le_mul_of_nonneg_left hcos' hq
  · have hj0 : (j : ℝ) ≠ 0 := Nat.cast_ne_zero.2 (by omega)
    have hright : basisCos j j = 0 := by rw [basisCos, mul_div_mul_right _ _ hj0, Real.cos_pi_div_two]
    rw [cosBasis_last f j hn hn64, hright]
    exact isNearest_zero f

/-! ### The alpha LUT -/

theorem alphaEntry_alphaTable (f : Fmt) (n u : Nat) (hu : u < n) :
    alphaEntry (alphaTable f n) u = alphaLut f n (if u = 0 then 0 else 1) := by
  simp [alphaEntry, alphaTable, hu]

theorem alphaLut_le_one (f : Fmt) (n i : Nat) (hn64 : n ≤ 64) (hi : i < 2) (hin : i < n) :
    (alphaLut f n i).toNat ≤ oneBits f := by
  obtain ⟨-, hone, -⟩ := alphaLut_entry f n i hn64 hi hin
  exact hone

/-- Both entries of a row of the LUT are RN of their square roots (R89). -/
theorem isNearest_alphaLut (f : Fmt) (n i : Nat) (hn64 : n ≤ 64) (hi : i < 2) (hin : i < n) :
    IsNearest f (alphaLut f n i) (Real.sqrt ((i + 1) / n)) := by
  obtain ⟨hpos, hone, hlow, hhigh⟩ := alphaLut_entry f n i hn64 hi hin
  have hn : (0 : ℝ) < n := Nat.cast_pos.2 (by omega)
  have hy : (0 : ℝ) ≤ (i + 1) / n := by positivity
  have hsq : (2 ^ (f.quantum + 1) * Real.sqrt ((i + 1) / n)) ^ 2 * n = (2 ^ (f.quantum + 1)) ^ 2 * (i + 1) := by
    rw [mul_pow, Real.sq_sqrt hy]
    field_simp
  refine isNearest_of_midpoints f _ _ hpos (hone.trans_lt (oneBits_finite f)) ?_ ?_
  · refine le_of_sq_le_sq ?_ (by positivity)
    refine le_of_mul_le_mul_right ?_ hn
    rw [hsq]
    exact_mod_cast hlow
  · refine le_of_sq_le_sq ?_ (by positivity)
    refine le_of_mul_le_mul_right ?_ hn
    rw [hsq]
    exact_mod_cast hhigh

end Sys2Proof.Machine
end

section
/-! SUPPORT. The reduction of R87: an entry of C_N from its quadrant, and the obligations on the tables
(40_table_generator.md R85 to R90, R94). -/

namespace Sys2Proof.Machine

/-! ### The quadrant of an angle -/

/-- The angle π·k/(2N) has the cosine of π·j/(2N): it is that angle or its reflection, up to full turns. -/
def SameCos (n k j : Nat) : Prop := k % (4 * n) = j ∨ k % (4 * n) + j = 4 * n

/-- The angle π·k/(2N) has the cosine of π·j/(2N) negated. -/
def OppositeCos (n k j : Nat) : Prop := k % (4 * n) + j = 2 * n ∨ k % (4 * n) = 2 * n + j

/-- Every angle reduces to one of the first quadrant. -/
theorem exists_reduced (n k : Nat) (hn : 1 ≤ n) :
    ∃ j, (j ≤ n ∧ SameCos n k j) ∨ (j < n ∧ OppositeCos n k j) := by
  have hm : k % (4 * n) < 4 * n := Nat.mod_lt k (by omega)
  unfold SameCos OppositeCos
  generalize k % (4 * n) = m at hm ⊢
  by_cases h1 : m ≤ n
  · exact ⟨m, by omega⟩
  by_cases h2 : m < 2 * n
  · exact ⟨2 * n - m, by omega⟩
  by_cases h3 : m < 3 * n
  · exact ⟨m - 2 * n, by omega⟩
  · exact ⟨4 * n - m, by omega⟩

theorem cosEntry_of_sameCos (f : Fmt) (n x u j : Nat) (hn : 1 ≤ n) (hj : j ≤ n)
    (h : SameCos n ((2 * x + 1) * u) j) : cosEntry f n x u = cosBasis f n j := by
  have hm : (2 * x + 1) * u % (4 * n) < 4 * n := Nat.mod_lt _ (by omega)
  unfold SameCos at h
  unfold cosEntry
  generalize (2 * x + 1) * u % (4 * n) = m at hm h
  have hk : (if 2 * n < m then 4 * n - m else m) = j := by split <;> omega
  simp only [hk, if_pos hj]

theorem cosEntry_of_oppositeCos (f : Fmt) (n x u j : Nat) (hj : j < n)
    (h : OppositeCos n ((2 * x + 1) * u) j) : cosEntry f n x u = negEntry f (cosBasis f n j) := by
  unfold OppositeCos at h
  unfold cosEntry
  generalize (2 * x + 1) * u % (4 * n) = m at h
  have hk : (if 2 * n < m then 4 * n - m else m) = 2 * n - j := by split <;> omega
  simp only [hk, if_neg (show ¬ 2 * n - j ≤ n by omega), show 2 * n - (2 * n - j) = j by omega]

/-- An entry of C_N is a basis entry of the same cosine, or the negation of one of the opposite cosine (R87). -/
theorem cosEntry_cases (f : Fmt) (n x u : Nat) (hn : 1 ≤ n) :
    ∃ j, (j ≤ n ∧ SameCos n ((2 * x + 1) * u) j ∧ cosEntry f n x u = cosBasis f n j) ∨
      (j < n ∧ OppositeCos n ((2 * x + 1) * u) j ∧ cosEntry f n x u = negEntry f (cosBasis f n j)) := by
  obtain ⟨j, ⟨hj, h⟩ | ⟨hj, h⟩⟩ := exists_reduced n ((2 * x + 1) * u) hn
  · exact ⟨j, .inl ⟨hj, h, cosEntry_of_sameCos f n x u j hn hj h⟩⟩
  · exact ⟨j, .inr ⟨hj, h, cosEntry_of_oppositeCos f n x u j hj h⟩⟩

/-! ### The cosines -/

/-- A full turn is 4N steps of the angle. -/
theorem basisCos_mod (n k : Nat) (hn : 1 ≤ n) : basisCos n k = basisCos n (k % (4 * n)) := by
  have hn0 : (n : ℝ) ≠ 0 := Nat.cast_ne_zero.2 (by omega)
  have hk : (k : ℝ) = (k % (4 * n) : Nat) + (k / (4 * n) : Nat) * (4 * n) := by
    exact_mod_cast (Nat.mod_add_div' k (4 * n)).symm
  have hangle : Real.pi * k / (2 * n) =
      Real.pi * (k % (4 * n) : Nat) / (2 * n) + (k / (4 * n) : Nat) * (2 * Real.pi) := by
    rw [hk]
    field_simp
    ring
  rw [basisCos, hangle, Real.cos_add_nat_mul_two_pi, basisCos]

theorem basisCos_of_sameCos (n k j : Nat) (hn : 1 ≤ n) (h : SameCos n k j) : basisCos n k = basisCos n j := by
  have hn0 : (n : ℝ) ≠ 0 := Nat.cast_ne_zero.2 (by omega)
  rw [basisCos_mod n k hn]
  rcases h with h | h
  · rw [h]
  · have hm : ((k % (4 * n) : Nat) : ℝ) = 4 * n - j := by rw [eq_sub_iff_add_eq]; exact_mod_cast h
    have hangle : Real.pi * (4 * n - j) / (2 * n) = 2 * Real.pi - Real.pi * j / (2 * n) := by field_simp; ring
    rw [basisCos, hm, hangle, Real.cos_two_pi_sub, basisCos]

theorem basisCos_of_oppositeCos (n k j : Nat) (hn : 1 ≤ n) (h : OppositeCos n k j) : basisCos n k = -basisCos n j := by
  have hn0 : (n : ℝ) ≠ 0 := Nat.cast_ne_zero.2 (by omega)
  rw [basisCos_mod n k hn]
  rcases h with h | h
  · have hm : ((k % (4 * n) : Nat) : ℝ) = 2 * n - j := by rw [eq_sub_iff_add_eq]; exact_mod_cast h
    have hangle : Real.pi * (2 * n - j) / (2 * n) = Real.pi - Real.pi * j / (2 * n) := by field_simp
    rw [basisCos, hm, hangle, Real.cos_pi_sub, basisCos]
  · have hangle : Real.pi * (2 * n + j) / (2 * n) = Real.pi * j / (2 * n) + Real.pi := by field_simp; ring
    rw [h, basisCos]
    push_cast
    rw [hangle, Real.cos_add_pi, basisCos]

/-- Every entry of C_N is RN of its cosine. -/
theorem isNearest_cosEntry (f : Fmt) (n x u : Nat) (hn : 1 ≤ n) (hn64 : n ≤ 64) :
    IsNearest f (cosEntry f n x u) (basisCos n ((2 * x + 1) * u)) := by
  obtain ⟨j, ⟨hj, h, he⟩ | ⟨hj, h, he⟩⟩ := cosEntry_cases f n x u hn
  · rw [he, basisCos_of_sameCos n _ j hn h]
    exact isNearest_cosBasis f n j hn hn64 hj
  · rw [he, basisCos_of_oppositeCos n _ j hn h]
    exact (isNearest_cosBasis f n j hn hn64 hj.le).neg

/-- Settles O56: each entry reduces to one of the basis, whose cosine lies between the midpoints to its neighbours. -/
theorem cosineEntriesAreRounded : Obligations.CosineEntriesAreRounded := by
  intro f n x u e hn hn64 _ _ hfin
  have hangle : Real.cos (Real.pi * (2 * x + 1) * u / (2 * n)) = basisCos n ((2 * x + 1) * u) := by
    rw [basisCos]
    push_cast
    rw [mul_assoc]
  obtain ⟨hentry, hnear⟩ := isNearest_cosEntry f n x u hn hn64
  rw [hangle]
  exact ⟨hentry, hnear e hfin⟩

/-! ### The exact entries -/

/-- The residue by half a turn, from the residue by a full turn. -/
theorem mod_two_mul (n k : Nat) (hn : 1 ≤ n) :
    k % (2 * n) = if k % (4 * n) < 2 * n then k % (4 * n) else k % (4 * n) - 2 * n := by
  have hm : k % (4 * n) < 4 * n := Nat.mod_lt k (by omega)
  rw [← Nat.mod_mod_of_dvd k (show 2 * n ∣ 4 * n from ⟨2, by ring⟩)]
  split
  · rw [Nat.mod_eq_of_lt ‹_›]
  · rw [Nat.mod_eq_sub_mod (by omega), Nat.mod_eq_of_lt (by omega)]

/-- An odd number of quarter turns. -/
theorem sameCos_of_quarter (n k : Nat) (hn : 1 ≤ n) (h : k % (2 * n) = n) : SameCos n k n := by
  have hm := mod_two_mul n k hn
  unfold SameCos
  split at hm <;> omega

/-- The reduced angle by the residue of half a turn. -/
theorem reduced_mod_two_mul (n k j : Nat) (hn : 1 ≤ n) (hj : j ≤ n) (h : SameCos n k j ∨ OppositeCos n k j) :
    k % (2 * n) = j ∨ (0 < j ∧ k % (2 * n) + j = 2 * n) := by
  have hm : k % (4 * n) < 4 * n := Nat.mod_lt k (by omega)
  rw [mod_two_mul n k hn]
  unfold SameCos OppositeCos at h
  split <;> omega

/-- Up to its sign an entry is one of the basis. -/
theorem magnitude_cosEntry (f : Fmt) (n x u : Nat) (hn : 1 ≤ n) :
    ∃ j ≤ n, (SameCos n ((2 * x + 1) * u) j ∨ OppositeCos n ((2 * x + 1) * u) j) ∧
      magnitude f (cosEntry f n x u) = magnitude f (cosBasis f n j) := by
  obtain ⟨j, ⟨hj, h, he⟩ | ⟨hj, h, he⟩⟩ := cosEntry_cases f n x u hn
  · exact ⟨j, hj, .inl h, by rw [he]⟩
  · exact ⟨j, hj.le, .inr h, by rw [he, magnitude_negEntry]⟩

theorem negEntry_cosBasis_first (f : Fmt) (n : Nat) (hn : 1 ≤ n) (hn64 : n ≤ 64) :
    negEntry f (cosBasis f n 0) = BitVec.ofNat 64 (2 ^ (f.width - 1) + oneBits f) := by
  rw [cosBasis_first f n hn hn64]
  cases f <;> decide

/-- Settles O57, by the reduced angle of the entry: 0, N or one between. -/
theorem exactCosineEntries : Obligations.ExactCosineEntries := by
  intro f n x u hn hn64 _ _ k one e
  have hone : one = oneBits f := by cases f <;> rfl
  rw [hone]
  refine ⟨fun h => ?_, fun h => ?_, fun h => ?_, fun h0 hquarter => ?_⟩
  · rw [← cosBasis_first f n hn hn64]
    exact cosEntry_of_sameCos f n x u 0 hn (Nat.zero_le n) (.inl h)
  · rw [← negEntry_cosBasis_first f n hn hn64]
    exact cosEntry_of_oppositeCos f n x u 0 hn (.inr h)
  · rw [← cosBasis_last f n hn hn64]
    exact cosEntry_of_sameCos f n x u n hn le_rfl (sameCos_of_quarter n k hn h)
  · obtain ⟨j, hj, hred, hmag⟩ := magnitude_cosEntry f n x u hn
    have hmod := reduced_mod_two_mul n k j hn hj hred
    clear_value k
    obtain ⟨hne, hlt, hhalf⟩ := magnitude_cosBasis f n j hn64 (by omega) (by omega)
    have hthree : 3 * k % (6 * n) = 3 * (k % (2 * n)) := by
      rw [show 6 * n = 3 * (2 * n) by omega, Nat.mul_mod_mul_left]
    rw [show magnitude f e = _ from hmag, hthree, hhalf]
    exact ⟨hne, hlt, by omega⟩

/-! ### The symmetry -/

/-- The index of the mirrored row completes that of a row to u half turns. -/
theorem mirrored_add_mod (n x u : Nat) (hx : x < n) :
    ((2 * x + 1) * u + (2 * (n - 1 - x) + 1) * u) % (4 * n) = 2 * n * (u % 2) := by
  rw [← Nat.add_mul, show 2 * x + 1 + (2 * (n - 1 - x) + 1) = 2 * n by omega, ← Nat.mul_mod_mul_left,
    show 2 * n * 2 = 4 * n by omega]

/-- The residues of two indices add up to that of their sum, or to a full turn more. -/
theorem residues_add (n k l : Nat) :
    k % (4 * n) + l % (4 * n) = (k + l) % (4 * n) ∨ k % (4 * n) + l % (4 * n) = (k + l) % (4 * n) + 4 * n := by
  rw [Nat.add_mod_eq_ite]
  split <;> omega

/-- Angles that complete each other to full turns have the same cosine. -/
theorem reduced_of_full_turn (n k l j : Nat) (hn : 1 ≤ n) (hj : j ≤ n) (h : (k + l) % (4 * n) = 0) :
    (SameCos n k j → SameCos n l j) ∧ (OppositeCos n k j → OppositeCos n l j) := by
  have hsum := residues_add n k l
  have hk : k % (4 * n) < 4 * n := Nat.mod_lt k (by omega)
  unfold SameCos OppositeCos
  omega

/-- Angles that complete each other to half a turn, up to full turns, have opposite cosines. -/
theorem reduced_of_half_turn (n k l j : Nat) (hn : 1 ≤ n) (hj : j ≤ n) (h : (k + l) % (4 * n) = 2 * n) :
    (SameCos n k j → OppositeCos n l j) ∧ (OppositeCos n k j → SameCos n l j) := by
  have hsum := residues_add n k l
  have hk : k % (4 * n) < 4 * n := Nat.mod_lt k (by omega)
  have hl : l % (4 * n) < 4 * n := Nat.mod_lt l (by omega)
  unfold SameCos OppositeCos
  omega

/-- At a quarter turn the opposite cosine is the same one. -/
theorem sameCos_of_oppositeCos_quarter (n k : Nat) (h : OppositeCos n k n) : SameCos n k n := by
  unfold OppositeCos at h
  unfold SameCos
  omega

/-- Settles O58: the mirrored row has the same reduced angle, in the quadrant u half turns away. -/
theorem cosineTableSymmetry : Obligations.CosineTableSymmetry := by
  intro f n x u hn hn64 hx _
  have hsum := mirrored_add_mod n x u hx
  obtain ⟨j, hred⟩ := cosEntry_cases f n x u hn
  split
  case isTrue heven =>
    rw [heven, Nat.mul_zero] at hsum
    rcases hred with ⟨hj, h, he⟩ | ⟨hj, h, he⟩
    · rw [he]
      exact cosEntry_of_sameCos f n _ u j hn hj ((reduced_of_full_turn n _ _ j hn hj hsum).1 h)
    · rw [he]
      exact cosEntry_of_oppositeCos f n _ u j hj ((reduced_of_full_turn n _ _ j hn hj.le hsum).2 h)
  case isFalse hodd =>
    rw [Nat.mod_two_ne_zero.1 hodd, Nat.mul_one] at hsum
    rcases hred with ⟨hj, h, he⟩ | ⟨hj, h, he⟩
    · have hopp := (reduced_of_half_turn n _ _ j hn hj hsum).1 h
      rw [he]
      rcases hj.lt_or_eq with hlt | rfl
      · exact cosEntry_of_oppositeCos f n _ u j hlt hopp
      · rw [cosEntry_of_sameCos f j _ u j hn le_rfl (sameCos_of_oppositeCos_quarter j _ hopp), cosBasis_last f j hn hn64]
        cases f <;> decide
    · rw [he, negEntry_negEntry f _ (isZero_cosBasis f n j hn64 hj)]
      exact cosEntry_of_sameCos f n _ u j hn hj.le ((reduced_of_half_turn n _ _ j hn hj.le hsum).2 h)

/-! ### The alpha table and the bounds -/

/-- Settles O59: the square of the exact root lies between the squares of the midpoints. -/
theorem alphaEntriesAreRounded : Obligations.AlphaEntriesAreRounded := by
  intro f n u e _ hn64 hu hfin
  rw [alphaEntry_alphaTable f n u hu]
  split
  case isTrue h0 =>
    obtain ⟨hentry, hnear⟩ := isNearest_alphaLut f n 0 hn64 (by omega) (by omega)
    simp only [Nat.cast_zero, zero_add] at hnear
    exact ⟨hentry, hnear e hfin⟩
  case isFalse h0 =>
    obtain ⟨hentry, hnear⟩ := isNearest_alphaLut f n 1 hn64 (by omega) (by omega)
    simp only [Nat.cast_one, one_add_one_eq_two] at hnear
    exact ⟨hentry, hnear e hfin⟩

theorem inUnitRange_cosEntry (f : Fmt) (n x u : Nat) (hn : 1 ≤ n) (hn64 : n ≤ 64) : InUnitRange f (cosEntry f n x u) := by
  obtain ⟨j, ⟨hj, -, he⟩ | ⟨hj, -, he⟩⟩ := cosEntry_cases f n x u hn
  · rw [he]
    exact inUnitRange_of_le_one f _ (cosBasis_le_one f n j hn hn64 hj)
  · rw [he]
    exact (inUnitRange_of_le_one f _ (cosBasis_le_one f n j hn hn64 hj.le)).neg

/-- Settles O60: the stored entries are at most 1.0 as patterns, and negation keeps magnitude and width. -/
theorem tableEntriesAreBounded : Obligations.TableEntriesAreBounded := by
  intro f n x u hn hn64 _ hu
  have hone : (alphaEntry (alphaTable f n) u).toNat ≤ oneBits f := by
    rw [alphaEntry_alphaTable f n u hu]
    exact alphaLut_le_one f n _ hn64 (by split <;> omega) (by split <;> omega)
  obtain ⟨hcfin, hcmag, hcfits⟩ := inUnitRange_cosEntry f n x u hn hn64
  obtain ⟨hafin, hamag, hafits⟩ := inUnitRange_of_le_one f _ hone
  exact ⟨hcfin, hcmag, hafin, hamag, isNeg_eq_false_of_lt f _ (lt_signBit_of_le_one f _ hone), hcfits, hafits⟩

end Sys2Proof.Machine
end

section
/-! SUPPORT. The operand of a transform: the bytes of an IN slot, each the stored one or a free value (20_memory.md R49, R50;
10_state.md R41; 41_datapath.md R110). -/

namespace Sys2Proof.Machine

theorem State.elemAt_binary64 (s : State) (n off : Nat) (hf : s.build.fmt = .binary64) :
    s.elemAt n off = s.wordAt (2 * n + 1) (off + 4) ++ s.wordAt (2 * n) off := by
  rw [State.elemAt, hf]

theorem State.elemAt_binary32 (s : State) (n off : Nat) (hf : s.build.fmt = .binary32) :
    s.elemAt n off = (0 : Word) ++ s.wordAt (2 * n) off := by
  rw [State.elemAt, hf]

/-- A word of four stored bytes is those bytes, little-endian, whichever read of the step it is (R49). -/
theorem State.wordAt_of_load (s : State) (n off : Nat) (b : Nat → Byte)
    (h : ∀ k, k < 4 → s.mem.load (off + k) = some (b k)) :
    s.wordAt n off = b 3 ++ b 2 ++ b 1 ++ b 0 := by
  rw [State.wordAt, s.byteAt_of_load _ off _ (h 0 (by decide)), s.byteAt_of_load _ _ _ (h 1 (by decide)),
    s.byteAt_of_load _ _ _ (h 2 (by decide)), s.byteAt_of_load _ _ _ (h 3 (by decide)), Word.ofLanes]

/-- A byte of a word below another word. -/
theorem lane_append_low (hi lo : Word) (k : Nat) (hk : k < 4) :
    (hi ++ lo : Elem).extractLsb' (8 * k) 8 = lo.extractLsb' (8 * k) 8 :=
  BitVec.extractLsb'_append_eq_of_add_le (by omega)

/-- A byte of a word above another word. -/
theorem lane_append_high (hi lo : Word) (k : Nat) (hk : 4 ≤ k) :
    (hi ++ lo : Elem).extractLsb' (8 * k) 8 = hi.extractLsb' (8 * (k - 4)) 8 := by
  rw [BitVec.extractLsb'_append_eq_of_le (by omega), Nat.mul_sub]

/-- Byte `k` of an element read is byte `k` of its slot, and draw `8 n + k` of the step if that is unspecified (R41). -/
theorem State.lane_elemAt (s : State) (n off k : Nat) (hk : k < elemBytes s.build.fmt) :
    (s.elemAt n off).extractLsb' (8 * k) 8 = s.byteAt (8 * n + k) (off + k) := by
  have hlow (h : k < 4) : (s.wordAt (2 * n) off).extractLsb' (8 * k) 8 = s.byteAt (8 * n + k) (off + k) := by
    rw [s.lane_wordAt _ _ k h, ← Nat.mul_assoc]
  cases hf : s.build.fmt with
  | binary64 =>
    rw [hf] at hk
    rw [s.elemAt_binary64 n off hf]
    rcases Nat.lt_or_ge k 4 with h | h
    · rw [lane_append_low _ _ k h, hlow h]
    · rw [lane_append_high _ _ k h, s.lane_wordAt _ _ (k - 4) (by change k < 8 at hk; omega)]
      congr 1 <;> omega
  | binary32 =>
    rw [hf] at hk
    rw [s.elemAt_binary32 n off hf, lane_append_low _ _ k hk, hlow hk]

/-- Settles O21: the words of a slot of stored bytes are those bytes, and a byte that is not stored is its draw. -/
theorem operandIsTheSlot : Obligations.OperandIsTheSlot := by
  refine fun s n r c => ⟨fun b hb => ?_, fun k hk hnone => ?_⟩
  · rw [State.readIn, matrixSlot, inBase]
    generalize 0x08000 + 512 * r + 8 * c = slot at hb ⊢
    cases hf : s.build.fmt with
    | binary64 =>
      rw [hf] at hb
      have hlow := s.wordAt_of_load (2 * n) slot b fun k hk => hb k (hk.trans (by decide))
      have hhigh := s.wordAt_of_load (2 * n + 1) (slot + 4) (fun k => b (4 + k)) fun k hk => by
        rw [Nat.add_assoc]
        exact hb (4 + k) (Nat.add_lt_add_left hk 4)
      rw [s.elemAt_binary64 n slot hf, hlow, hhigh]
    | binary32 =>
      rw [hf] at hb
      rw [s.elemAt_binary32 n slot hf, s.wordAt_of_load (2 * n) slot b hb]
  · rw [State.readIn, s.lane_elemAt n _ k hk, State.byteAt, matrixSlot, inBase, hnone, Option.getD_none]

end Sys2Proof.Machine
end

section
/-! SUPPORT. RN (41_datapath.md R97): it rounds to one of the two neighbouring elements, by the midpoint between them. -/

namespace Sys2Proof.Machine

/-! ### The kept bits -/

/-- The magnitude whose exponent and fraction lay out `q` kept bits, the unit of the last being 2^j: where `j` is not 0, the
leading bit is kept. -/
theorem magnitudeOfLow_layout (f : Fmt) (j q : Nat) (hle : q ≤ 2 ^ f.prec) (hlead : j ≠ 0 → 2 ^ f.fracBits ≤ q) :
    magnitudeOfLow f (j * 2 ^ f.fracBits + q) = q * 2 ^ j := by
  rw [Fmt.prec, Nat.pow_succ] at hle
  have hp : 0 < 2 ^ f.fracBits := Nat.two_pow_pos _
  unfold magnitudeOfLow
  generalize 2 ^ f.fracBits = p at hle hlead hp ⊢
  rw [Nat.add_comm, Nat.add_mul_div_right _ _ hp, Nat.add_mul_mod_self_right]
  rcases Nat.lt_or_ge q p with hq | hq
  · obtain rfl : j = 0 := by
      by_contra hj
      exact absurd (hlead hj) (by omega)
    simp [Nat.div_eq_of_lt hq, Nat.mod_eq_of_lt hq]
  · obtain ⟨r, rfl⟩ := Nat.exists_eq_add_of_le hq
    rw [Nat.add_div_left _ hp, Nat.add_mod_left, Nat.succ_add, if_neg (Nat.succ_ne_zero _), Nat.succ_eq_add_one,
      Nat.add_sub_cancel]
    rcases Nat.lt_or_ge r p with hr | hr
    · rw [Nat.div_eq_of_lt hr, Nat.mod_eq_of_lt hr, Nat.zero_add]
    · obtain rfl : r = p := by omega
      rw [Nat.div_self hp, Nat.mod_self, Nat.pow_add]
      ring

/-- How many bits of `n` are rounded away: `d` of them lie below the smallest subnormal, and at most p are kept. -/
def droppedBits (f : Fmt) (n d : Nat) : Nat := max d (Nat.log2 n + 1 - f.prec)

theorem roundedLow_eq (f : Fmt) (n d : Nat) :
    roundedLow f n d = (droppedBits f n d - d) * 2 ^ f.fracBits + roundNearestEven n (droppedBits f n d) := rfl

theorem le_droppedBits (f : Fmt) (n d : Nat) : d ≤ droppedBits f n d := le_max_left _ _

/-- At most p bits are kept, and exactly p where more than `d` are dropped. -/
theorem keptBits_bounds (f : Fmt) (n d : Nat) :
    n / 2 ^ droppedBits f n d < 2 ^ f.prec ∧
      (droppedBits f n d - d ≠ 0 → 2 ^ f.fracBits ≤ n / 2 ^ droppedBits f n d) := by
  unfold droppedBits
  constructor
  · rw [Nat.div_lt_iff_lt_mul (Nat.two_pow_pos _), ← Nat.pow_add]
    exact Nat.lt_log2_self.trans_le (Nat.pow_le_pow_right (by omega) (by omega))
  · intro hj
    have hn : n ≠ 0 := by
      rintro rfl
      simp [Fmt.prec] at hj
    rw [Nat.le_div_iff_mul_le (Nat.two_pow_pos _), ← Nat.pow_add]
    exact (Nat.pow_le_pow_right (by omega) (by rw [Fmt.prec] at hj ⊢; omega)).trans (Nat.log2_self_le hn)

/-- The kept bits are counted up past the middle of the last unit, and on it if they are odd. -/
theorem roundNearestEven_eq (n k : Nat) :
    roundNearestEven n k =
      if (2 * (n / 2 ^ k) + 1) * 2 ^ k < 2 * n ∨ ((2 * (n / 2 ^ k) + 1) * 2 ^ k = 2 * n ∧ n / 2 ^ k % 2 = 1) then
        n / 2 ^ k + 1
      else n / 2 ^ k := by
  have hsplit : 2 * n = 2 * (n / 2 ^ k) * 2 ^ k + 2 * (n % 2 ^ k) := by
    conv_lhs => rw [← Nat.div_add_mod n (2 ^ k)]
    ring
  unfold roundNearestEven
  rw [Nat.shiftRight_eq_div_pow, Nat.add_mul, Nat.one_mul, hsplit]
  simp only [Nat.add_lt_add_iff_left, Nat.add_left_cancel_iff, eq_comm]

theorem even_two_pow_fracBits (f : Fmt) : 2 ^ f.fracBits % 2 = 0 := by cases f <;> decide

/-! ### The two neighbours -/

/-- The low bits of RN are those of the neighbour below or above: above from the midpoint on, a tie going to the even one. -/
theorem roundedLow_spec (f : Fmt) (n d : Nat) :
    ∃ b, magnitudeOfLow f b * 2 ^ d ≤ n ∧ n < magnitudeOfLow f (b + 1) * 2 ^ d ∧
      roundedLow f n d =
        if midpoint f b * 2 ^ d < 2 * n ∨ (midpoint f b * 2 ^ d = 2 * n ∧ b % 2 = 1) then b + 1 else b := by
  obtain ⟨hle, hlead⟩ := keptBits_bounds f n d
  have hd := le_droppedBits f n d
  rw [roundedLow_eq, roundNearestEven_eq]
  generalize droppedBits f n d = k at hle hlead hd ⊢
  have hscale (q : Nat) : q * 2 ^ (k - d) * 2 ^ d = q * 2 ^ k := by
    rw [Nat.mul_assoc, ← Nat.pow_add, Nat.sub_add_cancel hd]
  have hparity (q : Nat) : ((k - d) * 2 ^ f.fracBits + q) % 2 = q % 2 := by
    rw [Nat.add_mod, Nat.mul_mod, even_two_pow_fracBits]
    simp
  have hbelow := magnitudeOfLow_layout f (k - d) (n / 2 ^ k) hle.le hlead
  have habove := magnitudeOfLow_layout f (k - d) (n / 2 ^ k + 1) hle fun hj => (hlead hj).trans (Nat.le_succ _)
  rw [← Nat.add_assoc] at habove
  refine ⟨(k - d) * 2 ^ f.fracBits + n / 2 ^ k, ?_, ?_, ?_⟩
  · rw [hbelow, hscale]
    exact Nat.div_mul_le_self n _
  · rw [habove, hscale]
    exact (Nat.div_lt_iff_lt_mul (Nat.two_pow_pos k)).1 (Nat.lt_succ_self _)
  · rw [midpoint, hbelow, habove, ← Nat.add_mul, hscale, hparity, ← Nat.add_assoc, ← Nat.two_mul]
    split <;> rfl

/-- RN goes above the element with the low bits `b` from the midpoint over it on, on a tie if `b` is odd (R97). -/
theorem lt_roundedLow_iff (f : Fmt) (n d b : Nat) :
    b < roundedLow f n d ↔ midpoint f b * 2 ^ d < 2 * n ∨ (midpoint f b * 2 ^ d = 2 * n ∧ b % 2 = 1) := by
  obtain ⟨c, hbelow, habove, heq⟩ := roundedLow_spec f n d
  have hlt {x y : Nat} (h : x < y) : x * 2 ^ d < y * 2 ^ d := Nat.mul_lt_mul_of_pos_right h (Nat.two_pow_pos d)
  rw [heq]
  rcases Nat.lt_trichotomy b c with hb | rfl | hb
  · have hstep := magnitudeOfLow_strictMono f (Nat.lt_add_one b)
    have hle := (magnitudeOfLow_strictMono f).monotone (show b + 1 ≤ c from hb)
    have := hlt (show midpoint f b < 2 * magnitudeOfLow f c by rw [midpoint]; omega)
    rw [Nat.mul_assoc] at this
    exact iff_of_true (by split <;> omega) (.inl (by omega))
  · split
    case isTrue h => exact iff_of_true (Nat.lt_add_one b) h
    case isFalse h => exact iff_of_false (Nat.lt_irrefl b) h
  · have hstep := magnitudeOfLow_strictMono f (Nat.lt_add_one b)
    have hle := (magnitudeOfLow_strictMono f).monotone (show c + 1 ≤ b from hb)
    have := hlt (show 2 * magnitudeOfLow f (c + 1) < midpoint f b by rw [midpoint]; omega)
    rw [Nat.mul_assoc] at this
    exact iff_of_false (by split <;> omega) (by omega)

theorem two_mul_le_midpoint_roundedLow (f : Fmt) (n d : Nat) :
    2 * n ≤ midpoint f (roundedLow f n d) * 2 ^ d ∧
      (midpoint f (roundedLow f n d) * 2 ^ d = 2 * n → roundedLow f n d % 2 = 0) := by
  have h := (lt_roundedLow_iff f n d _).not.1 (Nat.lt_irrefl _)
  omega

theorem midpoint_below_roundedLow_le (f : Fmt) (n d b : Nat) (hb : roundedLow f n d = b + 1) :
    midpoint f b * 2 ^ d ≤ 2 * n ∧ (midpoint f b * 2 ^ d = 2 * n → roundedLow f n d % 2 = 0) := by
  have h := (lt_roundedLow_iff f n d b).1 (by omega)
  omega

/-! ### The nearest magnitude -/

/-- Of two neighbours `a ≤ a'`, a point up to their midpoint is no farther from `a` than from anything beyond `a'`, and as far
only at the midpoint. -/
theorem abs_sub_le_of_neighbour_above (a a' y v : Int) (ha : a < a') (hmid : 2 * v ≤ a + a') (hy : a' ≤ y) :
    |a - v| ≤ |y - v| ∧ (|a - v| = |y - v| → a + a' = 2 * v) := by
  rw [abs_of_nonneg (by omega : 0 ≤ y - v)]
  rcases abs_cases (a - v) with ⟨h, _⟩ | ⟨h, _⟩ <;> omega

theorem abs_neg_sub_neg (x v : Int) : |-x - -v| = |x - v| := by rw [neg_sub_neg, abs_sub_comm]

theorem abs_sub_le_of_neighbour_below (a' a y v : Int) (ha : a' < a) (hmid : a' + a ≤ 2 * v) (hy : y ≤ a') :
    |a - v| ≤ |y - v| ∧ (|a - v| = |y - v| → a' + a = 2 * v) := by
  have h := abs_sub_le_of_neighbour_above (-a) (-a') (-y) (-v) (by omega) (by omega) (by omega)
  rw [abs_neg_sub_neg, abs_neg_sub_neg] at h
  omega

/-- No value of an element is nearer to `n / 2^d` than the rounded magnitude, and one as near means that the last bit kept is
even (R97). -/
theorem roundedLow_nearest (f : Fmt) (n d : Nat) (e : Elem) :
    |(magnitudeOfLow f (roundedLow f n d) : Int) * 2 ^ d - n| ≤ |exactValue f e * 2 ^ d - n| ∧
      (|(magnitudeOfLow f (roundedLow f n d) : Int) * 2 ^ d - n| = |exactValue f e * 2 ^ d - n| →
        (magnitudeOfLow f (roundedLow f n d) : Int) ≠ exactValue f e → roundedLow f n d % 2 = 0) := by
  obtain ⟨hup, hupTie⟩ := two_mul_le_midpoint_roundedLow f n d
  have hdown := midpoint_below_roundedLow_le f n d
  have hgap := exactValue_outside_gap f e
  have hstep (b : Nat) := magnitudeOfLow_strictMono f (Nat.lt_add_one b)
  generalize roundedLow f n d = low at hup hupTie hdown ⊢
  generalize exactValue f e = y at hgap ⊢
  have hmono {x y : Int} (h : x ≤ y) : x * 2 ^ d ≤ y * 2 ^ d := Int.mul_le_mul_of_nonneg_right h (by positivity)
  have hscale (b : Nat) : (magnitudeOfLow f b : Int) * 2 ^ d < magnitudeOfLow f (b + 1) * 2 ^ d := by
    exact_mod_cast Nat.mul_lt_mul_of_pos_right (hstep b) (Nat.two_pow_pos d)
  have hmid (b : Nat) : ((midpoint f b * 2 ^ d : Nat) : Int) =
      magnitudeOfLow f b * 2 ^ d + magnitudeOfLow f (b + 1) * 2 ^ d := by
    rw [midpoint]
    push_cast
    ring
  rcases lt_trichotomy y (magnitudeOfLow f low) with hy | hy | hy
  · cases low with
    | zero =>
      rw [magnitudeOfLow_zero] at hy ⊢
      have hneg : y * 2 ^ d < 0 * 2 ^ d := Int.mul_lt_mul_of_pos_right hy (by positivity)
      exact ⟨(abs_sub_le_of_neighbour_below _ _ _ _ hneg (by omega) le_rfl).1, fun _ _ => rfl⟩
    | succ b =>
      obtain ⟨hlow, hlowTie⟩ := hdown b rfl
      have hyb : y ≤ magnitudeOfLow f b := (hgap b).resolve_right (not_le.2 hy)
      obtain ⟨hle, htie⟩ := abs_sub_le_of_neighbour_below _ _ _ n (hscale b) (by rw [← hmid]; omega) (hmono hyb)
      exact ⟨hle, fun heq _ => hlowTie (by exact_mod_cast (hmid b).trans (htie heq))⟩
  · exact ⟨by rw [hy], fun _ hne => absurd hy.symm hne⟩
  · have hyb : (magnitudeOfLow f (low + 1) : Int) ≤ y := (hgap low).resolve_left (not_le.2 hy)
    obtain ⟨hle, htie⟩ := abs_sub_le_of_neighbour_above _ _ _ n (hscale low) (by rw [← hmid]; omega) (hmono hyb)
    exact ⟨hle, fun heq _ => hupTie (by exact_mod_cast (hmid low).trans (htie heq))⟩

/-! ### RN -/

theorem lowBits_packElem (f : Fmt) (neg : Bool) (low : Nat) (h : low < 2 ^ (f.width - 1)) :
    lowBits f (packElem f neg low) = low := by
  rw [lowBits, packElem_toNat f neg low h]
  cases neg
  · rw [if_neg Bool.false_ne_true, Nat.zero_add, Nat.mod_eq_of_lt h]
  · rw [if_pos rfl, Nat.add_mod_left, Nat.mod_eq_of_lt h]

theorem isInf_iff_lowBits (f : Fmt) (e : Elem) : isInf f e = true ↔ lowBits f e = f.expOnes * 2 ^ f.fracBits := by
  rw [isInf, Bool.and_eq_true, decide_eq_true_eq, decide_eq_true_eq, expField_eq_lowBits, fracField_eq_lowBits]
  constructor
  · rintro ⟨hexp, hfrac⟩
    rw [← Nat.div_add_mod (lowBits f e) (2 ^ f.fracBits), hexp, hfrac, Nat.mul_comm, Nat.add_zero]
  · intro h
    rw [h, Nat.mul_div_cancel _ (Nat.two_pow_pos _), Nat.mul_mod_left]
    exact ⟨rfl, rfl⟩

theorem lowBits_rn (f : Fmt) (neg : Bool) (n d : Nat) :
    lowBits f (rn f neg n d) = min (roundedLow f n d) (f.expOnes * 2 ^ f.fracBits) := by
  unfold rn
  split
  case isTrue h => rw [lowBits_packElem f neg _ (h.trans (infLow_lt f)), min_eq_left h.le]
  case isFalse h => rw [infElem, lowBits_packElem f neg _ (infLow_lt f), min_eq_right (not_lt.1 h)]

/-- The midpoint between the greatest finite magnitude and the next: twice the threshold (2 − 2^(−p))·2^emax of R97. -/
theorem midpoint_below_infinity (f : Fmt) :
    midpoint f (f.expOnes * 2 ^ f.fracBits - 1) = 2 * ((2 ^ (f.prec + 1) - 1) * 2 ^ (2 ^ f.expBits - 4)) := by
  cases f <;> decide +kernel

/-- RN overflows exactly from the threshold on: the greatest finite magnitude is odd, so the tie goes up. -/
theorem isInf_rn_iff (f : Fmt) (neg : Bool) (n d : Nat) :
    isInf f (rn f neg n d) = true ↔ (2 ^ (f.prec + 1) - 1) * 2 ^ (2 ^ f.expBits - 4) * 2 ^ d ≤ n := by
  have hodd : (f.expOnes * 2 ^ f.fracBits - 1) % 2 = 1 := by cases f <;> decide
  have hpos : 0 < f.expOnes * 2 ^ f.fracBits := by cases f <;> decide
  have hlt := lt_roundedLow_iff f n d (f.expOnes * 2 ^ f.fracBits - 1)
  rw [midpoint_below_infinity, Nat.mul_assoc] at hlt
  rw [isInf_iff_lowBits, lowBits_rn]
  omega

/-- A result of RN that is not infinite is finite, with the rounded low bits. -/
theorem rn_finite (f : Fmt) (neg : Bool) (n d : Nat) (h : isInf f (rn f neg n d) = false) :
    isFinite f (rn f neg n d) = true ∧ lowBits f (rn f neg n d) = roundedLow f n d := by
  have hne := (isInf_iff_lowBits f (rn f neg n d)).not.1 (by simp [h])
  rw [isFinite_iff_lowBits]
  rw [lowBits_rn] at hne ⊢
  omega

theorem exactValue_rn (f : Fmt) (neg : Bool) (n d : Nat) (h : isInf f (rn f neg n d) = false) :
    exactValue f (rn f neg n d) =
      if neg then -(magnitudeOfLow f (roundedLow f n d) : Int) else magnitudeOfLow f (roundedLow f n d) := by
  rw [exactValue, isNeg_rn, magnitude_eq_magnitudeOfLow, (rn_finite f neg n d h).2]

theorem fracField_rn_mod_two (f : Fmt) (neg : Bool) (n d : Nat) (h : isInf f (rn f neg n d) = false) :
    fracField f (rn f neg n d) % 2 = roundedLow f n d % 2 := by
  rw [fracField_eq_lowBits, (rn_finite f neg n d h).2,
    Nat.mod_mod_of_dvd _ (Nat.dvd_of_mod_eq_zero (even_two_pow_fracBits f))]

/-- Settles O51: the rounded magnitude is nearest, and a negative value is its mirror image. -/
theorem rnRoundsToNearestEven : Obligations.RnRoundsToNearestEven := by
  intro f neg n d v r
  refine ⟨isNeg_rn f neg n d, ?_, fun hinf => ⟨(rn_finite f neg n d hinf).1, fun e _ => ?_⟩⟩
  · convert isInf_rn_iff f neg n d using 5
    cases f <;> rfl
  · rw [exactValue_rn f neg n d hinf, fracField_rn_mod_two f neg n d hinf]
    cases neg
    case false => exact roundedLow_nearest f n d e
    case true =>
      have hmirror := roundedLow_nearest f n d (negEntry f e)
      have hneg (x : Int) : |-x * 2 ^ d - v| = |x * 2 ^ d - n| := by rw [Int.neg_mul]; exact abs_neg_sub_neg _ _
      rw [exactValue_negEntry, ← hneg (-exactValue f e), ← hneg, neg_neg, ne_eq, ← neg_eq_iff_eq_neg] at hmirror
      exact hmirror

end Sys2Proof.Machine
end

section
/-! SUPPORT. FMUL, FADD and DOT by their rules (41_datapath.md R98 to R107). -/

namespace Sys2Proof.Machine

/-! ### The classes of elements -/

/-- An element is finite, infinite or a NaN, and only one of these (R96). -/
theorem isFinite_iff (f : Fmt) (e : Elem) : isFinite f e = true ↔ isNaN f e = false ∧ isInf f e = false := by
  rw [isFinite, isNaN, isInf]
  by_cases hexp : expField f e = f.expOnes <;> by_cases hfrac : fracField f e = 0 <;> simp [hexp, hfrac]

theorem isFinite_of_isZero (f : Fmt) (e : Elem) (h : isZero f e = true) : isFinite f e = true := by
  rw [isFinite_iff_lowBits, (isZero_iff_lowBits f e).1 h]
  cases f <;> decide

/-- Two patterns of W bits with the same sign and the same bits below it are equal. -/
theorem eq_of_lowBits (f : Fmt) (a b : Elem) (ha : Fits f a) (hb : Fits f b) (hneg : isNeg f a = isNeg f b)
    (hlow : lowBits f a = lowBits f b) : a = b := by
  obtain ⟨la, hla, ha⟩ := packElem_of_fits f a ha
  obtain ⟨lb, hlb, hb⟩ := packElem_of_fits f b hb
  rw [ha, hb, lowBits_packElem f _ la hla, lowBits_packElem f _ lb hlb] at hlow
  rw [ha, hb, hneg, hlow]

theorem eq_zeroElem (f : Fmt) (e : Elem) (hf : Fits f e) (h : isZero f e = true) : e = zeroElem f (isNeg f e) :=
  eq_of_lowBits f _ _ hf (zeroElem_fits f _) (isNeg_packElem f _ 0 (Nat.two_pow_pos _)).symm
    (by rw [lowBits_zeroElem, (isZero_iff_lowBits f e).1 h])

theorem eq_infElem (f : Fmt) (e : Elem) (hf : Fits f e) (h : isInf f e = true) : e = infElem f (isNeg f e) :=
  eq_of_lowBits f _ _ hf (infElem_fits f _) (isNeg_packElem f _ _ (infLow_lt f)).symm
    (by rw [infElem, lowBits_packElem f _ _ (infLow_lt f), (isInf_iff_lowBits f e).1 h])

/-! ### RN of small values -/

/-- RN gives a zero only up to half the smallest subnormal. -/
theorem isZero_rn_iff (f : Fmt) (neg : Bool) (n d : Nat) : isZero f (rn f neg n d) = true ↔ 2 * n ≤ 2 ^ d := by
  have hinf : 0 < f.expOnes * 2 ^ f.fracBits := by cases f <;> decide
  have hmid : midpoint f 0 = 1 := by cases f <;> decide
  have hlt := lt_roundedLow_iff f n d 0
  rw [hmid, Nat.one_mul] at hlt
  rw [isZero_iff_lowBits, lowBits_rn]
  omega

theorem rn_zero (f : Fmt) (neg : Bool) (d : Nat) : rn f neg 0 d = zeroElem f neg := by
  have h := eq_zeroElem f _ (rn_fits f neg 0 d) ((isZero_rn_iff f neg 0 d).2 (Nat.zero_le _))
  rwa [isNeg_rn] at h

/-! ### FMUL -/

/-- One operand is an infinity and the other a zero (R98). -/
abbrev InfTimesZero (f : Fmt) (a b : Elem) : Prop :=
  isInf f a = true ∧ isZero f b = true ∨ isZero f a = true ∧ isInf f b = true

section
variable (f : Fmt) (a b : Elem)

theorem fmul_inf_zero (h : InfTimesZero f a b) : fmul f a b = canonNaN f := by
  unfold fmul
  split
  · rfl
  · rw [if_pos (by simpa using h)]

theorem magnitude_mul_of_zero (h : isZero f a = true ∨ isZero f b = true) : magnitude f a * magnitude f b = 0 :=
  Nat.mul_eq_zero.2 (h.imp (magnitude_of_zero f a) (magnitude_of_zero f b))

/-- A finite product is RN of the exact product, also where that is 0. -/
theorem fmul_of_finite (ha : isFinite f a = true) (hb : isFinite f b = true) :
    fmul f a b = rn f (isNeg f a ^^ isNeg f b) (magnitude f a * magnitude f b) f.quantum := by
  obtain ⟨hna, hia⟩ := (isFinite_iff f a).1 ha
  obtain ⟨hnb, hib⟩ := (isFinite_iff f b).1 hb
  rw [fmul, if_neg (by simp [hna, hnb]), if_neg (by simp [hia, hib]), if_neg (by simp [hia, hib])]
  split
  case isTrue hz => rw [magnitude_mul_of_zero f a b (by simpa using hz), rn_zero]
  case isFalse => rfl

/-- Of two elements that are no NaNs, one is an infinity or both are finite. -/
theorem inf_or_finite (ha : isNaN f a = false) (hb : isNaN f b = false) :
    (isInf f a = true ∨ isInf f b = true) ∨ (isFinite f a = true ∧ isFinite f b = true) := by
  rw [isFinite_iff, isFinite_iff]
  cases isInf f a <;> cases isInf f b <;> simp [ha, hb]

section
variable (ha : isNaN f a = false) (hb : isNaN f b = false) (hz : ¬ InfTimesZero f a b)
include ha hb hz

theorem fmul_of_inf (h : isInf f a = true ∨ isInf f b = true) : fmul f a b = infElem f (isNeg f a ^^ isNeg f b) := by
  rw [fmul, if_neg (by simp [ha, hb]), if_neg (by simpa using hz), if_pos (by simpa using h)]

/-- The sign of a product that is not a NaN (R98). -/
theorem isNeg_fmul : isNeg f (fmul f a b) = (isNeg f a ^^ isNeg f b) := by
  rcases inf_or_finite f a b ha hb with h | ⟨hfa, hfb⟩
  · rw [fmul_of_inf f a b ha hb hz h, infElem, isNeg_packElem f _ _ (infLow_lt f)]
  · rw [fmul_of_finite f a b hfa hfb, isNeg_rn]

/-- Where the product is a zero, exact or by underflow, its sign says which. -/
theorem fmul_eq_zeroElem (h : isZero f (fmul f a b) = true) : fmul f a b = zeroElem f (isNeg f a ^^ isNeg f b) := by
  rw [← isNeg_fmul f a b ha hb hz]
  exact eq_zeroElem f _ (fmul_fits f a b) h

/-- A zero times anything but an infinity or a NaN is a finite product, and exactly 0. -/
theorem fmul_of_zero (h : isZero f a = true ∨ isZero f b = true) :
    fmul f a b = zeroElem f (isNeg f a ^^ isNeg f b) := by
  obtain ⟨hfa, hfb⟩ : isFinite f a = true ∧ isFinite f b = true := by
    rcases h with h | h
    · exact ⟨isFinite_of_isZero f a h, (isFinite_iff f b).2 ⟨hb, Bool.eq_false_iff.2 fun hi => hz (.inr ⟨h, hi⟩)⟩⟩
    · exact ⟨(isFinite_iff f a).2 ⟨ha, Bool.eq_false_iff.2 fun hi => hz (.inl ⟨hi, h⟩)⟩, isFinite_of_isZero f b h⟩
  rw [fmul_of_finite f a b hfa hfb, magnitude_mul_of_zero f a b h, rn_zero]

end

end

/-- Settles O52, case by case. -/
theorem fmulByTheRule : Obligations.FmulByTheRule := fun f a b =>
  ⟨fmul_of_nan f a b, fmul_inf_zero f a b, fun ha hb hz =>
    ⟨isNeg_fmul f a b ha hb hz, fmul_of_inf f a b ha hb hz, fmul_of_zero f a b ha hb hz, fun hfa hfb =>
      ⟨fmul_of_finite f a b hfa hfb, fmul_eq_zeroElem f a b ha hb hz⟩⟩⟩

/-! ### FADD -/

section
variable (f : Fmt) (a b : Elem)

theorem fadd_opposite_infinities (ha : isInf f a = true) (hb : isInf f b = true) (h : isNeg f a ≠ isNeg f b) :
    fadd f a b = canonNaN f := by
  rw [fadd, isInf_not_isNaN f a ha, isInf_not_isNaN f b hb, if_neg (by decide), if_pos (by simp [ha, hb, h])]

theorem fadd_inf_left (hb : isNaN f b = false) (ha : isInf f a = true) (h : isInf f b = true → isNeg f b = isNeg f a) :
    fadd f a b = a := by
  rw [fadd, isInf_not_isNaN f a ha, hb, if_neg (by decide), if_neg (by simpa [ha] using fun hi => (h hi).symm), if_pos ha]

theorem fadd_inf_right (hb : isInf f b = true) (ha : isFinite f a = true) : fadd f a b = b := by
  obtain ⟨hna, hia⟩ := (isFinite_iff f a).1 ha
  rw [fadd, hna, isInf_not_isNaN f b hb, if_neg (by decide), hia, if_neg (by simp), if_neg (by decide), if_pos hb]

theorem fadd_of_finite (ha : isFinite f a = true) (hb : isFinite f b = true) :
    fadd f a b = if exactValue f a + exactValue f b = 0 then zeroElem f (isZero f a && isZero f b && isNeg f a && isNeg f b)
      else rn f (decide (exactValue f a + exactValue f b < 0)) (exactValue f a + exactValue f b).natAbs 0 := by
  obtain ⟨hna, hia⟩ := (isFinite_iff f a).1 ha
  obtain ⟨hnb, hib⟩ := (isFinite_iff f b).1 hb
  rw [fadd, hna, hnb, hia, hib, if_neg (by decide), if_neg (by simp), if_neg (by decide), if_neg (by decide)]

/-- A sum that is not 0 is at least the smallest subnormal, and so never rounds to zero. -/
theorem isZero_rn_sum (neg : Bool) (v : Int) (hv : v ≠ 0) : isZero f (rn f neg v.natAbs 0) = false := by
  rw [← Bool.not_eq_true, isZero_rn_iff]
  omega

theorem fadd_comm_of_finite (ha : isFinite f a = true) (hb : isFinite f b = true) : fadd f a b = fadd f b a := by
  rw [fadd_of_finite f a b ha hb, fadd_of_finite f b a hb ha, Int.add_comm, Bool.and_comm (isZero f a),
    Bool.and_right_comm]

theorem fadd_comm_of_inf_finite (ha : isInf f a = true) (hb : isFinite f b = true) : fadd f a b = fadd f b a := by
  obtain ⟨hnb, hib⟩ := (isFinite_iff f b).1 hb
  rw [fadd_inf_right f b a ha hb, fadd_inf_left f a b hnb ha (by simp [hib])]

/-- Two infinities of one sign are one pattern of W bits. -/
theorem fadd_comm_of_inf (hfa : Fits f a) (hfb : Fits f b) (ha : isInf f a = true) (hb : isInf f b = true) :
    fadd f a b = fadd f b a := by
  by_cases h : isNeg f a = isNeg f b
  · rw [eq_infElem f a hfa ha, eq_infElem f b hfb hb, h]
  · rw [fadd_opposite_infinities f a b ha hb h, fadd_opposite_infinities f b a hb ha (Ne.symm h)]

theorem fadd_comm (hfa : Fits f a) (hfb : Fits f b) : fadd f a b = fadd f b a := by
  by_cases hnan : isNaN f a = true ∨ isNaN f b = true
  · rw [fadd_of_nan f a b hnan, fadd_of_nan f b a hnan.symm]
  · obtain ⟨ha, hb⟩ : isNaN f a = false ∧ isNaN f b = false := by simpa using hnan
    cases hia : isInf f a <;> cases hib : isInf f b
    · exact fadd_comm_of_finite f a b ((isFinite_iff f a).2 ⟨ha, hia⟩) ((isFinite_iff f b).2 ⟨hb, hib⟩)
    · exact (fadd_comm_of_inf_finite f b a hib ((isFinite_iff f a).2 ⟨ha, hia⟩)).symm
    · exact fadd_comm_of_inf_finite f a b hia ((isFinite_iff f b).2 ⟨hb, hib⟩)
    · exact fadd_comm_of_inf f a b hfa hfb hia hib

end

/-- The greatest finite element m: (m + m) + (−m) overflows, m + (m + (−m)) is m. -/
theorem fadd_not_assoc (f : Fmt) : ∃ a b c, fadd f (fadd f a b) c ≠ fadd f a (fadd f b c) := by
  cases f with
  | binary64 => exact ⟨0x7FEFFFFFFFFFFFFF, 0x7FEFFFFFFFFFFFFF, 0xFFEFFFFFFFFFFFFF, by decide +kernel⟩
  | binary32 => exact ⟨0x7F7FFFFF, 0x7F7FFFFF, 0xFF7FFFFF, by decide +kernel⟩

/-- Settles O53, case by case. -/
theorem faddByTheRule : Obligations.FaddByTheRule := by
  refine ⟨fun f a b => ⟨fadd_of_nan f a b, fadd_opposite_infinities f a b, fadd_inf_left f a b, fadd_inf_right f a b,
    fun ha hb => ?_, fadd_comm f a b⟩, fadd_not_assoc⟩
  rw [fadd_of_finite f a b ha hb]
  refine ⟨fun hzero => if_pos hzero, fun hne => ?_⟩
  rw [if_neg hne]
  exact ⟨rfl, isZero_rn_sum f _ _ hne⟩

/-! ### NaNs -/

/-- Settles O54: completions always end, and each operation's NaNs are CANON_NAN. -/
theorem everyNaNIsCanonical : Obligations.EveryNaNIsCanonical := by
  refine ⟨rfl, rfl, fun s i hturn hp => ?_, fun f a b as bs =>
    ⟨fmul_nan f a b, fadd_nan f a b, dot_nan f as bs, isNaN_canonNaN f, fun h =>
      ⟨fmul_of_nan f a b (.inl h), fmul_of_nan f b a (.inr h), fadd_of_nan f a b (.inl h), fadd_of_nan f b a (.inr h)⟩⟩⟩
  obtain ⟨hpend, hdone, herr, -⟩ := completion_ends i s
  exact ⟨_, exec_completes i s (s.engineTurn_iff.2 hturn) hp, hpend, hdone, herr⟩

/-! ### DOT -/

/-- The last product is added last. -/
theorem dotFrom_append (f : Fmt) (acc a b : Elem) (as bs : List Elem) (h : as.length = bs.length) :
    dotFrom f acc (as ++ [a]) (bs ++ [b]) = fadd f (dotFrom f acc as bs) (fmul f a b) := by
  induction as generalizing acc bs with
  | nil =>
    obtain rfl := List.length_eq_zero_iff.1 h.symm
    rfl
  | cons x as ih =>
    cases bs with
    | nil => cases h
    | cons y bs => exact ih (fadd f acc (fmul f x y)) bs (Nat.succ.inj h)

/-- Settles O55: the first product is the seed of the running sum. -/
theorem dotIsSequential : Obligations.DotIsSequential := by
  refine fun f a b as bs h => ⟨rfl, fun hne => ?_⟩
  cases as with
  | nil => exact absurd rfl hne
  | cons x as =>
    cases bs with
    | nil => cases h
    | cons y bs => exact dotFrom_append f (fmul f x y) a b as bs (Nat.succ.inj h)

end Sys2Proof.Machine
end

section
/-! SUPPORT. What the transforms have in common: their issue on an idle, configured block, and the OUT slots their
completions write, with the value of each (60_exceptions.md R124 to R127; 42_transform_1d.md R115; 43_transform_2d.md
R121). -/

namespace Sys2Proof.Machine

/-! ### The issue -/

/-- On an idle, configured block only the shape check is left (R124). -/
theorem State.issueTransform_idle (s : State) (i : Instr) (ok : Bool) (hp : s.pend = none) (hr : s.acfg.rows ≠ 0) :
    s.issueTransform i ok = if ok then s.accept i else s.reject .dimMismatch := by
  have hbusy : s.busy = false := by rw [State.busy, hp]; rfl
  rw [State.issueTransform, hbusy, s.configured_iff.2 hr]
  cases ok <;> rfl

/-- The acceptance of a transform leaves ACFG (R126). -/
theorem State.accept_transform (s : State) (i : Instr) (hi : i.isConfig = false) :
    s.accept i = { s with
      order := s.order.tail, seq := s.seq + 1, resp := some .written, pend := some i } := by
  rw [State.accept, hi]
  rfl

/-- The sizes of a legal configuration are 1 to NMAX (10_state.md R25). -/
theorem Acfg.legal_cols (n : Nat) (a : Acfg) (h : a.legal n = true) (hr : a.rows ≠ 0) :
    1 ≤ a.cols.toNat ∧ a.cols.toNat ≤ n := by
  simp only [Acfg.legal, Bool.or_eq_true, Bool.and_eq_true, decide_eq_true_eq] at h
  rcases h with rfl | ⟨⟨⟨-, hpos⟩, hle⟩, -⟩
  · exact absurd rfl hr
  · exact ⟨hpos, hle⟩

/-! ### The results -/

theorem State.elemAt_fits (s : State) (n off : Nat) : Fits s.build.fmt (s.elemAt n off) := by
  cases hf : s.build.fmt with
  | binary64 => exact fits_binary64 _
  | binary32 =>
    rw [s.elemAt_binary32 n off hf, Fits, BitVec.toNat_append]
    simpa [Fmt.width] using (s.wordAt (2 * n) off).isLt

theorem State.readIn_fits (s : State) (n r c : Nat) : Fits s.build.fmt (s.readIn n r c) := s.elemAt_fits n _

theorem fwd1dValue_fits (s : State) (u : Nat) : Fits s.build.fmt (fwd1dValue s u) := fmul_fits ..

theorem inv1dValue_fits (s : State) (x : Nat) : Fits s.build.fmt (inv1dValue s x) := dot_fits ..

theorem fwdColPass_fits (s : State) (u v : Nat) : Fits s.build.fmt (fwdColPass s u v) := fmul_fits ..

theorem invRowPass_fits (s : State) (x y : Nat) : Fits s.build.fmt (invRowPass s x y) := dot_fits ..

/-- What a completion with a result shape of one row leaves in OUT (R115). -/
theorem State.writeResult_row_out? (s : State) (i : Instr) (v : Nat × Nat → Elem) (c u : Nat)
    (hshape : s.resultPlaces i = blockPlaces 1 c) (hu : u < c) (hf : Fits s.build.fmt (v (0, u))) :
    (s.writeResult i v).out? 0 u = some (v (0, u)) := by
  refine s.writeResult_out? i v (0, u) ?_ ?_ hf <;> rw [hshape]
  · exact (mem_blockPlaces 1 c (0, u)).2 ⟨Nat.one_pos, hu⟩
  · exact rowPlaces_disjoint _ c (elemBytes_le _)

/-- What a completion with a result shape of at most 64 columns leaves in OUT (R121). -/
theorem State.writeResult_block_out? (s : State) (i : Instr) (v : Nat × Nat → Elem) (r c u w : Nat)
    (hshape : s.resultPlaces i = blockPlaces r c) (hc : c ≤ 64) (hu : u < r) (hw : w < c)
    (hf : Fits s.build.fmt (v (u, w))) : (s.writeResult i v).out? u w = some (v (u, w)) := by
  refine s.writeResult_out? i v (u, w) ?_ ?_ hf <;> rw [hshape]
  · exact (mem_blockPlaces r c (u, w)).2 ⟨hu, hw⟩
  · exact blockPlaces_disjoint _ r c (elemBytes_le _) hc

section
variable (s : State) (a b : Nat)

theorem completion_fwd1d_out? (u : Nat) (hu : u < s.sizeC) :
    (completion (.fwd1d a b) s).out? 0 u = some (fwd1dValue s u) :=
  s.writeResult_row_out? (.fwd1d a b) _ s.sizeC u rfl hu (fwd1dValue_fits s u)

theorem completion_inv1d_out? (x : Nat) (hx : x < s.sizeC) :
    (completion (.inv1d a b) s).out? 0 x = some (inv1dValue { s with tbuf := [inv1dScaled s] } x) :=
  State.writeResult_row_out? { s with tbuf := [inv1dScaled s] } (.inv1d a b) _ s.sizeC x rfl hx (inv1dValue_fits _ x)

theorem completion_fwd2d_out? (u v : Nat) (hc : s.sizeC ≤ 64) (hu : u < s.sizeR) (hv : v < s.sizeC) :
    (completion (.fwd2d a b) s).out? u v = some (fwdColPass (s.fillT (fwdRowPass s)) u v) :=
  (s.fillT (fwdRowPass s)).writeResult_block_out? (.fwd2d a b) _ s.sizeR s.sizeC u v rfl hc hu hv
    (fwdColPass_fits _ u v)

theorem completion_inv2d_out? (x y : Nat) (hc : s.sizeC ≤ 64) (hx : x < s.sizeR) (hy : y < s.sizeC) :
    (completion (.inv2d a b) s).out? x y = some (invRowPass (s.fillT (invColPass s)) x y) :=
  (s.fillT (invColPass s)).writeResult_block_out? (.inv2d a b) _ s.sizeR s.sizeC x y rfl hc hx hy
    (invRowPass_fits _ x y)

end

end Sys2Proof.Machine
end

section
/-! SUPPORT. The one-dimensional transforms (42_transform_1d.md R111 to R115): their issue, their completions, and the spread
of a NaN. -/

namespace Sys2Proof.Machine

/-! ### The issue -/

/-- Settles O11: the idle, configured block checks the shape, which no size 0 or above NMAX passes. -/
theorem oneDimensionalIssue : Obligations.OneDimensionalIssue := by
  intro s i a b hi hp hr refused
  have hconfig : i.isConfig = false := by rcases hi with rfl | rfl <;> rfl
  have hissue : issue i s = s.issueTransform i (s.shape1d a b) := by rcases hi with rfl | rfl <;> rfl
  have hrun : exec i s = .next (if a = 1 ∧ b = s.acfg.cols.toNat then s.accept i else s.reject .dimMismatch) := by
    rw [exec_issues_idle i s hp, hissue, s.issueTransform_idle i _ hp hr]
    simp only [s.shape1d_iff]
  have hrefused (h : ¬ (a = 1 ∧ b = s.acfg.cols.toNat)) : exec i s = .next refused := by
    rw [hrun, if_neg h]
    rfl
  refine ⟨fun h => ?_, hrefused, fun hlegal hsize => hrefused ?_⟩
  · rw [hrun, if_pos h, s.accept_transform i hconfig]
  · have hcols := Acfg.legal_cols _ _ hlegal hr
    omega

/-! ### The completions -/

/-- The result slots of a 1D transform are the first `n` of OUT row 0 (R115). -/
theorem not_inOutSlot_of_row (k n off : Nat)
    (h : ∀ u, u < n → ¬ (0x10000 + 8 * u ≤ off ∧ off < 0x10000 + 8 * u + k)) :
    ∀ p ∈ blockPlaces 1 n, ¬ InOutSlot k p off := by
  rintro ⟨r, u⟩ hp
  obtain ⟨hr, hu⟩ := (mem_blockPlaces 1 n (r, u)).1 hp
  obtain rfl : r = 0 := Nat.lt_one_iff.1 hr
  exact h u hu

/-- Settles O17: the completion writes the results to their slots, and no other byte. -/
theorem fwd1dCompletion : Obligations.Fwd1dCompletion := by
  intro s a b hturn hp f n
  refine ⟨_, exec_completes _ s (s.engineTurn_iff.2 hturn) hp, rfl, completion_fwd1d_out? s a b, fun off hoff => ?_⟩
  exact s.writeResult_frame (.fwd1d a b) _ off (not_inOutSlot_of_row _ n off hoff)

/-- INV1D runs its products along the scaled operand it left in T (R113). -/
theorem inv1dValue_scaled (s : State) (x : Nat) :
    inv1dValue { s with tbuf := [inv1dScaled s] } x = dot s.build.fmt (inv1dScaled s) (tableRow s.cosc s.sizeC x) := by
  have hread : ((List.range s.sizeC).map fun u => tableEntry [inv1dScaled s] 0 u) = inv1dScaled s := by
    refine List.map_congr_left fun u hu => ?_
    simp [tableEntry, inv1dScaled, List.mem_range.1 hu]
  exact congrArg (dot s.build.fmt · (tableRow s.cosc s.sizeC x)) hread

/-- Settles O18: as for FWD1D, with the scaled operand read back from T. -/
theorem inv1dCompletion : Obligations.Inv1dCompletion := by
  intro s a b hturn hp f n
  refine ⟨_, exec_completes _ s (s.engineTurn_iff.2 hturn) hp, rfl, fun x hx => ?_, fun off hoff => ?_⟩
  · rw [completion_inv1d_out? s a b x hx, inv1dValue_scaled]
    rfl
  · exact State.writeResult_frame (.inv1d a b) _ { s with tbuf := [inv1dScaled s] } off
      (not_inOutSlot_of_row _ n off hoff)

/-! ### The spread of a NaN -/

/-- A NaN in the first operand vector reaches the running sum, and stays there. -/
theorem dotFrom_of_nan_mem (f : Fmt) (acc e : Elem) (as bs : List Elem) (hlen : as.length = bs.length) (he : e ∈ as)
    (hnan : isNaN f e = true) : dotFrom f acc as bs = canonNaN f := by
  induction as generalizing acc bs with
  | nil => cases he
  | cons a as ih =>
    cases bs with
    | nil => cases hlen
    | cons b bs =>
      rw [dotFrom]
      rcases List.mem_cons.1 he with rfl | he
      · rw [fmul_of_nan f e b (.inl hnan), fadd_of_nan f acc _ (.inr (isNaN_canonNaN f)), dotFrom_of_nan]
      · exact ih _ bs (Nat.succ.inj hlen) he

theorem dot_of_nan_mem (f : Fmt) (e : Elem) (as bs : List Elem) (hlen : as.length = bs.length) (he : e ∈ as)
    (hnan : isNaN f e = true) : dot f as bs = canonNaN f := by
  cases as with
  | nil => cases he
  | cons a as =>
    cases bs with
    | nil => cases hlen
    | cons b bs =>
      rw [dot]
      rcases List.mem_cons.1 he with rfl | he
      · rw [fmul_of_nan f e b (.inl hnan), dotFrom_of_nan]
      · exact dotFrom_of_nan_mem f _ e as bs (Nat.succ.inj hlen) he hnan

/-- Settles O24: every result's DOT runs along the whole operand, and the scaling keeps its NaN. -/
theorem nanOperandSpreads : Obligations.NaNOperandSpreads := by
  intro s a b x e hturn hp hx hin hnan
  refine ⟨_, exec_completes _ s (s.engineTurn_iff.2 hturn) hp, fun u hu => ?_⟩
  have hmem : e ∈ (List.range s.sizeC).map fun x => s.readIn (u * s.sizeC + x) 0 x :=
    List.mem_map.2 ⟨x, List.mem_range.2 hx, s.readIn_of_in? _ 0 x e hin⟩
  rw [completion_fwd1d_out? s a b u hu, fwd1dValue, dot_of_nan_mem _ e _ _ (by simp [tableColumn]) hmem hnan,
    fmul_of_nan _ _ _ (.inr (isNaN_canonNaN _))]

end Sys2Proof.Machine
end

section
/-! SUPPORT. Transforms of size 1 (R112, R113, R117, R118: corner case N = 1): products with 1.0, and RN of what is exact. -/

namespace Sys2Proof.Machine

/-! ### Products with 1.0 -/

/-- RN of the value of an element is that element: the kept bits are its own (R97). -/
theorem roundedLow_magnitudeOfLow (f : Fmt) (b d : Nat) : roundedLow f (magnitudeOfLow f b * 2 ^ d) d = b := by
  obtain ⟨c, hbelow, habove, heq⟩ := roundedLow_spec f (magnitudeOfLow f b * 2 ^ d) d
  have hmono := magnitudeOfLow_strictMono f
  have hle : c ≤ b := hmono.le_iff_le.1 (Nat.le_of_mul_le_mul_right hbelow (Nat.two_pow_pos d))
  have hlt : b < c + 1 := hmono.lt_iff_lt.1 (Nat.lt_of_mul_lt_mul_right habove)
  obtain rfl : c = b := by omega
  have hmid : 2 * (magnitudeOfLow f c * 2 ^ d) < midpoint f c * 2 ^ d := by
    rw [midpoint, Nat.add_mul]
    omega
  rw [heq, if_neg (by omega)]

theorem rn_of_finite (f : Fmt) (e : Elem) (d : Nat) (hf : Fits f e) (hfin : isFinite f e = true) :
    rn f (isNeg f e) (magnitude f e * 2 ^ d) d = e := by
  refine eq_of_lowBits f _ _ (rn_fits ..) hf (isNeg_rn ..) ?_
  rw [lowBits_rn, magnitude_eq_magnitudeOfLow, roundedLow_magnitudeOfLow,
    min_eq_left ((isFinite_iff_lowBits f e).1 hfin).le]

/-- The pattern of 1.0. -/
def oneElem (f : Fmt) : Elem := BitVec.ofNat 64 (oneBits f)

theorem isFinite_oneElem (f : Fmt) : isFinite f (oneElem f) = true := by cases f <;> decide

theorem isZero_oneElem (f : Fmt) : isZero f (oneElem f) = false := by cases f <;> decide

theorem isNeg_oneElem (f : Fmt) : isNeg f (oneElem f) = false := by cases f <;> decide

theorem magnitude_oneElem (f : Fmt) : magnitude f (oneElem f) = 2 ^ f.quantum := by
  have hlow : lowBits f (oneElem f) = oneBits f := by cases f <;> decide
  rw [magnitude_eq_magnitudeOfLow, hlow, magnitudeOfLow_one]

/-- What a product with 1.0 makes of an operand: itself, or CANON_NAN for a NaN (R98, R101). -/
def canonical (f : Fmt) (e : Elem) : Elem := if isNaN f e then canonNaN f else e

theorem fmul_oneElem (f : Fmt) (e : Elem) (hf : Fits f e) : fmul f e (oneElem f) = canonical f e := by
  obtain ⟨hnan1, hinf1⟩ := (isFinite_iff f _).1 (isFinite_oneElem f)
  unfold canonical
  split
  case isTrue hnan => exact fmul_of_nan f e _ (.inl hnan)
  case isFalse hnan =>
    have hnan : isNaN f e = false := by simpa using hnan
    cases hinf : isInf f e
    · have hfin := (isFinite_iff f e).2 ⟨hnan, hinf⟩
      rw [fmul_of_finite f e _ hfin (isFinite_oneElem f), isNeg_oneElem, magnitude_oneElem, Bool.xor_false,
        rn_of_finite f e _ hf hfin]
    · rw [fmul_of_inf f e _ hnan hnan1 (by simp [isZero_oneElem, hinf1]) (.inl hinf), isNeg_oneElem, Bool.xor_false,
        ← eq_infElem f e hf hinf]

theorem fmul_comm (f : Fmt) (a b : Elem) : fmul f a b = fmul f b a := by
  simp only [fmul, Bool.or_comm (isNaN f a), Bool.or_comm (isInf f a), Bool.or_comm (isZero f a),
    Bool.or_comm (isZero f b && isInf f a), Bool.and_comm (isInf f a), Bool.and_comm (isZero f a),
    Bool.xor_comm (isNeg f a), Nat.mul_comm (magnitude f a)]

theorem oneElem_fmul (f : Fmt) (e : Elem) (hf : Fits f e) : fmul f (oneElem f) e = canonical f e := by
  rw [fmul_comm, fmul_oneElem f e hf]

theorem canonical_fits (f : Fmt) (e : Elem) (hf : Fits f e) : Fits f (canonical f e) := by
  unfold canonical
  split
  · exact canonNaN_fits f
  · exact hf

theorem canonical_idem (f : Fmt) (e : Elem) : canonical f (canonical f e) = canonical f e := by
  cases h : isNaN f e <;> simp [canonical, h]

/-! ### A 1 × 1 configuration -/

theorem cosTable_one (f : Fmt) : cosTable f 1 = [[oneElem f]] := by cases f <;> decide

theorem alphaTable_one (f : Fmt) : alphaTable f 1 = [oneElem f] := by cases f <;> decide

/-- A forward pass of size 1: the DOT with [1.0], then the scaling by 1.0. -/
theorem forwardPass_one (f : Fmt) (e : Elem) (hf : Fits f e) :
    fmul f (oneElem f) (dot f [e] [oneElem f]) = canonical f e := by
  rw [show dot f [e] [oneElem f] = fmul f e (oneElem f) from rfl, fmul_oneElem f e hf,
    oneElem_fmul f _ (canonical_fits f e hf), canonical_idem]

/-- An inverse pass of size 1: the scaling by 1.0, then the DOT with [1.0]. -/
theorem inversePass_one (f : Fmt) (e : Elem) (hf : Fits f e) :
    dot f [fmul f (oneElem f) e] [oneElem f] = canonical f e := by
  rw [show dot f [fmul f (oneElem f) e] [oneElem f] = fmul f (fmul f (oneElem f) e) (oneElem f) from rfl,
    oneElem_fmul f e hf, fmul_oneElem f _ (canonical_fits f e hf), canonical_idem]

/-- The sizes, the tables and the operand of a transform on a 1 × 1 configuration. -/
structure State.SizeOne (s : State) (e : Elem) : Prop where
  sizeR  : s.sizeR = 1
  sizeC  : s.sizeC = 1
  cosr   : s.cosr = [[oneElem s.build.fmt]]
  cosc   : s.cosc = [[oneElem s.build.fmt]]
  alphar : s.alphar = [oneElem s.build.fmt]
  alphac : s.alphac = [oneElem s.build.fmt]
  readIn : ∀ n, s.readIn n 0 0 = e

theorem State.sizeOne_of_installed (s : State) (e : Elem) (hrows : s.acfg.rows = 1) (hcols : s.acfg.cols = 1)
    (htables : s.tablesInstalled = true) (hin : s.in? 0 0 = some e) : s.SizeOne e := by
  have hr : s.sizeR = 1 := by rw [State.sizeR, hrows]; rfl
  have hc : s.sizeC = 1 := by rw [State.sizeC, hcols]; rfl
  have hconf : s.configured = true := s.configured_iff.2 (by rw [hrows]; decide)
  obtain ⟨hcosr, hcosc, halphar, halphac⟩ := s.tablesInstalled_iff.1 htables hconf
  rw [hr, cosTable_one] at hcosr
  rw [hc, cosTable_one] at hcosc
  rw [hr, alphaTable_one] at halphar
  rw [hc, alphaTable_one] at halphac
  exact ⟨hr, hc, hcosr, hcosc, halphar, halphac, fun n => s.readIn_of_in? n 0 0 e hin⟩

section
variable {s : State} {e : Elem} (h : s.SizeOne e)
include h

theorem State.SizeOne.fits : Fits s.build.fmt e := by
  rw [← h.readIn 0]
  exact s.readIn_fits 0 0 0

theorem fwd1dValue_sizeOne : fwd1dValue s 0 = canonical s.build.fmt e := by
  simp only [fwd1dValue, h.sizeC, h.alphac, h.cosc, List.range_one, List.map_singleton, h.readIn]
  exact forwardPass_one _ e h.fits

theorem inv1dValue_sizeOne :
    inv1dValue { s with tbuf := [inv1dScaled s] } 0 = canonical s.build.fmt e := by
  rw [inv1dValue_scaled]
  simp only [inv1dScaled, h.sizeC, h.alphac, h.cosc, List.range_one, List.map_singleton, h.readIn]
  exact inversePass_one _ e h.fits

theorem fwdRowPass_sizeOne : fwdRowPass s 0 0 = canonical s.build.fmt e := by
  simp only [fwdRowPass, h.sizeC, h.alphac, h.cosc, List.range_one, List.map_singleton, h.readIn]
  exact forwardPass_one _ e h.fits

theorem invColPass_sizeOne : invColPass s 0 0 = canonical s.build.fmt e := by
  simp only [invColPass, h.sizeR, h.alphar, h.cosr, List.range_one, List.map_singleton, h.readIn]
  exact inversePass_one _ e h.fits

/-- T after a first pass of size 1. -/
theorem State.SizeOne.tbuf_fillT (pass : Nat → Nat → Elem) : (s.fillT pass).tbuf = [[pass 0 0]] := by
  rw [State.fillT_tbuf, h.sizeR, h.sizeC]
  rfl

theorem fwdColPass_sizeOne : fwdColPass (s.fillT (fwdRowPass s)) 0 0 = canonical s.build.fmt e := by
  have hr : (s.fillT (fwdRowPass s)).sizeR = 1 := h.sizeR
  rw [fwdColPass, hr, h.tbuf_fillT, fwdRowPass_sizeOne h, State.fillT_alphar, State.fillT_cosr, h.alphar, h.cosr]
  exact (forwardPass_one _ _ (canonical_fits _ e h.fits)).trans (canonical_idem _ e)

theorem invRowPass_sizeOne : invRowPass (s.fillT (invColPass s)) 0 0 = canonical s.build.fmt e := by
  have hc : (s.fillT (invColPass s)).sizeC = 1 := h.sizeC
  rw [invRowPass, hc, h.tbuf_fillT, invColPass_sizeOne h, State.fillT_alphac, State.fillT_cosc, h.alphac, h.cosc]
  exact (inversePass_one _ _ (canonical_fits _ e h.fits)).trans (canonical_idem _ e)

end

/-- Settles O22: each pass of size 1 multiplies by 1.0 twice. -/
theorem sizeOneTransformIsIdentity : Obligations.SizeOneTransformIsIdentity := by
  intro s i a b e hi hturn hp hrows hcols htables hin
  have h := s.sizeOne_of_installed e hrows hcols htables hin
  have hr : 0 < s.sizeR := by rw [h.sizeR]; exact Nat.one_pos
  have hc : 0 < s.sizeC := by rw [h.sizeC]; exact Nat.one_pos
  have hc64 : s.sizeC ≤ 64 := by rw [h.sizeC]; decide
  refine ⟨_, exec_completes i s (s.engineTurn_iff.2 hturn) hp, ?_⟩
  change _ = some (canonical s.build.fmt e)
  rcases hi with rfl | rfl | rfl | rfl
  · rw [completion_fwd1d_out? s a b 0 hc, fwd1dValue_sizeOne h]
  · rw [completion_inv1d_out? s a b 0 hc, inv1dValue_sizeOne h]
  · rw [completion_fwd2d_out? s a b 0 0 hc64 hr hc, fwdColPass_sizeOne h]
  · rw [completion_inv2d_out? s a b 0 0 hc64 hr hc, invRowPass_sizeOne h]

end Sys2Proof.Machine
end

section
/-! SUPPORT. The two-dimensional transforms (43_transform_2d.md R116 to R121): their issue, their completions, and FWD2D on one
row. -/

namespace Sys2Proof.Machine

/-! ### The issue -/

/-- Settles O12: the idle, configured block checks the shape against ACFG, and only that. -/
theorem twoDimensionalIssue : Obligations.TwoDimensionalIssue := by
  intro s i a b hi hp hr
  have hconfig : i.isConfig = false := by rcases hi with rfl | rfl <;> rfl
  have hissue : issue i s = s.issueTransform i (s.shape2d a b) := by rcases hi with rfl | rfl <;> rfl
  have hrun : exec i s = .next
      (if a = s.acfg.rows.toNat ∧ b = s.acfg.cols.toNat then s.accept i else s.reject .dimMismatch) := by
    rw [exec_issues_idle i s hp, hissue, s.issueTransform_idle i _ hp hr]
    simp only [s.shape2d_iff]
  refine ⟨fun h => ?_, fun h => ?_⟩
  · rw [hrun, if_pos h, s.accept_transform i hconfig]
  · rw [hrun, if_neg h]
    rfl

/-! ### The second pass, along the T the first pass filled -/

section
variable (s : State) (pass : Nat → Nat → Elem)

/-- The forward column pass runs along column `v` of the first pass (R117). -/
theorem fwdColPass_fillT (u v : Nat) (hv : v < s.sizeC) :
    fwdColPass (s.fillT pass) u v = fmul s.build.fmt (alphaEntry s.alphar u)
      (dot s.build.fmt ((List.range s.sizeR).map fun x => pass x v) (tableColumn s.cosr s.sizeR u)) := by
  have hcolumn : ((List.range s.sizeR).map fun x => tableEntry (s.fillT pass).tbuf x v) =
      (List.range s.sizeR).map fun x => pass x v :=
    List.map_congr_left fun x hx => s.fillT_entry pass x v (List.mem_range.1 hx) hv
  rw [← hcolumn]
  rfl

/-- The inverse row pass runs along row `x` of the first pass, scaled (R118). -/
theorem invRowPass_fillT (x y : Nat) (hx : x < s.sizeR) :
    invRowPass (s.fillT pass) x y = dot s.build.fmt
      ((List.range s.sizeC).map fun v => fmul s.build.fmt (alphaEntry s.alphac v) (pass x v))
      (tableRow s.cosc s.sizeC y) := by
  have hrow : ((List.range s.sizeC).map fun v =>
        fmul s.build.fmt (alphaEntry s.alphac v) (tableEntry (s.fillT pass).tbuf x v)) =
      (List.range s.sizeC).map fun v => fmul s.build.fmt (alphaEntry s.alphac v) (pass x v) :=
    List.map_congr_left fun v hv => by rw [s.fillT_entry pass x v hx (List.mem_range.1 hv)]
  rw [← hrow]
  rfl

end

/-! ### The completions -/

/-- The result slots of a 2D transform are the first `c` of the first `r` rows of OUT (R121). -/
theorem not_inOutSlot_of_block (k r c off : Nat)
    (h : ∀ u v, u < r → v < c → ¬ (0x10000 + 512 * u + 8 * v ≤ off ∧ off < 0x10000 + 512 * u + 8 * v + k)) :
    ∀ p ∈ blockPlaces r c, ¬ InOutSlot k p off := fun p hp =>
  have ⟨hu, hv⟩ := (mem_blockPlaces r c p).1 hp
  h p.1 p.2 hu hv

/-- Settles O19: the column pass reads the row pass back from T, and its results are all that is written. -/
theorem fwd2dCompletion : Obligations.Fwd2dCompletion := by
  intro s a b hturn hp hc f nr nc pass1
  refine ⟨_, exec_completes _ s (s.engineTurn_iff.2 hturn) hp, rfl, fun u v hu hv => ?_, fun off hoff => ?_⟩
  · rw [completion_fwd2d_out? s a b u v hc hu hv, fwdColPass_fillT s _ u v hv]
    rfl
  · exact (s.fillT (fwdRowPass s)).writeResult_frame (.fwd2d a b) _ off (not_inOutSlot_of_block _ nr nc off hoff)

/-- Settles O20: as for FWD2D, with the row pass last. -/
theorem inv2dCompletion : Obligations.Inv2dCompletion := by
  intro s a b hturn hp hc f nr nc pass1
  refine ⟨_, exec_completes _ s (s.engineTurn_iff.2 hturn) hp, rfl, fun x y hx hy => ?_, fun off hoff => ?_⟩
  · rw [completion_inv2d_out? s a b x y hc hx hy, invRowPass_fillT s _ x y hx]
    rfl
  · exact (s.fillT (invColPass s)).writeResult_frame (.inv2d a b) _ off (not_inOutSlot_of_block _ nr nc off hoff)

/-! ### One row -/

/-- A product is canonical already (R101). -/
theorem canonical_fmul (f : Fmt) (a b : Elem) : canonical f (fmul f a b) = fmul f a b := by
  unfold canonical
  split
  case isTrue hnan => exact (fmul_nan f a b hnan).symm
  case isFalse => rfl

/-- On row 0 the row pass is FWD1D, the numbers of its reads included (R112, R117). -/
theorem fwdRowPass_zero (s : State) (v : Nat) : fwdRowPass s 0 v = fwd1dValue s v := by
  simp only [fwdRowPass, fwd1dValue, Nat.zero_mul, Nat.zero_add]

/-- With one row and the row tables of size 1, the column pass multiplies the row pass by 1.0 twice. -/
theorem fwdColPass_oneRow (s : State) (v : Nat) (hv : v < s.sizeC) (hr : s.sizeR = 1)
    (hcosr : s.cosr = cosTable s.build.fmt 1) (halphar : s.alphar = alphaTable s.build.fmt 1) :
    fwdColPass (s.fillT (fwdRowPass s)) 0 v = fwd1dValue s v := by
  rw [fwdColPass_fillT s _ 0 v hv, hr, hcosr, halphar, cosTable_one, alphaTable_one, List.range_one, List.map_singleton,
    fwdRowPass_zero]
  calc fmul s.build.fmt (oneElem s.build.fmt) (dot s.build.fmt [fwd1dValue s v] [oneElem s.build.fmt])
      = canonical s.build.fmt (fwd1dValue s v) := forwardPass_one _ _ (fwd1dValue_fits s v)
    _ = fwd1dValue s v := canonical_fmul ..

/-- Settles O23: the row pass is FWD1D, and the column pass of size 1 keeps its results. -/
theorem oneRowForwardEqualsFwd1d : Obligations.OneRowForwardEqualsFwd1d := by
  intro s a b a' b' hturn hrows hc hcosr halphar
  have hr : s.sizeR = 1 := by rw [State.sizeR, hrows]; rfl
  have hturn' := s.engineTurn_iff.2 hturn
  refine ⟨_, _, exec_completes (.fwd2d a b) { s with pend := some (.fwd2d a b) } hturn' rfl,
    exec_completes (.fwd1d a' b') { s with pend := some (.fwd1d a' b') } hturn' rfl,
    fun v hv => ⟨fwd1dValue s v, ?_, completion_fwd1d_out? _ a' b' v hv⟩⟩
  rw [completion_fwd2d_out? { s with pend := some (.fwd2d a b) } a b 0 v hc (hr.symm ▸ Nat.one_pos) hv,
    fwdColPass_oneRow { s with pend := some (.fwd2d a b) } v hv hr hcosr halphar]
  rfl

end Sys2Proof.Machine
end

section
/-! SUPPORT. The ENGINE's turns, and runs inside the window (60_exceptions.md R127, R128; 70_reset_and_hazards.md R151). -/

namespace Sys2Proof.Machine

/-! ### The ENGINE's turns -/

/-- Settles O6: at the ENGINE's turn the step and the command's meaning are both the completion. -/
theorem stepRunsThePendingCommand : Obligations.StepRunsThePendingCommand := by
  intro s i hturn hp
  have hturn := s.engineTurn_iff.2 hturn
  exact (step_completes i s hturn hp).trans (exec_completes i s hturn hp).symm

/-- Settles O8: with nothing pending the ENGINE skips its turn, and an empty order is left as it is. -/
theorem idleBlockDoesNothing : Obligations.IdleBlockDoesNothing := by
  intro s hp
  refine ⟨fun ho => ?_, fun rest ho => ?_⟩
  · rw [step_skips s (s.engineTurn_iff.2 (.inl ho)) hp, if_pos ho]
  · rw [step_skips s (s.engineTurn_iff.2 (.inr ⟨rest, ho⟩)) hp, if_neg (by rw [ho]; exact List.cons_ne_nil _ _)]
    simp only [State.advance, ho, List.tail_cons]

/-! ### Runs inside the window -/

theorem completion_build (i : Instr) (s : State) : (completion i s).build = s.build := by
  cases i with
  | config r c f4 => cases f4 <;> rfl
  | _ => rfl

/-- Every step keeps the build, and takes the head of the order if there is one (20_memory.md R60). -/
theorem step_build_order (s t : State) (hstep : step s = .next t) : t.build = s.build ∧ t.order = s.order.tail := by
  cases step_cases s t hstep with
  | idle ho => exact ⟨rfl, by rw [ho]; rfl⟩
  | complete i =>
    obtain ⟨-, -, -, -, -, -, -, horder⟩ := completion_ends i s
    exact ⟨completion_build i s, horder⟩
  | writeIn d _ r c hi => exact ⟨State.writeIn_build .., congrArg List.tail (State.writeIn_order ..)⟩
  | _ => exact ⟨rfl, rfl⟩

theorem State.inWindowRun_iff (s : State) :
    s.inWindowRun = true ↔ ∀ e ∈ s.order, Event.decoded s.build e = true := List.all_eq_true

/-- Settles O43: no access of the run is the one that stops a step, and a step only takes the head of the order. -/
theorem windowRunNeverStops : Obligations.WindowRunNeverStops := by
  intro s hrun
  rw [s.inWindowRun_iff] at hrun
  rcases step_outcome s with ⟨t, ht⟩ | ⟨-, a, rest, ho, hout⟩
  · obtain ⟨hbuild, horder⟩ := step_build_order s t ht
    refine ⟨t, ht, t.inWindowRun_iff.2 fun e he => ?_⟩
    rw [hbuild]
    exact hrun e (List.mem_of_mem_tail (horder ▸ he))
  · have hin := hrun (.access a) (ho ▸ List.mem_cons_self)
    rw [hout] at hin
    cases hin

/-- A run of a machine goes on from where its first step leads. -/
theorem run_succ (M : Host.Core) (s t : M.State) (k : Nat) (h : M.step s = .next t) : M.run (k + 1) s = M.run k t := by
  rw [Host.Core.run, h]

/-- Settles O44, by induction on the order: each step takes one place of it, and once it is empty the pending command
completes. -/
theorem pendingCommandEnds : Obligations.PendingCommandEnds := by
  intro s hrun hp
  generalize horder : s.order = order
  induction order generalizing s with
  | nil =>
    obtain ⟨i, hi⟩ := Option.ne_none_iff_exists'.1 hp
    have hstep := step_completes i s (s.engineTurn_iff.2 (.inl horder)) hi
    exact ⟨1, completion i s, Nat.le_refl 1, run_succ Sys2Proof.core s _ 0 hstep, (completion_ends i s).1⟩
  | cons e rest ih =>
    obtain ⟨t, hstep, hrun'⟩ := windowRunNeverStops s hrun
    have hrest : t.order = rest := by rw [(step_build_order s t hstep).2, horder, List.tail_cons]
    by_cases hpt : t.pend = none
    · exact ⟨1, t, Nat.le_add_left 1 _, run_succ Sys2Proof.core s t 0 hstep, hpt⟩
    · obtain ⟨k, u, hk, hu, hpu⟩ := ih t hrun' hpt hrest
      exact ⟨k + 1, u, Nat.succ_le_succ hk, (run_succ Sys2Proof.core s t k hstep).trans hu, hpu⟩

end Sys2Proof.Machine
end

section
/-! SUPPORT. Bus errors: which accesses get one, and that it changes nothing (60_exceptions.md R129, R130). -/

namespace Sys2Proof.Machine

/-! ### Reads -/

theorem BusResp.ofRead_eq_error_iff (data : Option Word) : BusResp.ofRead data = .error ↔ data = none := by
  cases data <;> simp [BusResp.ofRead]

theorem State.unlessBusy_eq_none_iff (s : State) (w : Word) : s.unlessBusy w = none ↔ s.busy = true := by
  cases hb : s.busy <;> simp [State.unlessBusy, hb]

/-- An aligned read gets no data at a reserved offset, and while BUSY = 1 from OUT on (R52 to R55). -/
theorem State.readTarget_eq_none_iff (s : State) (off : Nat) (h4 : off % 4 = 0) (h : off < 0x40000) :
    s.readTarget (target s.build.nmax off) = none ↔
      reservedOffset s.build.nmax off ∨ (0x10000 ≤ off ∧ s.busy = true) := by
  have hmap := target_cases s.build.nmax off h4 h
  cases htg : target s.build.nmax off with
  | reserved =>
    have hres : reservedOffset s.build.nmax off := by simpa [htg] using hmap
    simp [State.readTarget, hres]
  | outSlot | cosrSlot | coscSlot | alpharSlot | alphacSlot =>
    simp only [htg, reduceCtorEq, and_false, false_and, false_or, or_false] at hmap
    obtain ⟨hres, hlo, -⟩ := hmap
    have hout : 0x10000 ≤ off := by omega
    simp only [State.readTarget, s.unlessBusy_eq_none_iff, hres, hout, false_or, true_and]
  | _ =>
    simp only [htg, reduceCtorEq, and_false, false_and, false_or, or_false] at hmap
    have hlow : ¬ 0x10000 ≤ off := by omega
    simp [State.readTarget, hmap.1, hlow]

/-- The reads that get a bus error are those of R129. -/
theorem State.readResponse_eq_error_iff (s : State) (width off : Nat) (h : off < 0x40000) :
    s.readResponse width off = .error ↔ readRefused s width off := by
  unfold State.readResponse readRefused
  by_cases hform : width = 32 ∧ off % 4 = 0
  · rw [if_pos ((formOk_iff width off).2 hform), BusResp.ofRead_eq_error_iff, s.readTarget_eq_none_iff off hform.2 h]
    simp only [hform, ne_eq, not_true, false_or]
  · rw [if_neg (by rwa [formOk_iff])]
    simp only [true_iff]
    omega

/-! ### Writes -/

/-- The targets that refuse a write: IN while BUSY = 1, and all but IN, CTRL, STATUS and CMD (R51 to R57). -/
def State.RefusesWrite (s : State) : Target → Prop
  | .ctrl => False
  | .status => False
  | .cmd => False
  | .inSlot _ _ _ => s.busy = true
  | _ => True

/-- A CMD write completes normally, whatever becomes of the command (60_exceptions.md R122, R126). -/
theorem issueWord_written (w : Word) (s : State) (hturn : s.engineTurn = false) :
    ∃ t, issueWord w s = .next t ∧ t.resp = some .written := by
  unfold issueWord
  split
  · rename_i i hd
    refine ⟨issue i s, exec_issues i s (by simp [hturn]), ?_⟩
    rcases issue_cases i s with ⟨code, -, h⟩ | ⟨-, -, h⟩ <;> rw [h] <;> rfl
  · exact ⟨_, rfl, rfl⟩

theorem writeTarget_error_iff (d : Word) (s : State) (tg : Target) (hturn : s.engineTurn = false) :
    ∃ t, writeTarget d s tg = .next t ∧ (t.resp = some .error ↔ s.RefusesWrite tg) := by
  cases tg with
  | cmd =>
    obtain ⟨t, ht, hresp⟩ := issueWord_written d s hturn
    exact ⟨t, ht, by simp [hresp, State.RefusesWrite]⟩
  | ctrl => exact ⟨_, rfl, by split <;> simp [State.RefusesWrite, State.softReset]⟩
  | status => exact ⟨_, rfl, by simp [State.RefusesWrite]⟩
  | inSlot r c hi => exact ⟨_, rfl, by cases hb : s.busy <;> simp [State.RefusesWrite, hb]⟩
  | _ => exact ⟨_, rfl, by simp [State.RefusesWrite]⟩

/-- Where the targets that refuse a write stand (R43, R55). -/
theorem State.refusesWrite_target_iff (s : State) (off : Nat) (h4 : off % 4 = 0) (h : off < 0x40000) :
    s.RefusesWrite (target s.build.nmax off) ↔
      reservedOffset s.build.nmax off ∨ off = 0x000 ∨ off = 0x004 ∨ off = 0x010 ∨ 0x10000 ≤ off ∨
        (0x08000 ≤ off ∧ off < 0x10000 ∧ s.busy = true) := by
  have hmap := target_cases s.build.nmax off h4 h
  cases htg : target s.build.nmax off with
  | reserved =>
    have hres : reservedOffset s.build.nmax off := by simpa [htg] using hmap
    simp only [State.RefusesWrite, hres, true_or]
  | ctrl | status | cmd =>
    simp only [htg, reduceCtorEq, and_false, false_and, and_true, false_or, or_false] at hmap
    obtain ⟨hres, rfl⟩ := hmap
    simp [State.RefusesWrite, hres]
  | inSlot r c hi =>
    simp only [htg, reduceCtorEq, and_false, false_and, false_or, or_false] at hmap
    obtain ⟨hres, hlo, hhi, -⟩ := hmap
    cases hb : s.busy <;> simp [State.RefusesWrite, hres, hb] <;> omega
  | _ =>
    simp only [htg, reduceCtorEq, and_false, false_and, false_or, or_false] at hmap
    simp only [State.RefusesWrite, true_iff]
    omega

/-- The writes that get a bus error are those of R129. -/
theorem writeAccess_error_iff (s : State) (width off : Nat) (st : BitVec 4) (d : Word) (h : off < 0x40000)
    (hturn : s.engineTurn = false) :
    ∃ t, writeAccess width off st d s = .next t ∧ (t.resp = some .error ↔ writeRefused s width off st) := by
  unfold writeAccess writeRefused
  have hcheck : (formOk width off && decide (st = 0xF)) = true ↔ (width = 32 ∧ off % 4 = 0) ∧ st = 0xF := by
    rw [Bool.and_eq_true, formOk_iff, decide_eq_true_eq]
  by_cases hform : (width = 32 ∧ off % 4 = 0) ∧ st = 0xF
  · obtain ⟨t, ht, hresp⟩ := writeTarget_error_iff d s (target s.build.nmax off) hturn
    refine ⟨t, (if_pos (hcheck.2 hform)).trans ht, ?_⟩
    rw [hresp, s.refusesWrite_target_iff off hform.1.2 h]
    simp only [hform, ne_eq, not_true, false_or]
  · refine ⟨s.busError, if_neg (mt hcheck.1 hform), iff_of_true rfl ?_⟩
    by_contra hno
    simp only [not_or, not_not, ne_eq] at hno
    obtain ⟨hwidth, hst, h4, -⟩ := hno
    exact hform ⟨⟨hwidth, h4⟩, hst⟩

/-! ### The obligations -/

/-- Settles O27: a read is answered with its response, and a write by what its target does. -/
theorem busErrorsAreExactlyThese : Obligations.BusErrorsAreExactlyThese := by
  intro s off width st d rest h
  refine ⟨fun ho => ⟨_, step_readResponse s off width rest h ho, ?_⟩, fun ho => ?_⟩
  · rw [Option.some_inj]
    exact s.readResponse_eq_error_iff width off h
  · rw [step_write s off width st d rest h ho]
    exact writeAccess_error_iff s width off st d h (s.engineTurn_access _ rest ho)

/-- Settles O28, by the cases of a step: only a read and a refused write can leave an error response. -/
theorem busErrorChangesNothing : Obligations.BusErrorChangesNothing := by
  intro s t a rest ho hstep herr
  have hturn := s.engineTurn_access a rest ho
  refine ⟨?_, by rw [herr]; rfl⟩
  cases step_cases s t hstep with
  | read addr width _ r =>
    obtain rfl : r = .error := Option.some_inj.1 herr
    exact s.respond_eq .error _ rest ho
  | refusedWrite => exact s.respond_eq .error _ rest ho
  | complete i hengine => rw [hturn] at hengine; cases hengine
  | idle ho' | skip _ ho' | powerOn _ ho' => rw [ho] at ho'; cases ho'
  | _ => cases herr

end Sys2Proof.Machine
end

section
/-! SUPPORT. The issue of a command word, from the bits of the word (60_exceptions.md R124 to R126). -/

namespace Sys2Proof.Machine

/-! ### The checks of a transform -/

/-- The issue of a transform on an idle block whose shape check is `shape`: NOT_CONFIGURED, then DIM_MISMATCH, then
acceptance (R124). -/
theorem State.issueTransform_of_idle (s : State) (i : Instr) (ok : Bool) (shape : Prop) [Decidable shape]
    (hshape : ok = true ↔ shape) (hp : s.pend = none) :
    s.issueTransform i ok =
      if s.acfg.rows = 0 then s.reject .notConfigured
      else if ¬ shape then s.reject .dimMismatch
      else s.accept i := by
  split
  case isTrue hr => simp [State.issueTransform, State.busy, State.configured, hp, hr]
  case isFalse hr => simp only [s.issueTransform_idle i ok hp hr, hshape, ite_not]

/-- Settles O13: the shape is not looked at. -/
theorem transformNeedsConfiguration : Obligations.TransformNeedsConfiguration := by
  intro s i hi hp hr
  have hissue : issue i s = s.reject .notConfigured := by
    cases i with
    | config r c f4 => cases hi
    | _ => exact (s.issueTransform_of_idle _ _ _ Iff.rfl hp).trans (if_pos hr)
  rw [exec_issues_idle i s hp, hissue]
  rfl

/-! ### The issue of a word -/

/-- What `accept` leaves of a state whose next event is `e` (60_exceptions.md R126; 40_table_generator.md R83). -/
theorem State.accept_eq (s : State) (i : Instr) (e : Event) (rest : List Event) (ho : s.order = e :: rest) :
    s.accept i = { s with
      order := rest, seq := s.seq + 1, resp := some .written, pend := some i,
      acfg := if i.isConfig then .unconfigured else s.acfg } := by
  rw [State.accept, s.respond_eq .written e rest ho]

/-- BUSY is checked before all else, on every word (R124). -/
theorem issueWord_busy (w : Word) (s : State) (hturn : s.engineTurn = false) (hp : s.pend ≠ none) :
    issueWord w s = .next (s.reject .busy) := by
  have hb : s.busy = true := Option.isSome_iff_ne_none.2 hp
  cases hd : decode w with
  | illegal why => rw [issueWord_illegal w why s hd, if_neg hp]
  | cmd i =>
    have hissue : issue i s = s.reject .busy := by cases i <;> exact if_pos hb
    simp only [issueWord, hd, exec_issues i s (by simp [hturn]), hissue]

/-- An idle block issues the command of a legal word, which carries the word's opcode and operands (R70, R73). -/
theorem issueWord_legal (w : Word) (s : State) (hp : s.pend = none)
    (hlegal : 1 ≤ (fieldOp w).toNat ∧ (fieldOp w).toNat ≤ 5 ∧ fieldRsv w = 0 ∧
      (fieldF4 w = false ∨ (fieldOp w).toNat = 1)) :
    ∃ i, issueWord w s = .next (issue i s) ∧ (fieldOp w).toNat = (opcodeOf i).toNat ∧ fieldA w = i.a ∧
      fieldB w = i.b ∧ fieldF4 w = i.f4 := by
  obtain ⟨i, hd, hop, ha, hb, hf4⟩ := (legalEncodingsDecode w).1 hlegal
  refine ⟨i, ?_, congrArg BitVec.toNat hop.symm, ha.symm, hb.symm, hf4.symm⟩
  simp only [issueWord, hd, exec_issues_idle i s hp]

/-- Settles O15: BUSY, then the legality of the word (R73), then the checks of the command that its opcode names. -/
theorem issueProcedure : Obligations.IssueProcedure := by
  intro s w rest ho op a b f4 rejected accepted
  have hreject (code : ErrCode) : s.reject code = rejected code := s.reject_eq code _ rest ho
  have haccept (i : Instr) : s.accept i = accepted i (if i.isConfig then .unconfigured else s.acfg) :=
    s.accept_eq i _ rest ho
  have hstep : step s = issueWord w s := step_writeRegister s 0x014 w rest rfl (by decide) ho
  rw [hstep]
  by_cases hp : s.pend = none
  case neg => rw [if_pos hp, issueWord_busy w s (s.engineTurn_access _ rest ho) hp, hreject]
  rw [if_neg (not_not.2 hp)]
  by_cases hlegal : 1 ≤ op ∧ op ≤ 5 ∧ w.extractLsb' 25 7 = 0 ∧ (f4 = false ∨ op = 1)
  case neg =>
    obtain ⟨why, hd⟩ := (legalEncodingsDecode w).2 hlegal
    rw [if_pos hlegal, issueWord_illegal w why s hd, if_pos hp, hreject]
  obtain ⟨i, hissue, hop, ha, hb, hf4⟩ : ∃ i, issueWord w s = .next (issue i s) ∧ op = (opcodeOf i).toNat ∧
    a = i.a ∧ b = i.b ∧ f4 = i.f4 := issueWord_legal w s hp hlegal
  rw [if_neg (not_not.2 hlegal), hissue, hop, ha, hb, hf4]
  congr 1
  cases i with
  | config r c f4 =>
    rw [issueConfig_idle r c f4 s hp, hreject, haccept]
    simp only [badConfig_iff]
    rfl
  | fwd1d lenR lenC | inv1d lenR lenC =>
    rw [issue, s.issueTransform_of_idle _ _ _ (s.shape1d_iff lenR lenC) hp, haccept, hreject, hreject]
    simp [opcodeOf, Instr.a, Instr.b, Instr.isConfig]
  | fwd2d lenR lenC | inv2d lenR lenC =>
    rw [issue, s.issueTransform_of_idle _ _ _ (s.shape2d_iff lenR lenC) hp, haccept, hreject, hreject]
    simp [opcodeOf, Instr.a, Instr.b, Instr.isConfig]

end Sys2Proof.Machine
end

section
/-! SUPPORT. Resets, and CMD writes while a command runs (70_reset_and_hazards.md R146 to R150, R153). -/

namespace Sys2Proof.Machine

/-! ### Soft reset -/

/-- A CTRL write with SRST is a soft reset (R149). -/
theorem step_softReset (s : State) (d : Word) (rest : List Event)
    (ho : s.order = .access (.write (s.build.base + 0x008) 32 0xF d) :: rest) (hd : d.getLsbD 31 = true) :
    step s = .next s.softReset := by
  rw [step_writeRegister s 0x008 d rest rfl (by decide) ho]
  simp only [registerTarget, writeTarget, hd, if_true]

/-- A 1D transform's result shape is row 0 of OUT, up to ACFG.COLS (42_transform_1d.md R115). -/
theorem mem_blockPlaces_row (r c n : Nat) : (r, c) ∈ blockPlaces 1 n ↔ r = 0 ∧ c < n := by
  rw [mem_blockPlaces, Nat.lt_one_iff]

/-- Settles O34: the aborted places are the result shape of the pending command, and their slots are all of the buffers
that a soft reset touches. -/
theorem softReset : Obligations.SoftReset := by
  intro s d rest ho hd aborted
  have haborted (r c : Nat) : aborted r c ↔ (r, c) ∈ s.abortedPlaces := by
    cases hp : s.pend with
    | none => simp [aborted, State.abortedPlaces, hp]
    | some i =>
      have hplaces : s.abortedPlaces = s.resultPlaces i := by simp only [State.abortedPlaces, hp]
      simp only [aborted, hp, hplaces]
      cases i with
      | config => exact iff_of_false id List.not_mem_nil
      | fwd1d | inv1d => exact (mem_blockPlaces_row r c s.sizeC).symm
      | fwd2d | inv2d => exact (mem_blockPlaces s.sizeR s.sizeC (r, c)).symm
  refine ⟨s.softReset, step_softReset s d rest ho hd, rfl, ?_, fun r c hrc k hk => ?_, fun off hoff => ?_⟩
  · simp only [State.softReset, State.respond, State.advance, ho, List.tail_cons, Acfg.unconfigured]
  · exact Memory.load_forgetOuts_inside _ _ (r, c) ((haborted r c).1 hrc) _
      ⟨Nat.le_add_right _ k, Nat.add_lt_add_left hk _⟩
  · exact Memory.load_forgetOuts _ _ off fun p hp => hoff p.1 p.2 ((haborted p.1 p.2).2 hp)

/-! ### CMD writes while a command runs -/

/-- Settles O14: BUSY is the first check, and a rejection keeps PEND and the buffers. -/
theorem commandWhileBusyIsRejected : Obligations.CommandWhileBusyIsRejected := by
  intro s w j rest ho hp
  have hbusy : s.pend ≠ none := by simp [hp]
  calc step s
      = issueWord w s := step_writeRegister s 0x014 w rest rfl (by decide) ho
    _ = .next (s.reject .busy) := issueWord_busy w s (s.engineTurn_access _ rest ho) hbusy
    _ = _ := by rw [s.reject_eq _ _ rest ho]

/-! ### Power-on reset -/

/-- Settles O39: the registers are those that any power-on reset leaves. -/
theorem resetValues : Obligations.ResetValues := by
  obtain ⟨hctrl, hstatus, hacfg⟩ := powerOn_registers State.reset
  have hcap : capValue Config.build = 0x01012001 := by decide
  exact ⟨hctrl, hstatus, hacfg, rfl, congrArg some hcap, rfl, rfl, rfl, Memory.load_nil⟩

/-- Settles O40: the step is the reset itself, whatever the state was. -/
theorem powerOnResetsEverything : Obligations.PowerOnResetsEverything := by
  intro s rest ho
  obtain ⟨hctrl, hstatus, hacfg⟩ := powerOn_registers s
  have hstep : step s = .next s.powerOn := by simp only [step, ho]
  have horder : s.powerOn.order = rest := by simp [ho]
  exact ⟨s.powerOn, hstep, rfl, hctrl, hstatus, hacfg, rfl, rfl, Memory.load_nil, horder⟩

end Sys2Proof.Machine
end
